-- ==== Sys2Proof/Word.lean ====
section
/-! DEFINITION. The words BBR moves (R38, R50) and the form in which memories are held. -/

namespace Sys2Proof

/-- One byte of a ROM image as the host hands it over (R47, R165). -/
abbrev Byte := BitVec 8

/-- The data field of a request and the word of a response: 14 bits, a narrower datum zero-extended (R38, R50). -/
abbrev DataWord := BitVec 14

/-- A memory of `w`-bit bus words: the words that are not zero, with their cell numbers, rising.
`Memory 8` is the list of `Host.Cell`s.  Every access of BBR moves one bus word of its space (R36), so the word, not
the byte, is the unit of each space. -/
abbrev Memory (w : Nat) := List (Nat × BitVec w)

end Sys2Proof
end

