-- ==== Sys2Proof/Config.lean ====
section
/-! DEFINITION. The implementation parameters of 00_scope.md R4, and the functions the spec leaves OPEN. -/

namespace Sys2Proof

/-- The three board families (R1, decision D1). -/
inductive Family where
  | arc | c4 | hp
  deriving DecidableEq, Repr

/-- The two sequences of chips that have words and ports (R11). -/
inductive ChipKind where
  | rom | ram
  deriving DecidableEq, Repr

/-- The access kind `k` of a C4 RAM cell (R23, R51: 0 = CHAR, 1 = STATUS). -/
inductive CellKind where
  | char | status
  deriving DecidableEq, Repr

/-- A control-line descriptor `(kind, i, bit, active_low)` (R59). -/
structure LineDesc where
  kind : ChipKind
  chip : Nat
  bit : Nat
  activeLow : Bool
  deriving DecidableEq, Repr

/-- Where a signal's bit lives: the chip's output port latch, or a RAM cell (R60). -/
inductive SigPlace where
  | port
  | mem (k : CellKind) (off : BitVec 6)
  deriving DecidableEq, Repr

/-- A signal descriptor `(kind, i, where, bit)` (R60). -/
structure SigDesc where
  kind : ChipKind
  chip : Nat
  place : SigPlace
  bit : Nat
  deriving DecidableEq, Repr

/-- `SHIFT_DIR` (R109): only UP has a specified meaning; the bidirectional register has none. -/
inductive ShiftDir where
  | up | bidirectional
  deriving DecidableEq, Repr

/-- Which `KeyPortFn` a board has (R129): the spec's default, or the `n`-th of the functions the spec leaves open. -/
inductive KeyFn where
  | rawPortMask
  | wired (n : Nat)
  deriving DecidableEq, Repr

/-- The parameters of one BBR instance (R4).  Plain data, held in State and written by no step. -/
structure Config where
  family : Family
  /-- `MAX_CHIPS`, OPEN, at least 16. -/
  maxChips : Nat
  arcNRam : Nat
  arcRamLen : Nat
  c4NRom : Nat
  c4RomLen : Nat
  c4RomW : Nat
  c4NRam : Nat
  c4PortW : Nat
  hpNRom : Nat
  /-- `ROMSEL_PATTERN`, 7 bits, OPEN. -/
  romselPattern : BitVec 7
  nShift : Nat
  /-- `SHIFT_W`, written N in the spec. -/
  shiftW : Nat
  shiftDir : ShiftDir
  lKclk : LineDesc
  lKdat : LineDesc
  lKen : Option LineDesc
  lPclk : LineDesc
  lPdat : LineDesc
  lPen : Option LineDesc
  /-- `SIG[s]`, s = 0 .. N_SIG-1. -/
  sigs : List SigDesc
  keyPort : Option (ChipKind × Nat)
  keyFn : KeyFn
  /-- `RAM_INIT` of an ARC board, by cell number `chip * ARC_RAM_LEN + offset`. -/
  arcRamInit : Memory 8
  /-- `RAM_INIT` of a C4 board, by cell number `chip * 128 + k * 64 + offset`. -/
  c4RamInit : Memory 4
  deriving DecidableEq, Repr

namespace Config

/-- Free: the `KeyPortFn` of a board whose keyboard wiring the source does not give (R129, N11).  Log 12. -/
opaque keyPortFn : Nat → Option (BitVec 16) → Nat → Nat

/-- Free: an arbitrary bijection between 320 bytes and 256 ten-bit words (R169, N18, D23).  Both sides are written as
2560 bits (byte k at bits 8k, word k at bits 10k), which says nothing of the packing.  `Unpack` (Machine.hpUnpack) is
made of it.  Log 13. -/
opaque hpPacking : Equiv.Perm (BitVec 2560)

/-- Free: `Unpack` of a C4 image whose words are not 8 bits wide (chip length, word width, the image without the zero
bytes at its end, word number); R169 gives it for 8-bit words only.  Log 14. -/
opaque c4Unpack : Nat → Nat → List Byte → Nat → DataWord

/-- `ARC_N_ROM` (R4). -/
abbrev arcNRom : Nat := 4
/-- `ARC_ROM_LEN` (R4). -/
abbrev arcRomLen : Nat := 2048
/-- `HP_ROM_WORDS` (R4). -/
abbrev hpRomWords : Nat := 256
/-- Cells of one C4 RAM chip of the reference model: 2 kinds of 64 (R23, D7). -/
abbrev c4RamCells : Nat := 128

/-- The number of ROM chips of the instance's family (N_ROM of R11). -/
def nRom (c : Config) : Nat :=
  match c.family with
  | .arc => arcNRom
  | .c4 => c.c4NRom
  | .hp => c.hpNRom

/-- The number of RAM chips of the instance's family (N_RAM of R11; HP has none, N16). -/
def nRam (c : Config) : Nat :=
  match c.family with
  | .arc => c.arcNRam
  | .c4 => c.c4NRam
  | .hp => 0

/-- The number of ports of a kind: one for every chip of a C4 board, none elsewhere (R24, N14). -/
def nPorts (c : Config) (k : ChipKind) : Nat :=
  match c.family, k with
  | .c4, .rom => c.c4NRom
  | .c4, .ram => c.c4NRam
  | .arc, _ => 0
  | .hp, _ => 0

/-- `N_SIG` (R4). -/
def nSig (c : Config) : Nat := c.sigs.length

/-- The C4 board of 95_test_vectors.md: the default counts of R4 and the illustrative wiring of GK9.  Logs 2 and 3. -/
def c4Board : Config where
  family := .c4
  maxChips := 16
  arcNRam := 8
  arcRamLen := 0x400
  c4NRom := 5
  c4RomLen := 256
  c4RomW := 8
  c4NRam := 2
  c4PortW := 4
  hpNRom := 3
  romselPattern := 0b0010000
  nShift := 3
  shiftW := 10
  shiftDir := .up
  lKclk := ⟨.rom, 0, 0, false⟩
  lKdat := ⟨.rom, 0, 1, false⟩
  lKen := none
  lPclk := ⟨.rom, 0, 2, false⟩
  lPdat := ⟨.rom, 0, 1, false⟩
  lPen := none
  sigs := [⟨.ram, 0, .port, 1⟩, ⟨.ram, 0, .port, 3⟩]
  keyPort := some (.rom, 1)
  keyFn := .rawPortMask
  arcRamInit := []
  c4RamInit := []

/-- The ARC board of 95_test_vectors.md (ARC_RAM_LEN = 0x400): no ports, no chain, no signals (R111, N14, N25). -/
def arcBoard : Config :=
  { c4Board with family := .arc, nShift := 0, sigs := [], keyPort := none }

/-- The HP board of 95_test_vectors.md (HP_N_ROM = 3): no ports, no chain, no signals. -/
def hpBoard : Config :=
  { c4Board with family := .hp, nShift := 0, sigs := [], keyPort := none }

/-- The board of each family that the model's tests and `withFetchWord` use. -/
def board : Family → Config
  | .arc => arcBoard
  | .c4 => c4Board
  | .hp => hpBoard

end Config

end Sys2Proof
end

