-- ==== Sys2Proof/Syntax.lean ====
section
/-! DEFINITION. The operations of BBR (R51) and the rows of the sub-decodes (R64), one constructor for every row of
spec/opcode_table.json, and the forms in which they are presented to BBR. -/

namespace Sys2Proof

/-- One row of spec/opcode_table.json each; operands as R51, R52, R54, R57 lay them out.  A write carries the
bits of `d` it uses: `d[7:0]` on ARC, `v = d[3:0]` on C4 (R50, R51). -/
inductive Instr where
  -- CPU requests (op 0x0 to 0x9)
  | arcRd (addr : BitVec 16)
  | arcWr (addr : BitVec 16) (v : BitVec 8)
  | c4Romrd (addr : BitVec 12)
  | c4Ramrd (k : CellKind) (cm : BitVec 3) (di : BitVec 8)
  | c4Ramwr (k : CellKind) (cm : BitVec 3) (di : BitVec 8) (v : BitVec 4)
  | c4Rampw (cm : BitVec 3) (di : BitVec 8) (v : BitVec 4)
  | c4Rompr (di : BitVec 8)
  | c4Rompw (di : BitVec 8) (v : BitVec 4)
  | hpFetch (addr : BitVec 8)
  | hpWsrd (addr : BitVec 8)
  -- host commands (op 0xA to 0xF)
  | tick
  | inject (v : BitVec 16)
  | reset
  | loadrom (i : BitVec 8) (blob : List Byte)
  | rdpar
  | snap
  -- micro-operations XO fires
  | cpuStep
  | pccExtract
  | pccShift
  | sleUpdate
  -- the micro-operation inside HP.FETCH
  | hpRomsel (b : BitVec 3)
  -- the ARC address classes
  | arcAddrRom (chip : BitVec 2) (offset : BitVec 11)
  | arcAddrRam (r : BitVec 13)
  | arcAddrFatal01 (x : BitVec 14)
  | arcAddrFatal10 (x : BitVec 14)
  | arcAddrFatal11 (x : BitVec 14)
  -- the eight command-control encodings
  | cm000
  | cm001
  | cm010
  | cm100
  | cm011
  | cm101
  | cm110
  | cm111
  deriving DecidableEq, Repr

/-- A request or command: the triple `(w, d, blob)` of R50. -/
structure Req where
  w : BitVec 20
  d : DataWord
  blob : List Byte
  deriving DecidableEq, Repr

/-- The encoded forms, one for each `format` of the table (R64): REQ20, PHASE, HPOP10, ARC_ADDR16, CM3. -/
inductive Encoded where
  | req (q : Req)
  | phase (p : BitVec 3)
  | hpop (o : BitVec 10)
  | arcAddr (a : BitVec 16)
  | cm (c : BitVec 3)
  deriving DecidableEq, Repr

/-- Why the decoder rejects (R66, R94). -/
inductive DecodeError where
  /-- A bit that the layout of R51 requires to be 0 is set. -/
  | mustBeZero
  /-- A phase number that is none of 1 to 4 (R122). -/
  | noSuchPhase
  /-- A 10-bit opcode whose low 7 bits are not ROMSEL_PATTERN: "every other opcode is opaque to BBR" (R57). -/
  | opaqueOpcode
  deriving DecidableEq, Repr

end Sys2Proof
end

