-- ==== Sys2Proof/WellFormed.lean ====
section
/-! DEFINITION. Which instructions a board of a given configuration accepts (R51, R66, R165).  The widths of operands
are in their types; what is left to check is the family and the ROM chip index. -/

namespace Sys2Proof

/-- The family whose BBR accepts the operation; `none` for the operations of all families (R51, the table's
"family"). -/
def Instr.family : Instr → Option Family
  | .arcRd _ | .arcWr _ _ => some .arc
  | .c4Romrd _ | .c4Ramrd _ _ _ | .c4Ramwr _ _ _ _ | .c4Rampw _ _ _ | .c4Rompr _ | .c4Rompw _ _ => some .c4
  | .hpFetch _ | .hpWsrd _ => some .hp
  | .tick | .inject _ | .reset | .loadrom _ _ | .rdpar | .snap => none
  | .cpuStep | .pccExtract | .pccShift | .sleUpdate => none
  | .hpRomsel _ => some .hp
  | .arcAddrRom _ _ | .arcAddrRam _ | .arcAddrFatal01 _ | .arcAddrFatal10 _ | .arcAddrFatal11 _ => some .arc
  | .cm000 | .cm001 | .cm010 | .cm100 | .cm011 | .cm101 | .cm110 | .cm111 => some .c4

/-- The operations the CPU agent issues in phase 1, op 0x0 to 0x9 (R50, R51 "issued by"). -/
def Instr.isRequest : Instr → Bool
  | .arcRd _ | .arcWr _ _ | .c4Romrd _ | .c4Ramrd _ _ _ | .c4Ramwr _ _ _ _ | .c4Rampw _ _ _ | .c4Rompr _
  | .c4Rompw _ _ | .hpFetch _ | .hpWsrd _ => true
  | .tick | .inject _ | .reset | .loadrom _ _ | .rdpar | .snap | .cpuStep | .pccExtract | .pccShift | .sleUpdate
  | .hpRomsel _ | .arcAddrRom _ _ | .arcAddrRam _ | .arcAddrFatal01 _ | .arcAddrFatal10 _ | .arcAddrFatal11 _
  | .cm000 | .cm001 | .cm010 | .cm100 | .cm011 | .cm101 | .cm110 | .cm111 => false

/-- The commands the host issues between ticks, op 0xA to 0xF (R50, R51 "issued by"). -/
def Instr.isCommand : Instr → Bool
  | .tick | .inject _ | .reset | .loadrom _ _ | .rdpar | .snap => true
  | .arcRd _ | .arcWr _ _ | .c4Romrd _ | .c4Ramrd _ _ _ | .c4Ramwr _ _ _ _ | .c4Rampw _ _ _ | .c4Rompr _
  | .c4Rompw _ _ | .hpFetch _ | .hpWsrd _ | .cpuStep | .pccExtract | .pccShift | .sleUpdate
  | .hpRomsel _ | .arcAddrRom _ _ | .arcAddrRam _ | .arcAddrFatal01 _ | .arcAddrFatal10 _ | .arcAddrFatal11 _
  | .cm000 | .cm001 | .cm010 | .cm100 | .cm011 | .cm101 | .cm110 | .cm111 => false

/-- The family of the board accepts the operation (R66). -/
def Instr.familyOk (c : Config) (i : Instr) : Bool :=
  match i.family with
  | none => true
  | some f => f == c.family

/-- The ROM chip a `LOADROM` names exists (R165: "if i >= N_ROM then refuse"). -/
def Instr.chipOk (c : Config) : Instr → Bool
  | .loadrom i _ => i.toNat < c.nRom
  | .arcRd _ | .arcWr _ _ | .c4Romrd _ | .c4Ramrd _ _ _ | .c4Ramwr _ _ _ _ | .c4Rampw _ _ _ | .c4Rompr _
  | .c4Rompw _ _ | .hpFetch _ | .hpWsrd _ | .tick | .inject _ | .reset | .rdpar | .snap | .cpuStep | .pccExtract
  | .pccShift | .sleUpdate | .hpRomsel _ | .arcAddrRom _ _ | .arcAddrRam _ | .arcAddrFatal01 _ | .arcAddrFatal10 _
  | .arcAddrFatal11 _ | .cm000 | .cm001 | .cm010 | .cm100 | .cm011 | .cm101 | .cm110 | .cm111 => true

/-- An instruction that a board of configuration `c` accepts. -/
def Instr.wf (c : Config) (i : Instr) : Bool := i.familyOk c && i.chipOk c

end Sys2Proof
end

