-- ==== Sys2Proof/Decode.lean ====
section
/-! DEFINITION. The decoder of every encoded form (R50 to R58, R64), total, rejecting by name, and after it the
encoder.  Bit 0 of a value is its least significant bit (R5). -/

namespace Sys2Proof

/-- Bits `lo + n - 1` down to `lo` of `x`: the slice `x[hi:lo]` of R5. -/
def slice {w : Nat} (x : BitVec w) (lo n : Nat) : BitVec n := x.extractLsb' lo n

/-- The access kind named by the bit `k` (R51: 0 = CHAR, 1 = STATUS). -/
def CellKind.ofBit (b : BitVec 1) : CellKind := if b = 0 then .char else .status

/-- The bit `k` of an access kind. -/
def CellKind.toBit : CellKind → BitVec 1
  | .char => 0
  | .status => 1

/-- `op = w[19:16]` (R50). -/
def Req.op (q : Req) : BitVec 4 := slice q.w 16 4

/-- `a = w[15:0]` (R50). -/
def Req.a (q : Req) : BitVec 16 := slice q.w 0 16

/-- Accept `i` when the bits of `a` that its layout does not name are 0 (R51, R66). -/
def whenZero {n : Nat} (unnamed : BitVec n) (i : Instr) : Except DecodeError Instr :=
  if unnamed = 0 then .ok i else .error .mustBeZero

/-- The operation map R51 for a request word.  `d` and `blob` are read only by the operations that use them (R50). -/
def decodeReq (q : Req) : Except DecodeError Instr :=
  let a := q.a
  match q.op.toNat with
  | 0x0 => .ok (.arcRd a)
  | 0x1 => .ok (.arcWr a (slice q.d 0 8))
  | 0x2 => whenZero (slice a 12 4) (.c4Romrd (slice a 0 12))
  | 0x3 => whenZero (slice a 12 4) (.c4Ramrd (.ofBit (slice a 11 1)) (slice a 8 3) (slice a 0 8))
  | 0x4 => whenZero (slice a 12 4) (.c4Ramwr (.ofBit (slice a 11 1)) (slice a 8 3) (slice a 0 8) (slice q.d 0 4))
  | 0x5 => whenZero (slice a 11 5) (.c4Rampw (slice a 8 3) (slice a 0 8) (slice q.d 0 4))
  | 0x6 => whenZero (slice a 8 8) (.c4Rompr (slice a 0 8))
  | 0x7 => whenZero (slice a 8 8) (.c4Rompw (slice a 0 8) (slice q.d 0 4))
  | 0x8 => whenZero (slice a 8 8) (.hpFetch (slice a 0 8))
  | 0x9 => whenZero (slice a 8 8) (.hpWsrd (slice a 0 8))
  | 0xA => whenZero a .tick
  | 0xB => .ok (.inject a)
  | 0xC => whenZero a .reset
  | 0xD => whenZero (slice a 8 8) (.loadrom (slice a 0 8) q.blob)
  | 0xE => whenZero a .rdpar
  | _ => whenZero a .snap

/-- The micro-operation of a phase number (R122, R64). -/
def decodePhase (p : BitVec 3) : Except DecodeError Instr :=
  match p.toNat with
  | 1 => .ok .cpuStep
  | 2 => .ok .pccExtract
  | 3 => .ok .pccShift
  | 4 => .ok .sleUpdate
  | _ => .error .noSuchPhase

/-- The bank-select opcode (R57): `opc[6:0]` equals the pattern, `opc[9:7]` is the bank. -/
def decodeHpop (pattern : BitVec 7) (o : BitVec 10) : Except DecodeError Instr :=
  if slice o 0 7 = pattern then .ok (.hpRomsel (slice o 7 3)) else .error .opaqueOpcode

/-- The ARC address classes (R52): `addr[15:14]`, then `addr[13]`. -/
def decodeArcAddr (a : BitVec 16) : Except DecodeError Instr :=
  match (slice a 14 2).toNat with
  | 0 => if slice a 13 1 = 0 then .ok (.arcAddrRom (slice a 11 2) (slice a 0 11)) else .ok (.arcAddrRam (slice a 0 13))
  | 1 => .ok (.arcAddrFatal01 (slice a 0 14))
  | 2 => .ok (.arcAddrFatal10 (slice a 0 14))
  | _ => .ok (.arcAddrFatal11 (slice a 0 14))

/-- The eight values of the command-control register (R54). -/
def decodeCm (c : BitVec 3) : Except DecodeError Instr :=
  match c.toNat with
  | 0 => .ok .cm000
  | 1 => .ok .cm001
  | 2 => .ok .cm010
  | 3 => .ok .cm011
  | 4 => .ok .cm100
  | 5 => .ok .cm101
  | 6 => .ok .cm110
  | _ => .ok .cm111

/-- The decoder.  `pattern` is the board's ROMSEL_PATTERN, which only the form HPOP10 needs. -/
def decode (pattern : BitVec 7) : Encoded → Except DecodeError Instr
  | .req q => decodeReq q
  | .phase p => decodePhase p
  | .hpop o => decodeHpop pattern o
  | .arcAddr a => decodeArcAddr a
  | .cm c => decodeCm c

/-! ### The host's view of the table's words -/

/-- The form in which a table word of `nbits` bits (in whole bytes) is presented.  REQ20 words have 24 bits, HPOP10 and
ARC_ADDR16 words 16, CM3 and PHASE words 8.  Where two forms share a length the number alone cannot tell them apart:
a bank-select opcode is preferred to an ARC address, a CM value to a phase number (log 17). -/
def presented (nbits w : Nat) : Option Encoded :=
  if nbits ≤ 8 then
    if w < 8 then some (.cm (BitVec.ofNat 3 w))
    else if w < 256 then some (.hpop (BitVec.ofNat 10 w))
    else none
  else if nbits ≤ 16 then
    if w < 1024 ∧ w % 128 = 16 then some (.hpop (BitVec.ofNat 10 w))
    else if w < 65536 then some (.arcAddr (BitVec.ofNat 16 w))
    else none
  else if w < 1048576 then some (.req ⟨BitVec.ofNat 20 w, 0, []⟩)
  else none

/-- The instruction the decoder reads from a word as spec/opcode_table.json numbers its bits, with the default
ROMSEL_PATTERN (R4), which is the one the table shows. -/
def decodeTableWord (nbits w : Nat) : Option Instr :=
  match presented nbits w with
  | none => none
  | some e =>
    match decode Config.c4Board.romselPattern e with
    | .ok i => some i
    | .error _ => none

/-! ### The encoder -/

/-- The request word `op ‖ a` (R50) beside its data and blob. -/
def encodeReq (op : BitVec 4) (a : BitVec 16) (d : DataWord) (blob : List Byte) : Encoded :=
  .req ⟨op ++ a, d, blob⟩

/-- The operand field `0000 ‖ k ‖ cm ‖ di` (R51). -/
def ramOperand (k : CellKind) (cm : BitVec 3) (di : BitVec 8) : BitVec 16 := (0 : BitVec 4) ++ (k.toBit ++ (cm ++ di))

/-- The operand field `00000000 ‖ x` (R51). -/
def byteOperand (x : BitVec 8) : BitVec 16 := (0 : BitVec 8) ++ x

/-- The encoder: the word of an instruction, from the layouts of R51, R52, R54, R57 and R122. -/
def encode (pattern : BitVec 7) : Instr → Encoded
  | .arcRd addr => encodeReq 0x0 addr 0 []
  | .arcWr addr v => encodeReq 0x1 addr ((0 : BitVec 6) ++ v) []
  | .c4Romrd addr => encodeReq 0x2 ((0 : BitVec 4) ++ addr) 0 []
  | .c4Ramrd k cm di => encodeReq 0x3 (ramOperand k cm di) 0 []
  | .c4Ramwr k cm di v => encodeReq 0x4 (ramOperand k cm di) ((0 : BitVec 10) ++ v) []
  | .c4Rampw cm di v => encodeReq 0x5 ((0 : BitVec 5) ++ (cm ++ di)) ((0 : BitVec 10) ++ v) []
  | .c4Rompr di => encodeReq 0x6 (byteOperand di) 0 []
  | .c4Rompw di v => encodeReq 0x7 (byteOperand di) ((0 : BitVec 10) ++ v) []
  | .hpFetch addr => encodeReq 0x8 (byteOperand addr) 0 []
  | .hpWsrd addr => encodeReq 0x9 (byteOperand addr) 0 []
  | .tick => encodeReq 0xA 0 0 []
  | .inject v => encodeReq 0xB v 0 []
  | .reset => encodeReq 0xC 0 0 []
  | .loadrom i blob => encodeReq 0xD (byteOperand i) 0 blob
  | .rdpar => encodeReq 0xE 0 0 []
  | .snap => encodeReq 0xF 0 0 []
  | .cpuStep => .phase 1
  | .pccExtract => .phase 2
  | .pccShift => .phase 3
  | .sleUpdate => .phase 4
  | .hpRomsel b => .hpop (b ++ pattern)
  | .arcAddrRom chip offset => .arcAddr ((0 : BitVec 3) ++ (chip ++ offset))
  | .arcAddrRam r => .arcAddr ((1 : BitVec 3) ++ r)
  | .arcAddrFatal01 x => .arcAddr ((1 : BitVec 2) ++ x)
  | .arcAddrFatal10 x => .arcAddr ((2 : BitVec 2) ++ x)
  | .arcAddrFatal11 x => .arcAddr ((3 : BitVec 2) ++ x)
  | .cm000 => .cm 0
  | .cm001 => .cm 1
  | .cm010 => .cm 2
  | .cm100 => .cm 4
  | .cm011 => .cm 3
  | .cm101 => .cm 5
  | .cm110 => .cm 6
  | .cm111 => .cm 7

end Sys2Proof
end

