-- ==== Sys2Proof/Machine/State.lean ====
section
/-! DEFINITION. The state of one board instance (10_state.md R10), the responses it gives, why it refuses, and the
state right after it is created (R27, R160). -/

namespace Sys2Proof.Machine

/-- The position of XO inside a tick (R12, R122); `between` when no tick runs. -/
inductive Phase where
  | between | one | two | three | four
  deriving DecidableEq, Repr

/-- The direction of a C4 access, as a W2 record keeps it (R140: "read, write or port write"). -/
inductive AccessDir where
  | read | write | portWrite
  deriving DecidableEq, Repr

/-- A record of the diagnostic channel (R140, R144): W1 ROM_WRITE, W2 UNPOPULATED, W3 BAD_CM. -/
inductive Diag where
  | romWrite (addr : BitVec 16) (v : BitVec 8)
  | unpopulated (idx : BitVec 4) (dir : AccessDir)
  | badCm (cm : BitVec 3)
  deriving DecidableEq, Repr

/-- What the fatal condition F1 FATAL_ADDR records (R140): the address, the direction and, for a write, the data. -/
inductive FatalInfo where
  | read (addr : BitVec 16)
  | write (addr : BitVec 16) (v : BitVec 8)
  deriving DecidableEq, Repr

/-- The six control-line levels PCC hands from phase 2 to phase 3 (R103). -/
structure LineLevels where
  kclk : Bool
  kdat : Bool
  ken : Bool
  pclk : Bool
  pdat : Bool
  pen : Bool
  deriving DecidableEq, Repr

/-- No level sampled: what `lines` holds outside phases 2 and 3.  Log 8. -/
def LineLevels.idle : LineLevels := ⟨false, false, false, false, false, false⟩

/-- One value for every ROM chip and every RAM chip (R24). -/
structure Ports where
  rom : List Nat
  ram : List Nat
  deriving DecidableEq, Repr

/-- What the CPU agent will do, as plain data (R121): its requests one after another, each chosen by the responses it
has been given, and where its steps return.  Every agent that meets R121 (a) and (c) has such a plan for any number of
ticks: its steps are finite, and a branch on a response stands behind the request that was answered.  Log 4. -/
inductive CpuPlan where
  /-- The agent issues no request in this step, nor in any later one. -/
  | idle
  /-- The step returns (R123 "done"); `next` is the plan of the coming steps. -/
  | done (next : CpuPlan)
  /-- Issue the request `q` (R123 "request q"), then go on with `next`. -/
  | ask (q : Req) (next : CpuPlan)
  /-- Go on with `yes` when the latest response of this step was `r`, else with `no`. -/
  | whenHeard (r : DataWord) (yes no : CpuPlan)
  deriving DecidableEq, Repr

/-- The CPU agent (R10 (c), R121): what it will do, the responses it was given in its current step, its selector fields
CM and DI (R17, R18).  Logs 4 and 5. -/
structure CpuAgent where
  plan : CpuPlan
  heard : List DataWord
  cm : BitVec 3
  di : BitVec 8
  deriving DecidableEq, Repr

/-- The outcome of the flat decode (R71). -/
inductive Target where
  | rom (chip offset : Nat)
  | ram (chip offset : Nat)
  | fatal
  deriving DecidableEq, Repr

/-- The contents of a snapshot (R131). -/
structure Snapshot where
  portOut : Ports
  portIn : Ports
  sr : List Nat
  latch : List Bool
  pulse : List Bool
  clkPrevK : Bool
  clkPrevP : Bool
  romSel : List Nat
  keyIn : Option (BitVec 16)
  halted : Bool
  deriving DecidableEq, Repr

/-- A response (R50): a 14-bit word with status OK, or what the operation returns besides. -/
inductive Response where
  /-- Status OK and the word read, zero-extended; 0 for operations that return nothing. -/
  | ok (r : DataWord)
  /-- Status (FATAL, F1, info) (R125, R148). -/
  | fatal (info : FatalInfo)
  /-- Status (ERROR, X1) of `LOADROM`: the chip index and the image's length (R140, R167). -/
  | error (chip : BitVec 8) (len : Nat)
  /-- The value of `RDPAR` (R106). -/
  | par (v : Nat)
  /-- The snapshot of `SNAP` (R131). -/
  | snap (sn : Snapshot)
  /-- What a FlatDecode sub-decode yields (R71).  Log 9. -/
  | target (t : Target)
  /-- What a Bank sub-decode yields: the bank and whether the encoding is invalid (R74).  Log 9. -/
  | bank (b : BitVec 2) (bad : Bool)
  deriving DecidableEq, Repr

/-- The state of one board instance (R10). -/
structure State where
  /-- The configuration (R4); no operation writes it. -/
  cfg : Config
  /-- The words presented to BBR and not yet taken, oldest first (R50, R120).  The model's own field, log 18. -/
  inbox : List Encoded
  phase : Phase
  halted : Bool
  /-- `key_in` (R25). -/
  keyIn : Option (BitVec 16)
  /-- The diagnostic channel, oldest record first (R16). -/
  diag : List Diag
  /-- `latch[s]`: true = Active (R13). -/
  latch : List Bool
  /-- `pulse[s]` (R14). -/
  pulse : List Bool
  /-- `clk_prev[K]` (R20). -/
  clkPrevK : Bool
  /-- `clk_prev[P]` (R20). -/
  clkPrevP : Bool
  lines : LineLevels
  /-- `sr[SR_K]` (R21). -/
  srK : Nat
  /-- `sr[SR_A]` (R21). -/
  srA : Nat
  /-- `sr[SR_B]` (R21). -/
  srB : Nat
  /-- `rom_sel[i]` (R19). -/
  romSel : List Nat
  /-- `port_out[kind][i]` (R24). -/
  portOut : Ports
  /-- `port_in[kind][i]` (R24). -/
  portIn : Ports
  /-- ARC `rom[i]`, cell `i * 2048 + offset` (R22). -/
  arcRom : Memory 8
  /-- C4 `rom[i]`, cell `i * C4_ROM_LEN + offset`; words of C4_ROM_W bits (R22). -/
  c4Rom : Memory 14
  /-- HP `rom[i]`, cell `i * 256 + offset` (R22). -/
  hpRom : Memory 10
  /-- HP `ws[i]`, cell `i * 256 + offset` (R22, R95). -/
  hpWs : Memory 14
  /-- ARC `ram[i]`, cell `i * ARC_RAM_LEN + offset` (R23). -/
  arcRam : Memory 8
  /-- C4 `ram[i]`, cell `i * 128 + k * 64 + offset` (R23). -/
  c4Ram : Memory 4
  cpu : CpuAgent
  /-- The response of the last completed operation: an output.  The model's own field, log 7. -/
  resp : Response
  deriving DecidableEq, Repr

/-- Model faults: none.  The one fatal condition of BBR, F1, has an entry the spec describes (R125, R148) and is taken
as a next state. -/
inductive Fault where
  deriving DecidableEq, Repr

/-- Why a request or command has no meaning (R66: "The model refuses it ... errs toward unprovable"): all safe. -/
inductive Refusal where
  /-- An instruction of the table that the model gives no meaning; raised by `exec` only.  Safe. -/
  | notModelled (mnemonic : String)
  /-- A word that no row of R51 matches (R66); raised by `step`.  Safe. -/
  | malformed (e : DecodeError)
  /-- A configuration the rules cannot serve (R7, D39); raised by every operation.  Safe. -/
  | badConfig
  /-- Any operation but `RESET` and `SNAP` while `halted = 1` (R15, R66); raised by every other operation.  Safe. -/
  | halted
  /-- An operation of another family (R51, R66); raised by the operations of one family.  Safe. -/
  | otherFamily
  /-- A CPU request outside phase 1 (R66); raised by CPU requests and the sub-decodes inside them.  Safe. -/
  | outsidePhaseOne
  /-- A host command during a tick (R66); raised by host commands.  Safe. -/
  | duringTick
  /-- A micro-operation of XO outside its phase (R122, R126); raised by the four micro-operations.  Safe. -/
  | outOfPhase
  /-- `LOADROM` of a chip index at or above N_ROM (R165: "if i >= N_ROM then refuse").  Safe. -/
  | noSuchChip
  deriving DecidableEq, Repr

/-- A newly created board of a configuration: "A newly created board is in the reset state" (R160), with the values of
R27; before the first `LOADROM` all ROM images are zero (R27).  R27 gives the CPU agent's state no value ("the CPU
agent's own"): that the agent of a new board issues no request, has heard no response (log 4) and has CM and DI zero
(log 5) is the model's choice. -/
def State.create (c : Config) : State where
  cfg := c
  inbox := []
  phase := .between
  halted := false
  keyIn := none
  diag := []
  latch := List.replicate c.nSig false
  pulse := List.replicate c.nSig false
  clkPrevK := false
  clkPrevP := false
  lines := .idle
  srK := 0
  srA := 0
  srB := 0
  romSel := match c.family with
    | .hp => List.replicate c.hpNRom 0
    | .arc => []
    | .c4 => []
  portOut := ⟨List.replicate (c.nPorts .rom) 0, List.replicate (c.nPorts .ram) 0⟩
  portIn := ⟨List.replicate (c.nPorts .rom) 0, List.replicate (c.nPorts .ram) 0⟩
  arcRom := []
  c4Rom := []
  hpRom := []
  hpWs := []
  arcRam := match c.family with
    | .arc => c.arcRamInit
    | .c4 => []
    | .hp => []
  c4Ram := match c.family with
    | .c4 => c.c4RamInit
    | .arc => []
    | .hp => []
  cpu := ⟨.idle, [], 0, 0⟩
  resp := .ok 0

/-- The machine right after reset: a newly created C4 board.  Log 2 says why this board. -/
def State.reset : State := State.create Config.c4Board

end Sys2Proof.Machine
end

