-- ==== Sys2Proof/Machine/Memory.lean ====
section
/-! DEFINITION. The memories: reading a word, writing a word, installing the words of a chip, and the canonical form.
An unlisted cell reads as zero (R27: RAM_INIT default all zero; a ROM chip never loaded is all zero, R166). -/

namespace Sys2Proof

/-- The word of a cell; zero where nothing is listed. -/
def Memory.read {w : Nat} : Memory w → Nat → BitVec w
  | [], _ => 0
  | (b, u) :: m, a => if a = b then u else Memory.read m a

/-- A cell and its word in front of the rest, unless the word is zero. -/
def Memory.consWord {w : Nat} (a : Nat) (v : BitVec w) (m : Memory w) : Memory w :=
  if v = 0 then m else (a, v) :: m

/-- Write one word; writing zero removes the entry. -/
def Memory.write {w : Nat} : Memory w → Nat → BitVec w → Memory w
  | [], a, v => Memory.consWord a v []
  | (b, u) :: m, a, v =>
    if a < b then Memory.consWord a v ((b, u) :: m)
    else if a = b then Memory.consWord a v m
    else (b, u) :: Memory.write m a v

/-- The words `vs` at cells `a`, `a + 1`, ...; the zero ones are not listed. -/
def Memory.ofWords {w : Nat} : Nat → List (BitVec w) → Memory w
  | _, [] => []
  | a, v :: vs => Memory.consWord a v (Memory.ofWords (a + 1) vs)

/-- Replace the `len` cells from `base` on by the words `vs`, zero beyond the end of `vs` (R166). -/
def Memory.install {w : Nat} (m : Memory w) (base len : Nat) (vs : List (BitVec w)) : Memory w :=
  m.filter (fun p => decide (p.1 < base)) ++
    (Memory.ofWords base (vs.take len) ++ m.filter (fun p => decide (base + len ≤ p.1)))

/-- Every cell of `m` is at or above `lo`, the cells rise strictly, and no word is zero. -/
def Memory.wfFrom {w : Nat} : Nat → Memory w → Bool
  | _, [] => true
  | lo, (a, v) :: m => decide (lo ≤ a) && decide (v ≠ 0) && Memory.wfFrom (a + 1) m

/-- The canonical form: cells strictly rising, no word equal to what an unlisted cell reads as. -/
def Memory.wf {w : Nat} (m : Memory w) : Bool := Memory.wfFrom 0 m

/-- Every listed cell is below `n`. -/
def Memory.below {w : Nat} (n : Nat) (m : Memory w) : Bool := m.all (fun p => decide (p.1 < n))

/-- Every listed word is a value of `k` bits. -/
def Memory.fits {w : Nat} (k : Nat) (m : Memory w) : Bool := m.all (fun p => decide (p.2.toNat < 2 ^ k))

end Sys2Proof
end

