-- ==== Sys2Proof/Machine/Board.lean ====
section
/-! DEFINITION. What a configuration must satisfy (R4, R7, decision D39) and the capacities it gives (R47). -/

namespace Sys2Proof.Config

/-- A control line names an existing port and a bit of it (R59; D39: "a descriptor bit >= C4_PORT_W" is refused). -/
abbrev LineOk (c : Config) (l : LineDesc) : Prop := l.chip < c.nPorts l.kind ∧ l.bit < c.c4PortW

/-- An enable line may be `none` (R59). -/
abbrev EnableOk (c : Config) (l : Option LineDesc) : Prop := ∀ d ∈ l, LineOk c d

/-- A signal names an existing port bit (D39: "a descriptor bit >= C4_PORT_W" is refused), or a bit of a cell of an
existing RAM chip (R60).  D39 does not say which descriptors it means; the model's choice (log 11) is that its limit is
one on port bits, and that a bit of a RAM cell, 4 bits wide (R23), is limited by 4 whatever C4_PORT_W is. -/
abbrev SigOk (c : Config) (g : SigDesc) : Prop :=
  g.chip < c.nPorts g.kind ∧
    ((g.place = .port ∧ g.bit < c.c4PortW) ∨ (g.place ≠ .port ∧ g.kind = .ram ∧ g.bit < 4))

/-- The six control lines are needed only on a board with a chain (R111). -/
abbrev ChainOk (c : Config) : Prop :=
  c.nShift = 0 ∨
    (c.nShift = 3 ∧ LineOk c c.lKclk ∧ LineOk c c.lKdat ∧ EnableOk c c.lKen ∧
      LineOk c c.lPclk ∧ LineOk c c.lPdat ∧ EnableOk c c.lPen)

/-- The counts and lengths of R4 and D39. -/
abbrev CountsOk (c : Config) : Prop :=
  16 ≤ c.maxChips ∧ c.arcNRam * c.arcRamLen = 0x2000 ∧
    1 ≤ c.c4NRom ∧ 1 ≤ c.c4RomLen ∧ 1 ≤ c.c4RomW ∧ c.c4RomW ≤ 14 ∧ c.c4NRam ≤ 16 ∧
    1 ≤ c.c4PortW ∧ c.c4PortW ≤ 14 ∧ 1 ≤ c.hpNRom ∧ c.hpNRom ≤ 8 ∧ 1 ≤ c.shiftW ∧
    c.nRom ≤ c.maxChips ∧ c.nRam ≤ c.maxChips

/-- `RAM_INIT` gives words of the RAM chips that exist, in the canonical form. -/
abbrev RamInitOk (c : Config) : Prop :=
  c.arcRamInit.wf = true ∧ c.arcRamInit.below 0x2000 = true ∧
    c.c4RamInit.wf = true ∧ c.c4RamInit.below (c.c4NRam * c4RamCells) = true

/-- What a configuration the rules can serve satisfies (R4, R7, R109, R111, D39).  Log 11. -/
abbrev Ok (c : Config) : Prop :=
  CountsOk c ∧ c.shiftDir = .up ∧ ChainOk c ∧ (∀ g ∈ c.sigs, SigOk c g) ∧
    (∀ p ∈ c.keyPort, p.2 < c.nPorts p.1) ∧ RamInitOk c

/-- The check made before every operation: a configuration that fails it is refused (D39). -/
def ok (c : Config) : Bool := decide c.Ok

/-- `ROMSEL_EN` (R4, D12): true on HP, false on C4 and ARC. -/
def romselEn (c : Config) : Bool := c.family == .hp

/-- The capacity in bytes of a ROM chip of the family (R47). -/
def romCapacity (c : Config) : Nat :=
  match c.family with
  | .arc => arcRomLen
  | .c4 => c.c4RomLen * c.c4RomW / 8
  | .hp => 320

end Sys2Proof.Config
end

