-- ==== Sys2Proof/Machine/Operands.lean ====
section
/-! DEFINITION. The operands BBR computes (R61): the decode functions of the address decoder, the ports and the levels
taken from them, the merge, the shift. -/

namespace Sys2Proof.Machine

/-- `trunc_N(v) = v mod 2^N` (R6). -/
def trunc (n v : Nat) : Nat := v % 2 ^ n

/-! ### Ports (R24) -/

/-- `port[kind][i]`. -/
def Ports.get (p : Ports) (k : ChipKind) (i : Nat) : Nat :=
  match k with
  | .rom => p.rom.getD i 0
  | .ram => p.ram.getD i 0

/-- `port[kind][i] <- v`. -/
def Ports.set (p : Ports) (k : ChipKind) (i : Nat) (v : Nat) : Ports :=
  match k with
  | .rom => { p with rom := p.rom.set i v }
  | .ram => { p with ram := p.ram.set i v }

/-- The C4_PORT_W bits that a port write puts into the latch (R24): `v = d[3:0]` (R51, R78, R82), cut for a narrower port
and zero-extended for a wider one, where R38 and R50 would have it `d[C4_PORT_W-1:0]`: the model's choice, log 15. -/
def portValue (c : Config) (v : BitVec 4) : Nat := (v.setWidth c.c4PortW).toNat

/-- `Level(L) = port_out[kind][i][bit] ^ active_low` (R59, R102). -/
def level (p : Ports) (l : LineDesc) : Bool := (p.get l.kind l.chip).testBit l.bit ^^ l.activeLow

/-- The level of an enable line; `Level(none) = 1` (R59). -/
def enableLevel (p : Ports) : Option LineDesc → Bool
  | none => true
  | some l => level p l

/-! ### Address decode -/

/-- `FlatDecode(a)` (R71). -/
def flatDecode (c : Config) (a : BitVec 16) : Target :=
  if 0x4000 ≤ a.toNat then .fatal
  else if a.toNat < 0x2000 then .rom (a.toNat / Config.arcRomLen) (a.toNat % Config.arcRomLen)
  else .ram ((a.toNat - 0x2000) / c.arcRamLen) ((a.toNat - 0x2000) % c.arcRamLen)

/-- `Bank(cm)`: the bank, and whether the encoding is invalid (R54, R74). -/
def bank (cm : BitVec 3) : BitVec 2 × Bool :=
  match cm.toNat with
  | 0b000 => (0, false)
  | 0b001 => (1, false)
  | 0b010 => (2, false)
  | 0b100 => (3, false)
  | _ => (0, true)

/-- `cs = di[7:6]` (R55). -/
def chipSelect (di : BitVec 8) : BitVec 2 := slice di 6 2

/-- The chip-local offset `di[5:0]` (R55). -/
def localOffset (di : BitVec 8) : BitVec 6 := slice di 0 6

/-- `idx = cs | (bank << 2)`, 4 bits (R56, R62). -/
def physIndex (cs b : BitVec 2) : BitVec 4 := cs.setWidth 4 ||| (b.setWidth 4 <<< 2)

/-- `WrapDecode(x, len, n) = ((x / len) % n, x % len)` (R79). -/
def wrapDecode (x len n : Nat) : Nat × Nat := ((x / len) % n, x % len)

/-- The ROM chip of a port request: `di[7:4] % C4_N_ROM` (R81, R82). -/
def romPortChip (c : Config) (di : BitVec 8) : Nat := (slice di 4 4).toNat % c.c4NRom

/-! ### Cells of the memories -/

/-- ARC ROM chip `i`, offset `o`. -/
def arcRomCell (i o : Nat) : Nat := i * Config.arcRomLen + o

/-- ARC RAM chip `i`, offset `o`. -/
def arcRamCell (c : Config) (i o : Nat) : Nat := i * c.arcRamLen + o

/-- C4 ROM chip `i`, offset `o`. -/
def c4RomCell (c : Config) (i o : Nat) : Nat := i * c.c4RomLen + o

/-- C4 RAM chip `idx`, kind `k`, offset `off`: each `(k, off)` is a cell of its own (R23). -/
def c4RamCell (idx : Nat) (k : CellKind) (off : BitVec 6) : Nat :=
  idx * Config.c4RamCells + k.toBit.toNat * 64 + off.toNat

/-- HP ROM bank `i` or word-select bank `i`, in-bank address `addr`. -/
def hpCell (i : Nat) (addr : BitVec 8) : Nat := i * Config.hpRomWords + addr.toNat

/-! ### Merge (R90) -/

/-- `Merge(f)`: the OR over every populated chip, in index order, none left out (R90, R92). -/
def merge {w : Nat} (n : Nat) (f : Nat → BitVec w) : BitVec w :=
  (List.range n).foldl (fun acc i => acc ||| f i) 0

/-! ### The shift register (R101) -/

/-- The content of an N-bit register after `Shift(j, edge, din)`: the new bit at bit 0, the others one place up. -/
def shifted (n : Nat) (edge din : Bool) (v : Nat) : Nat :=
  if edge then trunc n ((v <<< 1) ||| din.toNat) else v

/-- `dout`: the old bit N-1, whether or not a shift takes place. -/
def shiftOut (n : Nat) (v : Nat) : Bool := v.testBit (n - 1)

/-! ### ROM images (R165 to R169) -/

/-- The 2560 bits of an HP image: byte k at bits 8k; bytes beyond the end are 0 (R166). -/
def packedBits (blob : List Byte) : BitVec 2560 :=
  BitVec.ofNat 2560 (blob.foldr (fun b acc => b.toNat + 256 * acc) 0)

/-- `Unpack` of an HP image: a bijection (R169) that takes the all-zero image to all-zero words, because "an empty blob
gives an all-zero image" (R165) and the empty blob is padded with zeros (R166).  Otherwise it is the free
`Config.hpPacking`: a bijection that keeps zero is not altered by the swap, so none of those is left out.  Log 13. -/
def hpUnpack : Equiv.Perm (BitVec 2560) := Config.hpPacking.trans (Equiv.swap (Config.hpPacking 0) 0)

/-- `Unpack` on HP: 256 words of 10 bits (R169). -/
def hpUnpackWords (blob : List Byte) : List (BitVec 10) :=
  (List.range Config.hpRomWords).map (fun k => slice (hpUnpack (packedBits blob)) (10 * k) 10)

/-- An image without the zero bytes at its end: what zero padding to the chip's capacity (R166) says nothing about, so
that two blobs with one padded image have one such part. -/
def unpadded (blob : List Byte) : List Byte := blob.rdropWhile (fun b => decide (b = 0))

/-- The `k`-th word of a C4 image whose words are not 8 bits: 0 when it lies beyond the bytes of the image (R166: "words
beyond the blob read as 0"), free otherwise, within the word's width (log 14). -/
def c4WideWord (c : Config) (blob : List Byte) (k : Nat) : DataWord :=
  if 8 * (unpadded blob).length ≤ k * c.c4RomW then 0
  else BitVec.ofNat 14 (trunc c.c4RomW (Config.c4Unpack c.c4RomLen c.c4RomW (unpadded blob) k).toNat)

/-- `Unpack` on C4: the identity for 8-bit words (R169), word by word otherwise. -/
def c4UnpackWords (c : Config) (blob : List Byte) : List DataWord :=
  if c.c4RomW = 8 then blob.map (fun b => b.setWidth 14)
  else (List.range c.c4RomLen).map (c4WideWord c blob)

end Sys2Proof.Machine
end

