-- ==== Sys2Proof/Machine/Flags.lean ====
section
/-! DEFINITION. The one-bit status state: clock edges (R104), latches and pulses (R116), and the diagnostic channel
(R144). -/

namespace Sys2Proof.Machine

/-- A level that is high now and was low at the previous tick (R104, R116). -/
def rising (lvl prev : Bool) : Bool := lvl && !prev

/-- The clock-edge indicator of a stream: a rising clock level gated by the enable level (R104). -/
def clockEdge (clk prev en : Bool) : Bool := rising clk prev && en

/-- `SigLevel(SIG[s])`: the bit sampled, high = 1, no inversion (R60, R116). -/
def sigLevel (s : State) (g : SigDesc) : Bool :=
  match g.place with
  | .port => (s.portOut.get g.kind g.chip).testBit g.bit
  | .mem k off => (s.c4Ram.read (c4RamCell g.chip k off)).toNat.testBit g.bit

/-- The levels of all signals, in order. -/
def sigLevels (s : State) : List Bool := s.cfg.sigs.map (sigLevel s)

/-- `pulse[s] <- lvl & ~latch[s]` for every signal (R116). -/
def pulsesOf (levels latch : List Bool) : List Bool :=
  levels.mapIdx (fun i lvl => rising lvl (latch.getD i false))

/-- `diag(code, info)`: append one record (R144). -/
def State.addDiag (s : State) (r : Diag) : State := { s with diag := s.diag ++ [r] }

/-- Append a record when a condition holds. -/
def State.addDiagIf (s : State) (b : Bool) (r : Diag) : State := if b then s.addDiag r else s

end Sys2Proof.Machine
end

