-- ==== Sys2Proof/Machine/Ops.lean ====
section
/-! DEFINITION. The operations every meaning is built from: when BBR serves an operation and when it refuses (R66),
responses (R50, R123), the chip contracts (R22 to R24), the fatal entry (R125, R148), and taking the next word. -/

namespace Sys2Proof.Machine

/-- The outcome of an operation. -/
abbrev Result := Host.Outcome State Fault Refusal

/-- Go on with the next state, if there is one. -/
def Result.andThen (o : Result) (k : State → Result) : Result :=
  match o with
  | .next s => k s
  | .fault r => .fault r
  | .refused r => .refused r

/-! ### When an operation is served -/

/-- Who issues an operation, and so when it may be served (R51 "issued by", R120). -/
inductive Context where
  /-- A CPU request of a family, or a sub-decode or micro-operation inside one. -/
  | request (f : Family)
  /-- A host command that a halted board refuses. -/
  | command
  /-- `RESET` and `SNAP`, which a halted board accepts too (R15). -/
  | commandWhileHalted
  /-- A micro-operation XO fires at a phase (R122). -/
  | micro (p : Phase)
  deriving DecidableEq, Repr

/-- Why BBR does not serve an operation now; `none` when it does (R15, R66, D39). -/
def State.refusal (s : State) : Context → Option Refusal
  | .request f =>
    if !s.cfg.ok then some .badConfig
    else if s.halted then some .halted
    else if s.cfg.family ≠ f then some .otherFamily
    else if s.phase ≠ .one then some .outsidePhaseOne
    else none
  | .command =>
    if !s.cfg.ok then some .badConfig
    else if s.halted then some .halted
    else if s.phase ≠ .between then some .duringTick
    else none
  | .commandWhileHalted =>
    if !s.cfg.ok then some .badConfig
    else if s.phase ≠ .between then some .duringTick
    else none
  | .micro p =>
    if !s.cfg.ok then some .badConfig
    else if s.halted then some .halted
    else if s.phase ≠ p then some .outOfPhase
    else none

/-- Serve the operation, or refuse it: then "the request has no meaning, nothing changes" (R66). -/
def gated (ctx : Context) (s : State) (served : Result) : Result :=
  match s.refusal ctx with
  | some r => .refused r
  | none => served

/-! ### Responses -/

/-- A response with status OK, given to the CPU agent too (R50, R123 `CPU.respond`). -/
def State.answer (s : State) (r : DataWord) : State :=
  { s with resp := .ok r, cpu := { s.cpu with heard := s.cpu.heard ++ [r] } }

/-- The response of a host command or of a sub-decode. -/
def State.reply (s : State) (r : Response) : State := { s with resp := r }

/-! ### The fatal condition -/

/-- Entry on F1 FATAL_ADDR (R125, R148): the request has no effect, the tick is abandoned with its phases, `halted <- 1`,
`key_in <- none`, the status is (FATAL, F1, info); nothing is saved and control goes nowhere.  `RESET` is the only way
out (R149, R164).  Log 6. -/
def State.takeFatal (s : State) (info : FatalInfo) : State :=
  { s with halted := true, keyIn := none, phase := .between, lines := .idle, resp := .fatal info }

/-! ### The chips -/

/-- `ChipRead(ROM, i, o)` on ARC (R22). -/
def State.arcRomRead (s : State) (i o : Nat) : BitVec 8 := s.arcRom.read (arcRomCell i o)

/-- `ChipRead(RAM, i, o)` on ARC (R23). -/
def State.arcRamRead (s : State) (i o : Nat) : BitVec 8 := s.arcRam.read (arcRamCell s.cfg i o)

/-- `ChipWrite(RAM, i, o, v)` on ARC (R23). -/
def State.arcRamWrite (s : State) (i o : Nat) (v : BitVec 8) : State :=
  { s with arcRam := s.arcRam.write (arcRamCell s.cfg i o) v }

/-- `ChipRead(ROM, i, o)` on C4 (R22). -/
def State.c4RomRead (s : State) (i o : Nat) : DataWord := s.c4Rom.read (c4RomCell s.cfg i o)

/-- `ChipRead(RAM, idx, (k, off))` on C4 (R23). -/
def State.c4RamRead (s : State) (idx : Nat) (k : CellKind) (off : BitVec 6) : BitVec 4 :=
  s.c4Ram.read (c4RamCell idx k off)

/-- `ChipWrite(RAM, idx, (k, off), v)` on C4 (R23). -/
def State.c4RamWrite (s : State) (idx : Nat) (k : CellKind) (off : BitVec 6) (v : BitVec 4) : State :=
  { s with c4Ram := s.c4Ram.write (c4RamCell idx k off) v }

/-- `PortWrite(kind, i, v)` (R24): all C4_PORT_W bits of the latch are written. -/
def State.portWrite (s : State) (k : ChipKind) (i : Nat) (v : BitVec 4) : State :=
  { s with portOut := s.portOut.set k i (portValue s.cfg v) }

/-- `PortRead(ROM, i)` as a CPU request calls it: the input port (R24). -/
def State.romPortRead (s : State) (i : Nat) : DataWord := BitVec.ofNat 14 (s.portIn.get .rom i)

/-- HP ROM chip `i` is selected when `rom_sel[i] = i` (R19, R22). -/
def State.selected (s : State) (i : Nat) : Bool := s.romSel[i]? == some i

/-- `ChipRead(ROM, i, addr)` on HP: the image word of a selected chip, else the all-zero word (R22). -/
def State.hpRomRead (s : State) (addr : BitVec 8) (i : Nat) : BitVec 10 :=
  if s.selected i then s.hpRom.read (hpCell i addr) else 0

/-- `WsRead(i, addr)`: the word-select data, with the same selection (R22, R95). -/
def State.hpWsRead (s : State) (addr : BitVec 8) (i : Nat) : BitVec 14 :=
  if s.selected i then s.hpWs.read (hpCell i addr) else 0

/-- Broadcast a bank number to every ROM chip, reduced modulo HP_N_ROM (R94). -/
def State.romSelect (s : State) (b : BitVec 3) : State :=
  { s with romSel := List.replicate s.cfg.hpNRom (b.toNat % s.cfg.hpNRom) }

/-! ### C4 RAM selection -/

/-- The bank lookup with its diagnostic: BAD_CM when `cm` is invalid (R74, R75, R145, R146). -/
def State.bankLookup (s : State) (cm : BitVec 3) : State := s.addDiagIf (bank cm).2 (.badCm cm)

/-- `RamIndex(cm, di)` (R75): the index, or `none` for DROP, and the state with the records it appends, BAD_CM before
UNPOPULATED. -/
def State.ramIndex (s : State) (cm : BitVec 3) (di : BitVec 8) (dir : AccessDir) : Option (BitVec 4) × State :=
  let idx := physIndex (chipSelect di) (bank cm).1
  let s1 := s.bankLookup cm
  if s.cfg.c4NRam ≤ idx.toNat then (none, s1.addDiag (.unpopulated idx dir)) else (some idx, s1)

/-! ### Taking the next word -/

/-- The phase in which an operation is issued (R51, R120, R122). -/
def issuePhase : Instr → Phase
  | .arcRd _ | .arcWr _ _ | .c4Romrd _ | .c4Ramrd _ _ _ | .c4Ramwr _ _ _ _ | .c4Rampw _ _ _ | .c4Rompr _
  | .c4Rompw _ _ | .hpFetch _ | .hpWsrd _ => .one
  | .tick | .inject _ | .reset | .loadrom _ _ | .rdpar | .snap => .between
  | .cpuStep => .one
  | .pccExtract => .two
  | .pccShift => .three
  | .sleUpdate => .four
  | .hpRomsel _ => .one
  | .arcAddrRom _ _ | .arcAddrRam _ | .arcAddrFatal01 _ | .arcAddrFatal10 _ | .arcAddrFatal11 _ => .one
  | .cm000 | .cm001 | .cm010 | .cm100 | .cm011 | .cm101 | .cm110 | .cm111 => .one

/-- The CPU agent's selector fields after it has issued a request: the current values it supplied (R17, R18, R121 (e)).
Log 5. -/
def CpuAgent.supply (a : CpuAgent) : Instr → CpuAgent
  | .c4Ramrd _ cm di => { a with cm := cm, di := di }
  | .c4Ramwr _ cm di _ => { a with cm := cm, di := di }
  | .c4Rampw cm di _ => { a with cm := cm, di := di }
  | .c4Rompr di => { a with di := di }
  | .c4Rompw di _ => { a with di := di }
  | .arcRd _ | .arcWr _ _ | .c4Romrd _ | .hpFetch _ | .hpWsrd _ | .tick | .inject _ | .reset | .loadrom _ _ | .rdpar
  | .snap | .cpuStep | .pccExtract | .pccShift | .sleUpdate | .hpRomsel _ | .arcAddrRom _ _ | .arcAddrRam _
  | .arcAddrFatal01 _ | .arcAddrFatal10 _ | .arcAddrFatal11 _ | .cm000 | .cm001 | .cm010 | .cm100 | .cm011 | .cm101
  | .cm110 | .cm111 => a

/-- The state in which an operation the agent issued is served. -/
def State.supply (s : State) (i : Instr) : State := { s with cpu := s.cpu.supply i }

/-- What the next word in the inbox is. -/
inductive Fetched where
  | idle
  | rejected (e : DecodeError)
  | run (i : Instr) (s : State)
  deriving DecidableEq, Repr

/-- Take the next word out of the inbox and decode it. -/
def State.fetch (s : State) : Fetched :=
  match s.inbox with
  | [] => .idle
  | e :: rest =>
    match decode s.cfg.romselPattern e with
    | .error r => .rejected r
    | .ok i => .run i (State.supply { s with inbox := rest } i)

end Sys2Proof.Machine
end

