-- ==== Sys2Proof/Machine/HostCmd.lean ====
section
/-! DEFINITION. The host commands outside a tick: `INJECT`, `SNAP` (44_board_driver.md R129, R131), `RESET`, `LOADROM`
(70_reset_and_hazards.md R160, R165). -/

namespace Sys2Proof.Machine

/-- `INJECT v` (R129): `key_in <- v`. -/
def execInject (v : BitVec 16) (s : State) : Result :=
  gated .command s (.next ({ s with keyIn := some v }.reply (.ok 0)))

/-- The shift registers that exist (R21, R111). -/
def State.srList (s : State) : List Nat := if s.cfg.nShift = 0 then [] else [s.srK, s.srA, s.srB]

/-- The snapshot (R131). -/
def State.snapshot (s : State) : Snapshot where
  portOut := s.portOut
  portIn := s.portIn
  sr := s.srList
  latch := s.latch
  pulse := s.pulse
  clkPrevK := s.clkPrevK
  clkPrevP := s.clkPrevP
  romSel := s.romSel
  keyIn := s.keyIn
  halted := s.halted

/-- `SNAP -> snapshot` (R131): it changes nothing. -/
def execSnap (s : State) : Result := gated .commandWhileHalted s (.next (s.reply (.snap s.snapshot)))

/-- The board back in the reset state (R27, R160): the ROM images, the word-select data, the configuration and the CPU
agent are kept (R160, R162), and so are the words the host has already presented. -/
def State.resetBoard (s : State) : State :=
  { State.create s.cfg with
    inbox := s.inbox
    arcRom := s.arcRom
    c4Rom := s.c4Rom
    hpRom := s.hpRom
    hpWs := s.hpWs
    cpu := s.cpu }

/-- `RESET` (R160); the only way out of `halted` (R164). -/
def execReset (s : State) : Result := gated .commandWhileHalted s (.next s.resetBoard)

/-- `rom[i] <- Unpack(padded)` for the board's family (R165, R166, R169). -/
def State.installRom (s : State) (i : Nat) (blob : List Byte) : State :=
  match s.cfg.family with
  | .arc => { s with arcRom := s.arcRom.install (arcRomCell i 0) Config.arcRomLen blob }
  | .c4 => { s with c4Rom := s.c4Rom.install (c4RomCell s.cfg i 0) s.cfg.c4RomLen (c4UnpackWords s.cfg blob) }
  | .hp => { s with hpRom := s.hpRom.install (hpCell i 0) Config.hpRomWords (hpUnpackWords blob) }

/-- `LOADROM i, blob -> status` (R165): the index check first, then the size (R167: ERROR X1 and nothing changes). -/
def execLoadrom (i : BitVec 8) (blob : List Byte) (s : State) : Result :=
  gated .command s <|
    if s.cfg.nRom ≤ i.toNat then .refused .noSuchChip
    else if s.cfg.romCapacity < blob.length then .next (s.reply (.error i blob.length))
    else .next ((s.installRom i.toNat blob).reply (.ok 0))

end Sys2Proof.Machine
end

