-- ==== Sys2Proof/Machine/Arc.lean ====
section
/-! DEFINITION. The ARC family: `ARC.RD`, `ARC.WR` (40_address_decode.md R72, R73) and the ARC address classes
(R52, R71). -/

namespace Sys2Proof.Machine

/-- `ARC.RD addr -> word` (R72). -/
def execArcRd (addr : BitVec 16) (s : State) : Result :=
  gated (.request .arc) s <|
    match flatDecode s.cfg addr with
    | .fatal => .next (s.takeFatal (.read addr))
    | .rom i o => .next (s.answer ((s.arcRomRead i o).setWidth 14))
    | .ram i o => .next (s.answer ((s.arcRamRead i o).setWidth 14))

/-- `ARC.WR addr, v` (R73): a write into ROM is discarded with the diagnostic ROM_WRITE (R142). -/
def execArcWr (addr : BitVec 16) (v : BitVec 8) (s : State) : Result :=
  gated (.request .arc) s <|
    match flatDecode s.cfg addr with
    | .fatal => .next (s.takeFatal (.write addr v))
    | .rom _ _ => .next ((s.addDiag (.romWrite addr v)).answer 0)
    | .ram i o => .next ((s.arcRamWrite i o v).answer 0)

/-- A sub-decode of an ARC request yields its FlatDecode outcome (R71).  Raising F1 is the request's own
(R141: "No other operation of any family can raise a fatal condition"; its record needs the direction).  Log 9. -/
def arcSubDecode (s : State) (t : Target) : Result := gated (.request .arc) s (.next (s.reply (.target t)))

/-- `ARC.ADDR.ROM`: `addr[12:11]` is the chip index, `addr[10:0]` the chip offset (R52). -/
def execArcAddrRom (chip : BitVec 2) (offset : BitVec 11) (s : State) : Result :=
  arcSubDecode s (.rom chip.toNat offset.toNat)

/-- `ARC.ADDR.RAM`: `addr[12:0]` is the region-relative address r; chip `r / ARC_RAM_LEN`, offset `r % ARC_RAM_LEN`
(R52). -/
def execArcAddrRam (r : BitVec 13) (s : State) : Result :=
  arcSubDecode s (.ram (r.toNat / s.cfg.arcRamLen) (r.toNat % s.cfg.arcRamLen))

/-- `ARC.ADDR.FATAL.01`: no target (R52, R71). -/
def execArcAddrFatal01 (_x : BitVec 14) (s : State) : Result := arcSubDecode s .fatal

/-- `ARC.ADDR.FATAL.10`: no target (R52, R71). -/
def execArcAddrFatal10 (_x : BitVec 14) (s : State) : Result := arcSubDecode s .fatal

/-- `ARC.ADDR.FATAL.11`: no target (R52, R71). -/
def execArcAddrFatal11 (_x : BitVec 14) (s : State) : Result := arcSubDecode s .fatal

end Sys2Proof.Machine
end

