-- ==== Sys2Proof/Machine/C4.lean ====
section
/-! DEFINITION. The C4 family: ROM and RAM accesses and port operations (40_address_decode.md R76 to R82) and the eight
command-control encodings (R54, R74). -/

namespace Sys2Proof.Machine

/-- `C4.ROMRD addr -> word` (R80). -/
def execC4Romrd (addr : BitVec 12) (s : State) : Result :=
  gated (.request .c4) s <|
    let (i, o) := wrapDecode addr.toNat s.cfg.c4RomLen s.cfg.c4NRom
    .next (s.answer (s.c4RomRead i o))

/-- `C4.RAMRD k, cm, di -> word` (R76): a dropped read answers 0. -/
def execC4Ramrd (k : CellKind) (cm : BitVec 3) (di : BitVec 8) (s : State) : Result :=
  gated (.request .c4) s <|
    match s.ramIndex cm di .read with
    | (none, s1) => .next (s1.answer 0)
    | (some idx, s1) => .next (s1.answer ((s1.c4RamRead idx.toNat k (localOffset di)).setWidth 14))

/-- `C4.RAMWR k, cm, di, v` (R77): a dropped write is a no-op. -/
def execC4Ramwr (k : CellKind) (cm : BitVec 3) (di : BitVec 8) (v : BitVec 4) (s : State) : Result :=
  gated (.request .c4) s <|
    match s.ramIndex cm di .write with
    | (none, s1) => .next (s1.answer 0)
    | (some idx, s1) => .next ((s1.c4RamWrite idx.toNat k (localOffset di) v).answer 0)

/-- `C4.RAMPW cm, di, v` (R78): the output port latch of the RAM chip; `di[5:0]` is ignored. -/
def execC4Rampw (cm : BitVec 3) (di : BitVec 8) (v : BitVec 4) (s : State) : Result :=
  gated (.request .c4) s <|
    match s.ramIndex cm di .portWrite with
    | (none, s1) => .next (s1.answer 0)
    | (some idx, s1) => .next ((s1.portWrite .ram idx.toNat v).answer 0)

/-- `C4.ROMPR di -> value` (R81): the input port of the ROM chip; `di[3:0]` is ignored. -/
def execC4Rompr (di : BitVec 8) (s : State) : Result :=
  gated (.request .c4) s (.next (s.answer (s.romPortRead (romPortChip s.cfg di))))

/-- `C4.ROMPW di, v` (R82): the output port latch of the ROM chip; `di[3:0]` is ignored. -/
def execC4Rompw (di : BitVec 8) (v : BitVec 4) (s : State) : Result :=
  gated (.request .c4) s (.next ((s.portWrite .rom (romPortChip s.cfg di) v).answer 0))

/-- A sub-decode of a command-control value yields `Bank(cm)` and, when the encoding is invalid, appends BAD_CM
(R74, R146 "the bank lookup (BAD_CM)").  Log 9. -/
def cmSubDecode (s : State) (cm : BitVec 3) : Result :=
  gated (.request .c4) s (.next ((s.bankLookup cm).reply (.bank (bank cm).1 (bank cm).2)))

/-- `CM.000` (R54, R74). -/
def execCm000 (s : State) : Result := cmSubDecode s 0b000

/-- `CM.001` (R54, R74). -/
def execCm001 (s : State) : Result := cmSubDecode s 0b001

/-- `CM.010` (R54, R74). -/
def execCm010 (s : State) : Result := cmSubDecode s 0b010

/-- `CM.100` (R54, R74). -/
def execCm100 (s : State) : Result := cmSubDecode s 0b100

/-- `CM.011`: invalid, bank 0 and BAD_CM (R54, R74). -/
def execCm011 (s : State) : Result := cmSubDecode s 0b011

/-- `CM.101`: invalid, bank 0 and BAD_CM (R54, R74). -/
def execCm101 (s : State) : Result := cmSubDecode s 0b101

/-- `CM.110`: invalid, bank 0 and BAD_CM (R54, R74). -/
def execCm110 (s : State) : Result := cmSubDecode s 0b110

/-- `CM.111`: invalid, bank 0 and BAD_CM (R54, R74). -/
def execCm111 (s : State) : Result := cmSubDecode s 0b111

end Sys2Proof.Machine
end

