-- ==== Sys2Proof/Machine/Hp.lean ====
section
/-! DEFINITION. The HP family: `HP.FETCH`, `HP.ROMSEL`, `HP.WSRD` (41_bus_merge.md R93 to R95). -/

namespace Sys2Proof.Machine

/-- The merged opcode: the OR over all HP_N_ROM chips (R90, R93). -/
def State.hpMergedOpcode (s : State) (addr : BitVec 8) : BitVec 10 := merge s.cfg.hpNRom (s.hpRomRead addr)

/-- The merged word-select data (R90, R95). -/
def State.hpMergedWs (s : State) (addr : BitVec 8) : BitVec 14 := merge s.cfg.hpNRom (s.hpWsRead addr)

/-- The bank-select detection on the merged word (R57, R93). -/
def State.isRomSelect (s : State) (w : BitVec 10) : Bool :=
  s.cfg.romselEn && decide (slice w 0 7 = s.cfg.romselPattern)

/-- `HP.FETCH addr -> opcode` (R93): the detection runs after the merge and before the opcode is returned. -/
def execHpFetch (addr : BitVec 8) (s : State) : Result :=
  gated (.request .hp) s <|
    let w := s.hpMergedOpcode addr
    let s1 := if s.isRomSelect w then s.romSelect (slice w 7 3) else s
    .next (s1.answer (w.setWidth 14))

/-- `HP.ROMSEL b` (R94): every `rom_sel[i]` becomes `b % HP_N_ROM`. -/
def execHpRomsel (b : BitVec 3) (s : State) : Result := gated (.request .hp) s (.next (s.romSelect b))

/-- `HP.WSRD addr -> ws` (R95). -/
def execHpWsrd (addr : BitVec 8) (s : State) : Result :=
  gated (.request .hp) s (.next (s.answer (s.hpMergedWs addr)))

end Sys2Proof.Machine
end

