-- ==== Sys2Proof/Machine/Pcc.lean ====
section
/-! DEFINITION. The peripheral chain controller: `PCC.EXTRACT`, `PCC.SHIFT`, `RDPAR` (42_peripheral_chain.md R103, R104,
R106). -/

namespace Sys2Proof.Machine

/-- The six levels, sampled from the output port latches (R102, R103). -/
def State.sampleLines (s : State) : LineLevels where
  kclk := level s.portOut s.cfg.lKclk
  kdat := level s.portOut s.cfg.lKdat
  ken := enableLevel s.portOut s.cfg.lKen
  pclk := level s.portOut s.cfg.lPclk
  pdat := level s.portOut s.cfg.lPdat
  pen := enableLevel s.portOut s.cfg.lPen

/-- One shift of the keyboard register and of the chained pair with the levels in `lines` (R104): the pair shares one
indicator, and B's data-in is the old bit N-1 of A (R108).  The levels end with phase 3 (R103). -/
def State.shiftChain (s : State) : State :=
  let n := s.cfg.shiftW
  let kedge := clockEdge s.lines.kclk s.clkPrevK s.lines.ken
  let pedge := clockEdge s.lines.pclk s.clkPrevP s.lines.pen
  { s with
    clkPrevK := s.lines.kclk
    clkPrevP := s.lines.pclk
    srK := shifted n kedge s.lines.kdat s.srK
    srA := shifted n pedge s.lines.pdat s.srA
    srB := shifted n pedge (shiftOut n s.srA) s.srB
    lines := .idle }

/-- `PCC.EXTRACT` (R103); nothing on a board without a chain (R111). -/
def execPccExtract (s : State) : Result :=
  gated (.micro .two) s (.next (if s.cfg.nShift = 0 then s else { s with lines := s.sampleLines }))

/-- `PCC.SHIFT` (R104); nothing on a board without a chain (R111). -/
def execPccShift (s : State) : Result :=
  gated (.micro .three) s (.next (if s.cfg.nShift = 0 then s else s.shiftChain))

/-- The combined printer value `sr[SR_A] | (sr[SR_B] << N)` (R63, R106); 0 without a chain (R111). -/
def State.par (s : State) : Nat := if s.cfg.nShift = 0 then 0 else s.srA ||| (s.srB <<< s.cfg.shiftW)

/-- `RDPAR -> par` (R106). -/
def execRdpar (s : State) : Result := gated .command s (.next (s.reply (.par s.par)))

end Sys2Proof.Machine
end

