-- ==== Sys2Proof/Machine/Sle.lean ====
section
/-! DEFINITION. The signal latch extractor: `SLE.UPDATE` (43_signal_latch.md R116). -/

namespace Sys2Proof.Machine

/-- Every signal's latch becomes its level and its pulse the rising of that level (R116). -/
def State.updateLatches (s : State) : State :=
  { s with latch := sigLevels s, pulse := pulsesOf (sigLevels s) s.latch }

/-- `SLE.UPDATE` (R116). -/
def execSleUpdate (s : State) : Result := gated (.micro .four) s (.next s.updateLatches)

end Sys2Proof.Machine
end

