-- ==== Sys2Proof/Machine/Xo.lean ====
section
/-! DEFINITION. The execution orchestrator: serving the CPU agent's requests, `CPU.STEP` and `TICK` (44_board_driver.md
R122 to R125), and the presentation of the injected key (R129). -/

namespace Sys2Proof.Machine

/-- `serve(q)` (R123): the rule of the request's row of R51.  The CPU agent issues op 0x0 to 0x9 only; a host command in
its place is a host command during a tick (R66), and the rest have no request word. -/
def serve (i : Instr) (s : State) : Result :=
  match i with
  | .arcRd addr => execArcRd addr s
  | .arcWr addr v => execArcWr addr v s
  | .c4Romrd addr => execC4Romrd addr s
  | .c4Ramrd k cm di => execC4Ramrd k cm di s
  | .c4Ramwr k cm di v => execC4Ramwr k cm di v s
  | .c4Rampw cm di v => execC4Rampw cm di v s
  | .c4Rompr di => execC4Rompr di s
  | .c4Rompw di v => execC4Rompw di v s
  | .hpFetch addr => execHpFetch addr s
  | .hpWsrd addr => execHpWsrd addr s
  | .tick | .inject _ | .reset | .loadrom _ _ | .rdpar | .snap => .refused .duringTick
  | .cpuStep | .pccExtract | .pccShift | .sleUpdate | .hpRomsel _ | .arcAddrRom _ _ | .arcAddrRam _
  | .arcAddrFatal01 _ | .arcAddrFatal10 _ | .arcAddrFatal11 _ | .cm000 | .cm001 | .cm010 | .cm100 | .cm011 | .cm101
  | .cm110 | .cm111 => .refused .outOfPhase

/-- One request of the CPU agent: decode its word and serve it (R50, R123). -/
def serveRequest (q : Req) (s : State) : Result :=
  match decodeReq q with
  | .error e => .refused (.malformed e)
  | .ok i => serve i (s.supply i)

/-- The CPU agent with what it will do next.  Log 4. -/
def State.withPlan (s : State) (p : CpuPlan) : State := { s with cpu := { s.cpu with plan := p } }

/-- The state as the agent's step begins: no response heard yet. -/
def State.beginStep (s : State) : State := { s with cpu := { s.cpu with heard := [] } }

/-- The latest response the agent was given in its step was `r` (R121 (c)). -/
def State.lastHeard (s : State) (r : DataWord) : Bool := s.cpu.heard.getLast? == some r

/-- The loop of `CPU.STEP` (R123): the requests in the order issued, each complete before the next and each chosen by
the responses before it, until the step returns or a request is fatal (R125: "no later request is served"). -/
def servePlan : CpuPlan → State → Result
  | .idle, s => .next (s.withPlan .idle)
  | .done p, s => .next (s.withPlan p)
  | .ask q p, s => Result.andThen (serveRequest q s) (fun t => if t.halted then .next (t.withPlan p) else servePlan p t)
  | .whenHeard r yes no, s => if s.lastHeard r then servePlan yes s else servePlan no s

/-- `CPU.STEP` (R123): phase 1 of a tick. -/
def execCpuStep (s : State) : Result := gated (.micro .one) s (servePlan s.cpu.plan s.beginStep)

/-- `KeyPortFn(key_in, sr[SR_K])` (R129), a value of C4_PORT_W bits: by default the low bits of the value, 0 when there
is none; otherwise free (log 12). -/
def State.keyPortValue (s : State) : Nat :=
  match s.cfg.keyFn with
  | .rawPortMask =>
    match s.keyIn with
    | none => 0
    | some v => trunc s.cfg.c4PortW v.toNat
  | .wired n => trunc s.cfg.c4PortW (Config.keyPortFn n s.keyIn s.srK)

/-- "present key" (R129). -/
def State.presentKey (s : State) : State :=
  match s.cfg.keyPort with
  | none => s
  | some (k, i) => { s with portIn := s.portIn.set k i s.keyPortValue }

/-- XO enters a phase (R12, R122). -/
def State.enter (s : State) (p : Phase) : State := { s with phase := p }

/-- The end of a completed tick (R122): `key_in <- none`, status OK. -/
def State.endTick (s : State) : State := { s with phase := .between, keyIn := none, resp := .ok 0 }

/-- Phases 2, 3 and 4 of a tick, in order, and its end (R122). -/
def phasesTwoToFour (s : State) : Result :=
  Result.andThen (execPccExtract (s.enter .two)) fun s2 =>
    Result.andThen (execPccShift (s2.enter .three)) fun s3 =>
      Result.andThen (execSleUpdate (s3.enter .four)) fun s4 =>
        .next s4.endTick

/-- `TICK -> status` (R122): the key, phase 1, then phases 2 to 4 unless phase 1 ended in the fatal abort (R125). -/
def execTick (s : State) : Result :=
  gated .command s <|
    Result.andThen (execCpuStep (s.presentKey.enter .one)) fun s1 =>
      if s1.halted then .next s1 else phasesTwoToFour s1

end Sys2Proof.Machine
end

