-- ==== Sys2Proof/Machine/Dispatch.lean ====
section
/-! DEFINITION. One arm for every row of spec/opcode_table.json. -/

namespace Sys2Proof.Machine

def exec (i : Instr) (s : State) : Host.Outcome State Fault Refusal :=
  match i with
  | .arcRd addr => Sys2Proof.Machine.execArcRd addr s
  | .arcWr addr v => Sys2Proof.Machine.execArcWr addr v s
  | .c4Romrd addr => Sys2Proof.Machine.execC4Romrd addr s
  | .c4Ramrd k cm di => Sys2Proof.Machine.execC4Ramrd k cm di s
  | .c4Ramwr k cm di v => Sys2Proof.Machine.execC4Ramwr k cm di v s
  | .c4Rampw cm di v => Sys2Proof.Machine.execC4Rampw cm di v s
  | .c4Rompr di => Sys2Proof.Machine.execC4Rompr di s
  | .c4Rompw di v => Sys2Proof.Machine.execC4Rompw di v s
  | .hpFetch addr => Sys2Proof.Machine.execHpFetch addr s
  | .hpWsrd addr => Sys2Proof.Machine.execHpWsrd addr s
  | .tick => Sys2Proof.Machine.execTick s
  | .inject v => Sys2Proof.Machine.execInject v s
  | .reset => Sys2Proof.Machine.execReset s
  | .loadrom n blob => Sys2Proof.Machine.execLoadrom n blob s
  | .rdpar => Sys2Proof.Machine.execRdpar s
  | .snap => Sys2Proof.Machine.execSnap s
  | .cpuStep => Sys2Proof.Machine.execCpuStep s
  | .pccExtract => Sys2Proof.Machine.execPccExtract s
  | .pccShift => Sys2Proof.Machine.execPccShift s
  | .sleUpdate => Sys2Proof.Machine.execSleUpdate s
  | .hpRomsel b => Sys2Proof.Machine.execHpRomsel b s
  | .arcAddrRom chip offset => Sys2Proof.Machine.execArcAddrRom chip offset s
  | .arcAddrRam r => Sys2Proof.Machine.execArcAddrRam r s
  | .arcAddrFatal01 x => Sys2Proof.Machine.execArcAddrFatal01 x s
  | .arcAddrFatal10 x => Sys2Proof.Machine.execArcAddrFatal10 x s
  | .arcAddrFatal11 x => Sys2Proof.Machine.execArcAddrFatal11 x s
  | .cm000 => Sys2Proof.Machine.execCm000 s
  | .cm001 => Sys2Proof.Machine.execCm001 s
  | .cm010 => Sys2Proof.Machine.execCm010 s
  | .cm100 => Sys2Proof.Machine.execCm100 s
  | .cm011 => Sys2Proof.Machine.execCm011 s
  | .cm101 => Sys2Proof.Machine.execCm101 s
  | .cm110 => Sys2Proof.Machine.execCm110 s
  | .cm111 => Sys2Proof.Machine.execCm111 s

end Sys2Proof.Machine
end

