-- ==== Sys2Proof/Machine/Place.lean ====
section
/-! DEFINITION. Placing one word so that the very next step runs it: what `State.withFetchWord` needs (log 18). -/

namespace Sys2Proof.Machine

/-- The board a word of a family runs on: the present one, or a newly created board of that family. -/
def State.boardFor (s : State) (i : Instr) : State :=
  if i.familyOk s.cfg then s
  else
    match i.family with
    | none => s
    | some f => State.create (Config.board f)

/-- Present the word `e` of the instruction `i` alone, at the phase in which `i` is issued. -/
def State.place (s : State) (i : Instr) (e : Encoded) : State :=
  { s.boardFor i with inbox := [e], phase := issuePhase i }

/-- Present a table word (R50, R64); a number that is no word of the table is presented as a word the decoder
rejects. -/
def State.placeTableWord (s : State) (nbits w : Nat) : State :=
  match presented nbits w with
  | none => { s with inbox := [.phase 0] }
  | some e =>
    match decode Config.c4Board.romselPattern e with
    | .ok i => s.place i e
    | .error _ => { s with inbox := [e] }

end Sys2Proof.Machine
end

