-- ==== Sys2Proof/Safety.lean ====
section
/-! DEFINITION. What a safe run is, in the terms claims use: "every claim takes `halted = 0` throughout as a premise"
(R148), and the invariant that rules out states no board can be in. -/

namespace Sys2Proof.Machine

/-- Of a state in which `halted = 1` only that may be claimed (R148, U1). -/
abbrev State.usable (s : State) : Prop := s.halted = false

/-- BBR serves the requests of a family: inside phase 1 of a tick of a board of that family, not halted (R51, R66). -/
structure State.Serving (s : State) (f : Family) : Prop where
  config : s.cfg.ok = true
  usable : s.halted = false
  family : s.cfg.family = f
  phase : s.phase = .one

/-- BBR takes the host's commands: between ticks, not halted (R50, R66). -/
structure State.Ready (s : State) : Prop where
  config : s.cfg.ok = true
  usable : s.halted = false
  phase : s.phase = .between

/-- XO is at a phase of a tick (R122). -/
structure State.AtPhase (s : State) (p : Phase) : Prop where
  config : s.cfg.ok = true
  usable : s.halted = false
  phase : s.phase = p

/-- Whatever the responses, every request of the agent's next step decodes to an operation with the property `P`. -/
def CpuPlan.stepAsks (P : Instr → Prop) : CpuPlan → Prop
  | .idle => True
  | .done _ => True
  | .ask q p => (∃ i, decodeReq q = .ok i ∧ P i) ∧ CpuPlan.stepAsks P p
  | .whenHeard _ yes no => CpuPlan.stepAsks P yes ∧ CpuPlan.stepAsks P no

/-- Every request of the next step is well formed for the board's family (R121 (b)). -/
def CpuPlan.wellFormed (c : Config) (p : CpuPlan) : Prop :=
  p.stepAsks fun i => i.isRequest = true ∧ i.familyOk c = true

/-- The next step issues exactly one `HP.FETCH`, as its first request; what follows it are `HP.WSRD`s, the only other
requests HP has (R121 (d)). -/
def CpuPlan.oneFetchFirst : CpuPlan → Prop
  | .idle => False
  | .done _ => False
  | .ask q p => (∃ a, decodeReq q = .ok (.hpFetch a)) ∧ p.stepAsks fun i => ∃ a, i = .hpWsrd a
  | .whenHeard _ yes no => CpuPlan.oneFetchFirst yes ∧ CpuPlan.oneFetchFirst no

/-- The agent's next step meets its contract, R121 (b) and (d).  (a) and (c) hold of every plan, and (e) is how the
requests carry CM and DI. -/
structure CpuPlan.Conforms (c : Config) (p : CpuPlan) : Prop where
  wellFormed : p.wellFormed c
  fetch : c.family = .hp → p.oneFetchFirst

/-- A run of `n` steps from `s` that answers a next state every time and stays usable throughout (R148). -/
def safeRun : Nat → State → Prop
  | 0, s => s.usable
  | n + 1, s => s.usable ∧ ∃ t, step s = .next t ∧ safeRun n t

/-- Every ROM chip holds the same bank number, one that names a chip (R19: `rom_sel[i] = rom_sel[j]` for all i, j);
on the other families there is none. -/
def State.lockstep (s : State) : Prop :=
  match s.cfg.family with
  | .hp => ∃ b, b < s.cfg.hpNRom ∧ s.romSel = List.replicate s.cfg.hpNRom b
  | .arc => s.romSel = []
  | .c4 => s.romSel = []

/-- As many ports as chips, each a value of C4_PORT_W bits (R24). -/
structure Ports.Sound (c : Config) (p : Ports) : Prop where
  romLength : p.rom.length = c.nPorts .rom
  ramLength : p.ram.length = c.nPorts .ram
  romFits : ∀ v ∈ p.rom, v < 2 ^ c.c4PortW
  ramFits : ∀ v ∈ p.ram, v < 2 ^ c.c4PortW

/-- Every memory in its canonical form, with words of the chips that exist only (R22, R23). -/
structure State.MemorySound (s : State) : Prop where
  arcRom : s.arcRom.wf = true
  arcRomBelow : s.arcRom.below (Config.arcNRom * Config.arcRomLen) = true
  c4Rom : s.c4Rom.wf = true
  c4RomBelow : s.c4Rom.below (s.cfg.c4NRom * s.cfg.c4RomLen) = true
  c4RomFits : s.c4Rom.fits s.cfg.c4RomW = true
  hpRom : s.hpRom.wf = true
  hpRomBelow : s.hpRom.below (s.cfg.hpNRom * Config.hpRomWords) = true
  hpWs : s.hpWs.wf = true
  hpWsBelow : s.hpWs.below (s.cfg.hpNRom * Config.hpRomWords) = true
  arcRam : s.arcRam.wf = true
  arcRamBelow : s.arcRam.below 0x2000 = true
  c4Ram : s.c4Ram.wf = true
  c4RamBelow : s.c4Ram.below (s.cfg.c4NRam * Config.c4RamCells) = true

/-- The shift registers hold values of SHIFT_W bits (R21); without a chain they hold nothing (R111). -/
structure State.ChainSound (s : State) : Prop where
  srK : s.srK < 2 ^ s.cfg.shiftW
  srA : s.srA < 2 ^ s.cfg.shiftW
  srB : s.srB < 2 ^ s.cfg.shiftW
  absent : s.cfg.nShift = 0 → s.srK = 0 ∧ s.srA = 0 ∧ s.srB = 0 ∧ s.clkPrevK = false ∧ s.clkPrevP = false

/-- The invariant of a board: the configuration is one the rules serve, every list has as many entries as the board has
signals, chips and ports, every value has its width, the memories are canonical, the bank selects agree, a halted
board is between ticks, and no sampled level outlives its tick (R26, R103). -/
structure State.Inv (s : State) : Prop where
  config : s.cfg.ok = true
  latches : s.latch.length = s.cfg.nSig ∧ s.pulse.length = s.cfg.nSig
  selects : s.lockstep
  outs : s.portOut.Sound s.cfg
  ins : s.portIn.Sound s.cfg
  memory : s.MemorySound
  chain : s.ChainSound
  haltedBetween : s.halted = true → s.phase = .between
  linesIdle : s.phase = .between → s.lines = .idle

end Sys2Proof.Machine
end

