-- ==== Sys2Proof/Certificates/Slice0/Obligations.lean ====
section
/-! DEFINITION. The statements for the provers.  Each docstring names the rule of spec/ it formalises; a clause that
rests on the model's own choice names its log entry. -/

open Sys2Proof Sys2Proof.Machine

/-! ### What the statements are written with -/

/-- `s` after a served request has answered `v`: the response is `v` with status OK and the CPU agent has it too (R50,
R123); nothing else differs. -/
def spoken (s : State) (v : DataWord) : State :=
  { s with resp := .ok v, cpu := { s.cpu with heard := s.cpu.heard ++ [v] } }

/-- `s` after a host command that returns nothing has completed: status OK (R50); nothing else differs. -/
def acknowledged (s : State) : State := { s with resp := .ok 0 }

/-- The bank of each of the eight values of CM, as the table of R54 lists them. -/
def bankTable : List Nat := [0, 1, 2, 0, 3, 0, 0, 0]

/-- The bank a value of CM names (R54). -/
def bankOf (cm : BitVec 3) : Nat := bankTable.getD cm.toNat 0

/-- The physical RAM chip index `cs + 4 * bank` (R56, R62). -/
def chipIndex (cm : BitVec 3) (di : BitVec 8) : Nat := di.toNat / 64 + 4 * bankOf cm

/-- The BAD_CM record, for the four invalid encodings (R145). -/
def badCmRecord (cm : BitVec 3) : List Diag :=
  if cm = 0b000 ∨ cm = 0b001 ∨ cm = 0b010 ∨ cm = 0b100 then [] else [.badCm cm]

/-- The UNPOPULATED record, when no chip is at the index (R143). -/
def unpopulatedRecord (c : Config) (cm : BitVec 3) (di : BitVec 8) (dir : AccessDir) : List Diag :=
  if c.c4NRam ≤ chipIndex cm di then [.unpopulated (BitVec.ofNat 4 (chipIndex cm di)) dir] else []

/-- The cell number of `(k, di[5:0])` in RAM chip `cs + 4 * bank` of the reference chip (R23, D7). -/
def ramCellOf (k : CellKind) (cm : BitVec 3) (di : BitVec 8) : Nat :=
  chipIndex cm di * 128 + (if k = .char then 0 else 64) + di.toNat % 64

/-- The bit of a port: bit `b` of the latch of chip `i`. -/
def portBit (p : Ports) (k : ChipKind) (i b : Nat) : Bool :=
  match k with
  | .rom => (p.rom.getD i 0).testBit b
  | .ram => (p.ram.getD i 0).testBit b

/-- The logical level of a control line (R59). -/
def lineLevel (p : Ports) (l : LineDesc) : Bool := xor (portBit p l.kind l.chip l.bit) l.activeLow

/-- The logical level of an enable line (R59: `Level(none)` = 1). -/
def enableLineLevel (p : Ports) : Option LineDesc → Bool
  | none => true
  | some l => lineLevel p l

/-- The level of a signal (R60, R116). -/
def signalLevel (p : Ports) (m : Memory 4) (g : SigDesc) : Bool :=
  match g.place with
  | .port => portBit p g.kind g.chip g.bit
  | .mem k off => (m.read (g.chip * 128 + (if k = .char then 0 else 64) + off.toNat)).toNat.testBit g.bit

/-! ### Reset -/

/-- R160: `RESET`, also on a halted board, puts every piece of the board's state at its reset value and keeps the ROM
images, the word-select data and the configuration; a newly created board is in the reset state. -/
def Obligations.ResetCommandRestoresTheResetTable : Prop :=
  (∀ s : State, s.cfg.ok = true → s.phase = .between →
    ∃ t, exec .reset s = .next t ∧ t.phase = .between ∧
      t.latch = List.replicate s.cfg.sigs.length false ∧ t.pulse = List.replicate s.cfg.sigs.length false ∧
      t.halted = false ∧ t.diag = [] ∧ t.keyIn = none ∧ t.clkPrevK = false ∧ t.clkPrevP = false ∧
      t.srK = 0 ∧ t.srA = 0 ∧ t.srB = 0 ∧
      (s.cfg.family = .arc → t.arcRam = s.cfg.arcRamInit) ∧ (s.cfg.family = .c4 → t.c4Ram = s.cfg.c4RamInit) ∧
      (s.cfg.family = .c4 →
        t.portOut = ⟨List.replicate s.cfg.c4NRom 0, List.replicate s.cfg.c4NRam 0⟩ ∧
        t.portIn = ⟨List.replicate s.cfg.c4NRom 0, List.replicate s.cfg.c4NRam 0⟩) ∧
      (s.cfg.family = .hp → t.romSel = List.replicate s.cfg.hpNRom 0) ∧
      t.arcRom = s.arcRom ∧ t.c4Rom = s.c4Rom ∧ t.hpRom = s.hpRom ∧ t.hpWs = s.hpWs ∧ t.cfg = s.cfg) ∧
  ∀ c : Config, c.ok = true → exec .reset (State.create c) = .next (State.create c)

/-- What `RESET` does to the rest of State: the board is between ticks (R12), the CPU agent keeps its state (R162:
"BBR neither sets nor reads it at reset"), the response is OK with word 0 (R50), and the model's own fields: the words
already presented stay (log 18), no level is sampled (log 8).  The last two are the model's choices. -/
def Obligations.ResetLeavesTheAgentAndTheInbox : Prop :=
  ∀ s : State, s.cfg.ok = true → s.phase = .between →
    ∃ t, exec .reset s = .next t ∧ t.phase = .between ∧ t.cpu = s.cpu ∧ t.inbox = s.inbox ∧ t.resp = .ok 0 ∧
      t.lines = .idle

/-- R27, R166: a newly created board is not halted and idle, every word of every ROM image and of the word-select data is
zero, every word of RAM is that of RAM_INIT, every HP ROM chip selects bank 0.  The machine's own reset state is the
newly created C4 board of log 2: the model's choice. -/
def Obligations.NewBoardIsInTheResetState : Prop :=
  (∀ c : Config, c.ok = true →
    (State.create c).halted = false ∧ (State.create c).phase = .between ∧ (State.create c).diag = [] ∧
    (∀ a, (State.create c).arcRom.read a = 0 ∧ (State.create c).c4Rom.read a = 0 ∧
      (State.create c).hpRom.read a = 0 ∧ (State.create c).hpWs.read a = 0) ∧
    (c.family = .arc → ∀ a, (State.create c).arcRam.read a = c.arcRamInit.read a) ∧
    (c.family = .c4 → ∀ a, (State.create c).c4Ram.read a = c.c4RamInit.read a) ∧
    (c.family = .hp → ∀ i, i < c.hpNRom → (State.create c).romSel[i]? = some 0)) ∧
  State.reset = State.create Config.c4Board ∧ Config.c4Board.ok = true

/-- Every newly created board of a configuration the rules serve meets the invariant, the machine's reset state among
them. -/
def Obligations.NewBoardMeetsTheBoardConditions : Prop :=
  (∀ c : Config, c.ok = true → (State.create c).Inv) ∧ State.reset.Inv

/-- From every state that meets the invariant (the configuration is served, every list has the board's lengths, every
value its width, the memories are canonical, the bank selects agree, a halted board is between ticks), a step that
answers a next state gives a state that meets it. -/
def Obligations.EveryStepKeepsTheBoardConditions : Prop :=
  ∀ s t : State, s.Inv → step s = .next t → t.Inv

/-! ### ARC -/

/-- R72: `ARC.RD` answers the word at the address, zero-extended, and changes nothing else; at 0x4000 and above it raises
F1.  The cells of the ROM chips in a row are the addresses of the ROM region, those of the RAM chips the
region-relative addresses of the RAM region, for every split of the RAM region into chips (N5). -/
def Obligations.ArcReadAnswersTheAddressedWord : Prop :=
  ∀ (a : BitVec 16) (s : State), s.Serving .arc →
    (a.toNat < 0x2000 → exec (.arcRd a) s = .next (spoken s ((s.arcRom.read a.toNat).setWidth 14))) ∧
    (0x2000 ≤ a.toNat → a.toNat < 0x4000 →
      exec (.arcRd a) s = .next (spoken s ((s.arcRam.read (a.toNat - 0x2000)).setWidth 14))) ∧
    (0x4000 ≤ a.toNat → ∃ t, exec (.arcRd a) s = .next t ∧ t.halted = true ∧ t.resp = .fatal (.read a))

/-- R73, R142: `ARC.WR` stores into RAM exactly one word and leaves every other; into ROM it is discarded with one record
W1 and changes nothing else; at 0x4000 and above it raises F1. -/
def Obligations.ArcWriteStoresOrIsDiscarded : Prop :=
  ∀ (a : BitVec 16) (v : BitVec 8) (s : State), s.Serving .arc → s.arcRam.wf = true →
    (a.toNat < 0x2000 → exec (.arcWr a v) s = .next (spoken { s with diag := s.diag ++ [.romWrite a v] } 0)) ∧
    (0x2000 ≤ a.toNat → a.toNat < 0x4000 →
      ∃ m, exec (.arcWr a v) s = .next (spoken { s with arcRam := m } 0) ∧
        m.read (a.toNat - 0x2000) = v ∧ ∀ c, c ≠ a.toNat - 0x2000 → m.read c = s.arcRam.read c) ∧
    (0x4000 ≤ a.toNat → ∃ t, exec (.arcWr a v) s = .next t ∧ t.halted = true ∧ t.resp = .fatal (.write a v))

/-- R71, R52 (the rows ARC.ADDR.*): each address class yields its outcome of FlatDecode and changes nothing else.  That
the outcome is delivered in `resp` is log 9. -/
def Obligations.ArcAddressClassesYieldTheirOutcome : Prop :=
  ∀ s : State, s.Serving .arc →
    (∀ (chip : BitVec 2) (offset : BitVec 11),
      exec (.arcAddrRom chip offset) s = .next { s with resp := .target (.rom chip.toNat offset.toNat) }) ∧
    (∀ r : BitVec 13, exec (.arcAddrRam r) s =
      .next { s with resp := .target (.ram (r.toNat / s.cfg.arcRamLen) (r.toNat % s.cfg.arcRamLen)) }) ∧
    (∀ x : BitVec 14, exec (.arcAddrFatal01 x) s = .next { s with resp := .target .fatal }) ∧
    (∀ x : BitVec 14, exec (.arcAddrFatal10 x) s = .next { s with resp := .target .fatal }) ∧
    (∀ x : BitVec 14, exec (.arcAddrFatal11 x) s = .next { s with resp := .target .fatal })

/-- R71 with R52: for every 16-bit address the class the sub-decode reads from its bits yields the outcome the division
formula gives. -/
def Obligations.ArcAddressBitsAgreeWithFlatDecode : Prop :=
  ∀ (a : BitVec 16) (s : State), s.Serving .arc →
    ∃ i, decode s.cfg.romselPattern (.arcAddr a) = .ok i ∧
      exec i s = .next { s with
        resp := .target
          (if 0x4000 ≤ a.toNat then .fatal
            else if a.toNat < 0x2000 then .rom (a.toNat / 2048) (a.toNat % 2048)
            else .ram ((a.toNat - 0x2000) / s.cfg.arcRamLen) ((a.toNat - 0x2000) % s.cfg.arcRamLen)) }

/-- R46: a stored word reads back; a store to ROM leaves the image; a store to an unpopulated RAM position reads 0. -/
def Obligations.StoredWordsReadBack : Prop :=
  (∀ (a : BitVec 16) (v : BitVec 8) (s : State), s.Serving .arc → s.arcRam.wf = true → a.toNat < 0x4000 →
    ∃ t u, exec (.arcWr a v) s = .next t ∧ exec (.arcRd a) t = .next u ∧
      u.resp = .ok (if a.toNat < 0x2000 then (s.arcRom.read (a.toNat / 2048 * 2048 + a.toNat % 2048)).setWidth 14
        else v.setWidth 14)) ∧
  (∀ (k : CellKind) (cm : BitVec 3) (di : BitVec 8) (v : BitVec 4) (s : State), s.Serving .c4 → s.c4Ram.wf = true →
    ∃ t u, exec (.c4Ramwr k cm di v) s = .next t ∧ exec (.c4Ramrd k cm di) t = .next u ∧
      u.resp = .ok (if chipIndex cm di < s.cfg.c4NRam then v.setWidth 14 else 0))

/-- R141, with R125: the one fatal condition is raised only by an ARC read or write at 0x4000 or above, or inside the
tick or CPU step that serves it; no operation of another family halts the board. -/
def Obligations.OnlyArcAddressesHaltTheBoard : Prop :=
  ∀ (i : Instr) (s t : State), exec i s = .next t → s.halted = false → t.halted = true →
    s.cfg.family = .arc ∧ t.keyIn = none ∧ t.phase = .between ∧
      ((∃ a, i = .arcRd a ∧ 0x4000 ≤ a.toNat ∧ t.resp = .fatal (.read a)) ∨
        (∃ a v, i = .arcWr a v ∧ 0x4000 ≤ a.toNat ∧ t.resp = .fatal (.write a v)) ∨
        ((i = .tick ∨ i = .cpuStep) ∧ ∃ a, 0x4000 ≤ a.toNat ∧
          (t.resp = .fatal (.read a) ∨ ∃ v, t.resp = .fatal (.write a v))))

/-! ### C4 -/

/-- R74, R54 (the rows CM.*): each encoding yields its bank; an invalid one is flagged and appends BAD_CM; nothing else
changes.  That a row of its own yields its result in `resp` and appends the record is log 9. -/
def Obligations.CommandControlRowsYieldTheirBank : Prop :=
  ∀ s : State, s.Serving .c4 →
    exec .cm000 s = .next { s with resp := .bank 0 false } ∧
    exec .cm001 s = .next { s with resp := .bank 1 false } ∧
    exec .cm010 s = .next { s with resp := .bank 2 false } ∧
    exec .cm100 s = .next { s with resp := .bank 3 false } ∧
    exec .cm011 s = .next { s with diag := s.diag ++ [.badCm 0b011], resp := .bank 0 true } ∧
    exec .cm101 s = .next { s with diag := s.diag ++ [.badCm 0b101], resp := .bank 0 true } ∧
    exec .cm110 s = .next { s with diag := s.diag ++ [.badCm 0b110], resp := .bank 0 true } ∧
    exec .cm111 s = .next { s with diag := s.diag ++ [.badCm 0b111], resp := .bank 0 true }

/-- R76 with R75, R143, R145: `C4.RAMRD` answers the cell of chip `cs + 4 * bank`, or 0 where no chip is populated,
appends the records due, BAD_CM first, and changes nothing else. -/
def Obligations.C4RamReadAnswersTheCell : Prop :=
  ∀ (k : CellKind) (cm : BitVec 3) (di : BitVec 8) (s : State), s.Serving .c4 →
    exec (.c4Ramrd k cm di) s =
      .next (spoken { s with diag := s.diag ++ (badCmRecord cm ++ unpopulatedRecord s.cfg cm di .read) }
        (if chipIndex cm di < s.cfg.c4NRam then (s.c4Ram.read (ramCellOf k cm di)).setWidth 14 else 0))

/-- R77 with R75: `C4.RAMWR` stores one cell of exactly one chip and leaves every other cell; a dropped write leaves all;
the records are appended, BAD_CM first; nothing else changes. -/
def Obligations.C4RamWriteStoresOneCell : Prop :=
  ∀ (k : CellKind) (cm : BitVec 3) (di : BitVec 8) (v : BitVec 4) (s : State), s.Serving .c4 → s.c4Ram.wf = true →
    ∃ m, exec (.c4Ramwr k cm di v) s =
        .next (spoken { s with
          diag := s.diag ++ (badCmRecord cm ++ unpopulatedRecord s.cfg cm di .write), c4Ram := m } 0) ∧
      (chipIndex cm di < s.cfg.c4NRam → m.read (ramCellOf k cm di) = v ∧
        ∀ c, c ≠ ramCellOf k cm di → m.read c = s.c4Ram.read c) ∧
      (s.cfg.c4NRam ≤ chipIndex cm di → m = s.c4Ram)

/-- R78 with R75, R24: `C4.RAMPW` sets the C4_PORT_W bits of the output port latch of RAM chip `cs + 4 * bank` to
`v = d[3:0]` and no other latch; a dropped one sets none; the records are appended; nothing else changes.  That a latch
wider than 4 bits takes `v` zero-extended, and not `d[C4_PORT_W-1:0]` as R38 and R50 have it, is log 15. -/
def Obligations.C4RamPortWriteSetsOneLatch : Prop :=
  ∀ (cm : BitVec 3) (di : BitVec 8) (v : BitVec 4) (s : State), s.Serving .c4 →
    exec (.c4Rampw cm di v) s =
      .next (spoken { s with
        diag := s.diag ++ (badCmRecord cm ++ unpopulatedRecord s.cfg cm di .portWrite),
        portOut :=
          if chipIndex cm di < s.cfg.c4NRam then
            { s.portOut with ram := s.portOut.ram.set (chipIndex cm di) (v.toNat % 2 ^ s.cfg.c4PortW) }
          else s.portOut } 0)

/-- R80 with R79: `C4.ROMRD` answers the word of the chip `(addr / len) % n` at `addr % len` and changes nothing else;
every 12-bit address is valid. -/
def Obligations.C4RomReadWrapsTheChip : Prop :=
  ∀ (addr : BitVec 12) (s : State), s.Serving .c4 →
    exec (.c4Romrd addr) s =
      .next (spoken s (s.c4Rom.read
        (addr.toNat / s.cfg.c4RomLen % s.cfg.c4NRom * s.cfg.c4RomLen + addr.toNat % s.cfg.c4RomLen)))

/-- R81: `C4.ROMPR` answers the input port of chip `di[7:4] % C4_N_ROM` and changes nothing else. -/
def Obligations.C4RomPortReadAnswersTheInputPort : Prop :=
  ∀ (di : BitVec 8) (s : State), s.Serving .c4 →
    exec (.c4Rompr di) s =
      .next (spoken s (BitVec.ofNat 14 (s.portIn.rom.getD (di.toNat / 16 % s.cfg.c4NRom) 0)))

/-- R82 with R24: `C4.ROMPW` sets the C4_PORT_W bits of the output port latch of ROM chip `di[7:4] % C4_N_ROM` to
`v = d[3:0]` and no other latch, whatever `di[3:0]` is; nothing else changes.  That a latch wider than 4 bits takes `v`
zero-extended, and not `d[C4_PORT_W-1:0]` as R38 and R50 have it, is log 15. -/
def Obligations.C4RomPortWriteSetsOneLatch : Prop :=
  ∀ (di : BitVec 8) (v : BitVec 4) (s : State), s.Serving .c4 →
    exec (.c4Rompw di v) s =
      .next (spoken { s with
        portOut := { s.portOut with
          rom := s.portOut.rom.set (di.toNat / 16 % s.cfg.c4NRom) (v.toNat % 2 ^ s.cfg.c4PortW) } } 0)

/-- R84, second half: the invalid encodings resolve to bank 0, and so name the same cells as `000`, with the record
BAD_CM added (R145). -/
def Obligations.InvalidCommandControlAliasesBankZero : Prop :=
  ∀ (k : CellKind) (cm : BitVec 3) (di : BitVec 8) (s : State), s.Serving .c4 →
    (cm = 0b011 ∨ cm = 0b101 ∨ cm = 0b110 ∨ cm = 0b111) →
    ∃ t u, exec (.c4Ramrd k cm di) s = .next t ∧ exec (.c4Ramrd k 0b000 di) s = .next u ∧ t.resp = u.resp ∧
      t.diag = s.diag ++ ([.badCm cm] ++ unpopulatedRecord s.cfg 0b000 di .read)

/-! ### HP -/

/-- R90, R91, R92, R93: bit by bit, the opcode an `HP.FETCH` answers is the OR over every populated chip whose
`rom_sel[i]` is `i`, also where more than one chip, or none, is selected; the detection R57 looks at that merged word,
and the selection is all else that changes. -/
def Obligations.HpFetchMergesEveryChip : Prop :=
  ∀ (addr : BitVec 8) (s : State), s.Serving .hp →
    ∃ w : BitVec 10,
      exec (.hpFetch addr) s =
        .next (spoken { s with
          romSel :=
            if w.extractLsb' 0 7 = s.cfg.romselPattern then
              List.replicate s.cfg.hpNRom ((w.extractLsb' 7 3).toNat % s.cfg.hpNRom)
            else s.romSel } (w.setWidth 14)) ∧
      ∀ j, w.getLsbD j = true ↔
        ∃ i, i < s.cfg.hpNRom ∧ s.romSel[i]? = some i ∧ (s.hpRom.read (i * 256 + addr.toNat)).getLsbD j = true

/-- R93, R94, R96: with the banks in lockstep at `b`, `HP.FETCH` answers the word of bank `b`; when its low 7 bits are
ROMSEL_PATTERN every `rom_sel[i]` becomes its high 3 bits modulo HP_N_ROM; nothing else changes. -/
def Obligations.HpFetchAnswersAndSelects : Prop :=
  ∀ (addr : BitVec 8) (b : Nat) (s : State), s.Serving .hp → b < s.cfg.hpNRom →
    s.romSel = List.replicate s.cfg.hpNRom b →
    exec (.hpFetch addr) s =
      .next (spoken { s with
          romSel :=
            if (s.hpRom.read (b * 256 + addr.toNat)).extractLsb' 0 7 = s.cfg.romselPattern then
              List.replicate s.cfg.hpNRom
                (((s.hpRom.read (b * 256 + addr.toNat)).extractLsb' 7 3).toNat % s.cfg.hpNRom)
            else s.romSel }
        ((s.hpRom.read (b * 256 + addr.toNat)).setWidth 14))

/-- R45, R172: a bank-select opcode takes effect inside the fetch that returns it: "the very next `HP.FETCH` already reads
from the new bank". -/
def Obligations.NextFetchReadsTheNewBank : Prop :=
  ∀ (a1 a2 : BitVec 8) (b : Nat) (s : State), s.Serving .hp → b < s.cfg.hpNRom →
    s.romSel = List.replicate s.cfg.hpNRom b →
    (s.hpRom.read (b * 256 + a1.toNat)).extractLsb' 0 7 = s.cfg.romselPattern →
    ∃ t u, exec (.hpFetch a1) s = .next t ∧ exec (.hpFetch a2) t = .next u ∧
      u.resp = .ok ((s.hpRom.read
        (((s.hpRom.read (b * 256 + a1.toNat)).extractLsb' 7 3).toNat % s.cfg.hpNRom * 256 + a2.toNat)).setWidth 14)

/-- R94: `HP.ROMSEL b` sets every `rom_sel[i]` to `b % HP_N_ROM` and changes nothing else; after it exactly one chip is
selected. -/
def Obligations.RomSelectBroadcastsOneBank : Prop :=
  ∀ (b : BitVec 3) (s : State), s.Serving .hp →
    exec (.hpRomsel b) s =
      .next { s with romSel := List.replicate s.cfg.hpNRom (b.toNat % s.cfg.hpNRom) } ∧
    ∀ i, (List.replicate s.cfg.hpNRom (b.toNat % s.cfg.hpNRom))[i]? = some i ↔ i = b.toNat % s.cfg.hpNRom

/-- R95 with R90: `HP.WSRD` answers, bit by bit, the OR of the word-select data over every populated chip whose
`rom_sel[i]` is `i`, and changes nothing else; with the banks in lockstep at `b` that is the word of bank `b`. -/
def Obligations.WordSelectReadAnswersTheSelectedBank : Prop :=
  ∀ (addr : BitVec 8) (s : State), s.Serving .hp →
    (∃ w : DataWord, exec (.hpWsrd addr) s = .next (spoken s w) ∧
      ∀ j, w.getLsbD j = true ↔
        ∃ i, i < s.cfg.hpNRom ∧ s.romSel[i]? = some i ∧ (s.hpWs.read (i * 256 + addr.toNat)).getLsbD j = true) ∧
    ∀ b, b < s.cfg.hpNRom → s.romSel = List.replicate s.cfg.hpNRom b →
      exec (.hpWsrd addr) s = .next (spoken s (s.hpWs.read (b * 256 + addr.toNat)))

/-! ### The peripheral chain -/

/-- R103, R59, R111: `PCC.EXTRACT` samples the six levels from the output latches, each with its polarity, and changes
nothing else; without a chain it does nothing. -/
def Obligations.ExtractSamplesTheControlLines : Prop :=
  ∀ s : State, s.AtPhase .two →
    (s.cfg.nShift = 0 → exec .pccExtract s = .next s) ∧
    (s.cfg.nShift ≠ 0 → exec .pccExtract s = .next { s with
      lines := ⟨lineLevel s.portOut s.cfg.lKclk, lineLevel s.portOut s.cfg.lKdat, enableLineLevel s.portOut s.cfg.lKen,
        lineLevel s.portOut s.cfg.lPclk, lineLevel s.portOut s.cfg.lPdat, enableLineLevel s.portOut s.cfg.lPen⟩ })

/-- R104 with R101, R108, R111: `PCC.SHIFT` shifts each stream once on a rising enabled clock level, the pair on one
indicator with A's old top bit into B, remembers the clock levels, drops the sampled levels (R103) and changes nothing
else; without a chain it does nothing. -/
def Obligations.ShiftMovesBothStreams : Prop :=
  ∀ s : State, s.AtPhase .three →
    (s.cfg.nShift = 0 → exec .pccShift s = .next s) ∧
    (s.cfg.nShift ≠ 0 → exec .pccShift s = .next { s with
      clkPrevK := s.lines.kclk
      clkPrevP := s.lines.pclk
      srK := if (s.lines.kclk && !s.clkPrevK && s.lines.ken) = true then
            (2 * s.srK + s.lines.kdat.toNat) % 2 ^ s.cfg.shiftW else s.srK
      srA := if (s.lines.pclk && !s.clkPrevP && s.lines.pen) = true then
          (2 * s.srA + s.lines.pdat.toNat) % 2 ^ s.cfg.shiftW else s.srA
      srB := if (s.lines.pclk && !s.clkPrevP && s.lines.pen) = true then
          (2 * s.srB + (s.srA.testBit (s.cfg.shiftW - 1)).toNat) % 2 ^ s.cfg.shiftW else s.srB
      lines := ⟨false, false, false, false, false, false⟩ })

/-- One clocked bit of the printer stream: phase 3 with the clock level risen, the enable asserted and the data level
`b`, the keyboard clock low. -/
def clockPrinterBit (b : Bool) (s : State) : Result :=
  exec .pccShift { s with phase := .three, clkPrevP := false, lines := ⟨false, false, true, true, b, true⟩ }

/-- The bits of a list clocked into the printer stream one after the other. -/
def clockPrinterBits : List Bool → State → Result
  | [], s => .next s
  | b :: bs, s => Result.andThen (clockPrinterBit b s) (clockPrinterBits bs)

/-- The number a list of bits writes, the first bit highest. -/
def bitsValue (bs : List Bool) : Nat := bs.foldl (fun acc b => 2 * acc + b.toNat) 0

/-- R105: the chained pair, read as `sr[SR_A] | (sr[SR_B] << N)`, is one register of 2N bits: one `PCC.SHIFT` moves it as
one, and m <= 2N bits shifted into the all-zero pair read back as the number they write, the first bit highest. -/
def Obligations.PrinterPairIsOneRegister : Prop :=
  (∀ s : State, s.AtPhase .three → s.cfg.nShift = 3 → s.srA < 2 ^ s.cfg.shiftW → s.srB < 2 ^ s.cfg.shiftW →
    ∃ t, exec .pccShift s = .next t ∧
      (t.srA ||| (t.srB <<< s.cfg.shiftW)) =
        if (s.lines.pclk && !s.clkPrevP && s.lines.pen) = true then
          (((s.srA ||| (s.srB <<< s.cfg.shiftW)) <<< 1) ||| s.lines.pdat.toNat) % 2 ^ (2 * s.cfg.shiftW)
        else s.srA ||| (s.srB <<< s.cfg.shiftW)) ∧
  (∀ (bits : List Bool) (s : State), s.cfg.ok = true → s.halted = false → s.cfg.nShift = 3 →
    s.srA = 0 → s.srB = 0 → bits.length ≤ 2 * s.cfg.shiftW →
    ∃ t, clockPrinterBits bits s = .next t ∧ (t.srA ||| (t.srB <<< s.cfg.shiftW)) = bitsValue bits)

/-- R110: from an all-zero chain, M <= N bits and then N bits shifted in leave the first M in B and the last N in A, and
`RDPAR` then returns `A_bits | (B_bits << N)`. -/
def Obligations.CascadeReadsBackThePattern : Prop :=
  ∀ (bBits aBits : List Bool) (s : State), s.cfg.ok = true → s.halted = false → s.cfg.nShift = 3 →
    s.srA = 0 → s.srB = 0 → aBits.length = s.cfg.shiftW → bBits.length ≤ s.cfg.shiftW →
    ∃ t u, clockPrinterBits (bBits ++ aBits) s = .next t ∧ t.srA = bitsValue aBits ∧ t.srB = bitsValue bBits ∧
      exec .rdpar { t with phase := .between } = .next u ∧
      u.resp = .par (bitsValue aBits ||| (bitsValue bBits <<< s.cfg.shiftW))

/-- R106, R63, R111: `RDPAR` returns `sr[SR_A] | (sr[SR_B] << N)`, 0 without a chain, and changes nothing else. -/
def Obligations.RdparReadsThePrinterValue : Prop :=
  ∀ s : State, s.Ready →
    exec .rdpar s = .next { s with
      resp := .par (if s.cfg.nShift = 0 then 0 else s.srA ||| (s.srB <<< s.cfg.shiftW)) }

/-! ### The signal latches -/

/-- R116: `SLE.UPDATE` makes every latch the level sampled now and every pulse the rising of that level, for every signal
on its own, and changes nothing else. -/
def Obligations.LatchUpdateFollowsTheFourTransitions : Prop :=
  ∀ s : State, s.AtPhase .four → s.latch.length = s.cfg.sigs.length →
    ∃ (l p : List Bool), exec .sleUpdate s = .next { s with latch := l, pulse := p } ∧
      l.length = s.cfg.sigs.length ∧ p.length = s.cfg.sigs.length ∧
      ∀ (n : Nat) (g : SigDesc) (prev : Bool), s.cfg.sigs[n]? = some g → s.latch[n]? = some prev →
        l[n]? = some (signalLevel s.portOut s.c4Ram g) ∧
        p[n]? = some (signalLevel s.portOut s.c4Ram g && !prev)

/-- The states that phase 4 leaves at successive ticks, when the CPU steps of those ticks leave the ports and RAM cells
listed. -/
def latchRun : List (Ports × Memory 4) → State → List State
  | [], _ => []
  | (p, m) :: rest, s =>
    match exec .sleUpdate { s with phase := .four, portOut := p, c4Ram := m } with
    | .next t => t :: latchRun rest t
    | .fault _ => []
    | .refused _ => []

/-- R117: over successive ticks the pulse of a signal is 1 exactly when its level is high and was low at the tick before
(at the first of them: when the latch was Idle). -/
def Obligations.OnePulsePerRisingLevel : Prop :=
  ∀ (left : List (Ports × Memory 4)) (s : State) (n : Nat) (g : SigDesc), s.cfg.ok = true → s.halted = false →
    s.cfg.sigs[n]? = some g → s.latch.length = s.cfg.sigs.length →
    (latchRun left s).map (fun t => t.pulse.getD n false) =
      List.zipWith (fun lvl prev => lvl && !prev) (left.map fun q => signalLevel q.1 q.2 g)
        (s.latch.getD n false :: left.map fun q => signalLevel q.1 q.2 g)

/-! ### The tick -/

/-- What a step of an agent with the plan does to the board: each request served by `exec` before the next is chosen,
until the step returns or a request is fatal (R123, R125). -/
def servedInOrder : CpuPlan → State → Result
  | .idle, s => .next { s with cpu := { s.cpu with plan := .idle } }
  | .done p, s => .next { s with cpu := { s.cpu with plan := p } }
  | .ask q p, s =>
    match decodeReq q with
    | .error e => .refused (.malformed e)
    | .ok i => Result.andThen (exec i (s.supply i)) (fun t =>
        if t.halted then .next { t with cpu := { t.cpu with plan := p } } else servedInOrder p t)
  | .whenHeard r yes no, s =>
    if s.cpu.heard.getLast? = some r then servedInOrder yes s else servedInOrder no s

/-- R123, R121 (a), (b): `CPU.STEP` serves the requests the agent issues strictly in order, each by its own rule and each
chosen by the responses before it, and, each being well formed, completes.  That the agent is a plan and hears the
responses of its current step only is log 4. -/
def Obligations.CpuStepServesTheRequestsInOrder : Prop :=
  ∀ s : State, s.AtPhase .one → s.cpu.plan.wellFormed s.cfg →
    exec .cpuStep s = servedInOrder s.cpu.plan { s with cpu := { s.cpu with heard := [] } } ∧
      ∃ t, exec .cpuStep s = .next t

/-- Where a plan leads an agent that hears these responses in one step, the latest before them being `last`; none when
the step has another number of requests. -/
def planAfter : CpuPlan → Option DataWord → List DataWord → Option CpuPlan
  | .idle, _, rs => if rs = [] then some .idle else none
  | .done p, _, rs => if rs = [] then some p else none
  | .ask _ _, _, [] => none
  | .ask _ p, _, r :: rs => planAfter p (some r) rs
  | .whenHeard r yes no, last, rs => if last = some r then planAfter yes last rs else planAfter no last rs

/-- R121 (c): what the agent does depends on its own state, its plan, and on the responses it was given, and on nothing
else of the board: after a step with no fatal request it is where its plan leads on the responses heard.  The plan is
log 4. -/
def Obligations.AgentDependsOnItsResponsesOnly : Prop :=
  ∀ s t : State, exec .cpuStep s = .next t → t.halted = false →
    planAfter s.cpu.plan none t.cpu.heard = some t.cpu.plan

/-- `KeyPortFn(key_in, sr[SR_K])` (R129), of C4_PORT_W bits; the function of a board with other wiring is free
(log 12). -/
def presentedValue (s : State) : Nat :=
  (match s.cfg.keyFn with
    | .rawPortMask => (s.keyIn.map BitVec.toNat).getD 0
    | .wired n => Config.keyPortFn n s.keyIn s.srK) % 2 ^ s.cfg.c4PortW

/-- The state in which phase 1 of a tick begins: the key presented on the KEY_PORT chip's input port (R129), phase 1. -/
def phaseOneStart (s : State) : State :=
  { s with
    phase := .one
    portIn := match s.cfg.keyPort with
      | none => s.portIn
      | some (.rom, i) => { s.portIn with rom := s.portIn.rom.set i (presentedValue s) }
      | some (.ram, i) => { s.portIn with ram := s.portIn.ram.set i (presentedValue s) } }

/-- R122: a tick presents the key and runs phase 1 and, when no request was fatal, phases 2, 3 and 4 in that order on the
state phase 1 left, then clears `key_in` and answers OK; a fatal phase 1 ends the tick (R125); a halted board refuses it.
The premise is that the CPU's requests are well formed (R121 (b)). -/
def Obligations.TickRunsThePhasesInOrder : Prop :=
  ∀ s : State, s.cfg.ok = true → s.phase = .between → s.cpu.plan.wellFormed s.cfg →
    (s.halted = true → exec .tick s = .refused .halted) ∧
    (s.halted = false →
      ∃ t1, exec .cpuStep (phaseOneStart s) = .next t1 ∧
        (t1.halted = true → exec .tick s = .next t1) ∧
        (t1.halted = false → ∃ t2 t3 t4,
          exec .pccExtract { t1 with phase := .two } = .next t2 ∧
          exec .pccShift { t2 with phase := .three } = .next t3 ∧
          exec .sleUpdate { t3 with phase := .four } = .next t4 ∧
          exec .tick s = .next { t4 with phase := .between, keyIn := none, resp := .ok 0 }))

/-- R43, R124, R170: phases 2 to 4 see the ports and cells as phase 1 of the same tick left them: after a completed tick
the remembered clock levels and the latches are those of the ports and cells now in the state, and phases 2 to 4 wrote no
port, no memory and no record. -/
def Obligations.PhasesSampleTheSameTick : Prop :=
  ∀ s t : State, exec .tick s = .next t → t.halted = false → s.lines = .idle →
    ∃ t1, exec .cpuStep (phaseOneStart s) = .next t1 ∧
      t.latch = s.cfg.sigs.map (signalLevel t.portOut t.c4Ram) ∧
      (s.cfg.nShift ≠ 0 → t.clkPrevK = lineLevel t.portOut s.cfg.lKclk ∧
        t.clkPrevP = lineLevel t.portOut s.cfg.lPclk) ∧
      t = { t1 with
        phase := .between, keyIn := none, resp := .ok 0, lines := .idle,
        latch := t.latch, pulse := t.pulse, clkPrevK := t.clkPrevK, clkPrevP := t.clkPrevP,
        srK := t.srK, srA := t.srA, srB := t.srB }

/-- A plan that issues these requests, whatever it hears, and then goes on with `p`. -/
def askAll (qs : List Req) (p : CpuPlan) : CpuPlan := qs.foldr CpuPlan.ask p

/-- R125, R148, R147: a tick whose CPU step reaches an ARC read or write at 0x4000 or above is aborted there: the board is
halted, `key_in` is none, the status is (FATAL, F1, info), and what the agent would have done after it makes no
difference to the board (no later request is served).  What else holds of the aborted board is log 6 and not claimed. -/
def Obligations.FatalRequestAbortsTheTick : Prop :=
  ∀ (before : List Instr) (p0 p1 : CpuPlan) (qs : List Req) (q : Req) (i : Instr) (info : FatalInfo) (s : State),
    s.Ready → s.cfg.family = .arc →
    (∀ j ∈ before, (∃ a, j = .arcRd a ∧ a.toNat < 0x4000) ∨ ∃ a v, j = .arcWr a v ∧ a.toNat < 0x4000) →
    ((∃ a, i = .arcRd a ∧ 0x4000 ≤ a.toNat ∧ info = .read a) ∨
      ∃ a v, i = .arcWr a v ∧ 0x4000 ≤ a.toNat ∧ info = .write a v) →
    qs.map decodeReq = before.map Except.ok → decodeReq q = .ok i →
    s.cpu.plan = askAll qs (.ask q p0) →
    ∃ t, exec .tick s = .next t ∧ t.halted = true ∧ t.keyIn = none ∧ t.resp = .fatal info ∧
      exec .tick { s with cpu := { s.cpu with plan := askAll qs (.ask q p1) } } =
        .next { t with cpu := { t.cpu with plan := p1 } }

/-- R97, R121 (d), R93: the detection runs once a tick.  On HP, with an agent that meets its contract, a tick makes one
fetch, from the bank selected when the tick began; the agent hears that word first; and at the end of the tick the
selection is the one that this word alone decides. -/
def Obligations.OneFetchATickDecidesTheBank : Prop :=
  ∀ (b : Nat) (s : State), s.Ready → s.cfg.family = .hp → s.cpu.plan.Conforms s.cfg → b < s.cfg.hpNRom →
    s.romSel = List.replicate s.cfg.hpNRom b →
    ∃ (addr : BitVec 8) (t : State), exec .tick s = .next t ∧ t.halted = false ∧
      t.cpu.heard.head? = some ((s.hpRom.read (b * 256 + addr.toNat)).setWidth 14) ∧
      t.romSel =
        if (s.hpRom.read (b * 256 + addr.toNat)).extractLsb' 0 7 = s.cfg.romselPattern then
          List.replicate s.cfg.hpNRom
            (((s.hpRom.read (b * 256 + addr.toNat)).extractLsb' 7 3).toNat % s.cfg.hpNRom)
        else s.romSel

/-- A read request with valid operands (R133): an ARC address below 0x4000, a valid `cm` and a populated RAM index, a
fetched word that is no bank select; ROM, port and word-select reads always. -/
def quietRead (s : State) : Instr → Prop
  | .arcRd a => a.toNat < 0x4000
  | .c4Romrd _ => True
  | .c4Ramrd _ cm di => badCmRecord cm = [] ∧ chipIndex cm di < s.cfg.c4NRam
  | .c4Rompr _ => True
  | .hpFetch addr => ∀ b, b < s.cfg.hpNRom → s.romSel[b]? = some b →
      (s.hpRom.read (b * 256 + addr.toNat)).extractLsb' 0 7 ≠ s.cfg.romselPattern
  | .hpWsrd _ => True
  | _ => False

/-- R133: a tick in which the CPU issues only read requests with valid operands writes no RAM cell and no output port,
appends nothing to `diag` and leaves `rom_sel` alone; `latch` and `clk_prev` become the unchanged levels, and there is no
shift and no pulse when those equal the previous tick's.  A tick that begins with an `HP.FETCH` answering a bank select,
followed by any number of `HP.WSRD`s, leaves every `rom_sel[i]` at the same new bank. -/
def Obligations.QuietTickChangesNoMemory : Prop :=
  (∀ s : State, s.Ready → s.Inv → s.cpu.plan.wellFormed s.cfg → s.cpu.plan.stepAsks (quietRead s) →
    ∃ t, exec .tick s = .next t ∧ t.halted = false ∧
      t.arcRam = s.arcRam ∧ t.c4Ram = s.c4Ram ∧ t.portOut = s.portOut ∧ t.diag = s.diag ∧ t.romSel = s.romSel ∧
      t.arcRom = s.arcRom ∧ t.c4Rom = s.c4Rom ∧ t.hpRom = s.hpRom ∧ t.hpWs = s.hpWs ∧
      t.latch = s.cfg.sigs.map (signalLevel s.portOut s.c4Ram) ∧
      (s.latch = s.cfg.sigs.map (signalLevel s.portOut s.c4Ram) → ∀ b ∈ t.pulse, b = false) ∧
      (s.cfg.nShift ≠ 0 → t.clkPrevK = lineLevel s.portOut s.cfg.lKclk ∧
        t.clkPrevP = lineLevel s.portOut s.cfg.lPclk) ∧
      (s.clkPrevK = lineLevel s.portOut s.cfg.lKclk → t.srK = s.srK) ∧
      (s.clkPrevP = lineLevel s.portOut s.cfg.lPclk → t.srA = s.srA ∧ t.srB = s.srB)) ∧
  (∀ (addr : BitVec 8) (q : Req) (p : CpuPlan) (b : Nat) (s : State), s.Ready → s.cfg.family = .hp →
    s.cpu.plan = .ask q p → decodeReq q = .ok (.hpFetch addr) → (p.stepAsks fun i => ∃ a, i = .hpWsrd a) →
    b < s.cfg.hpNRom → s.romSel = List.replicate s.cfg.hpNRom b →
    (s.hpRom.read (b * 256 + addr.toNat)).extractLsb' 0 7 = s.cfg.romselPattern →
    ∃ t, exec .tick s = .next t ∧ t.romSel = List.replicate s.cfg.hpNRom
      (((s.hpRom.read (b * 256 + addr.toNat)).extractLsb' 7 3).toNat % s.cfg.hpNRom))

/-! ### Host commands -/

/-- R129: `INJECT v` sets `key_in` and changes nothing else. -/
def Obligations.InjectSetsTheKey : Prop :=
  ∀ (v : BitVec 16) (s : State), s.Ready → exec (.inject v) s = .next (acknowledged { s with keyIn := some v })

/-- R129, R25: with the default `KeyPortFn`, a port read of the KEY_PORT chip during the next tick answers the low
C4_PORT_W bits of the injected value, 0 when none was injected; after that tick `key_in` is none. -/
def Obligations.InjectedKeyLastsOneTick : Prop :=
  ∀ (di : BitVec 8) (q : Req) (p : CpuPlan) (s : State), s.Ready → s.Inv → s.cfg.family = .c4 → s.cfg.keyFn = .rawPortMask →
    s.cfg.keyPort = some (.rom, di.toNat / 16 % s.cfg.c4NRom) →
    s.cpu.plan = .ask q (.done p) → decodeReq q = .ok (.c4Rompr di) →
    ∃ t, exec .tick s = .next t ∧ t.keyIn = none ∧ t.cpu.plan = p ∧
      t.cpu.heard = [BitVec.ofNat 14 (match s.keyIn with
        | none => 0
        | some v => v.toNat % 2 ^ s.cfg.c4PortW)]

/-- R131, R15: `SNAP` returns the copy R131 lists, also while halted, and changes nothing else. -/
def Obligations.SnapCopiesTheBoard : Prop :=
  ∀ s : State, s.cfg.ok = true → s.phase = .between →
    exec .snap s = .next { s with
      resp := .snap {
        portOut := s.portOut, portIn := s.portIn, sr := if s.cfg.nShift = 0 then [] else [s.srK, s.srA, s.srB],
        latch := s.latch, pulse := s.pulse, clkPrevK := s.clkPrevK, clkPrevP := s.clkPrevP, romSel := s.romSel,
        keyIn := s.keyIn, halted := s.halted } }

/-- R165, R166, R169 on ARC and on C4 with 8-bit words: `LOADROM` installs the image in chip `i`, word k being byte k and
zero beyond the end of the blob; every word of every other chip and everything else is unchanged.  On C4 with words of
any width the words beyond the blob read as 0 (R166), those before, free when the width is not 8 (log 14), have that
width, zero bytes added to the blob make no difference, and the rest holds alike. -/
def Obligations.LoadromInstallsByteImages : Prop :=
  (∀ (i : BitVec 8) (blob : List Byte) (s : State), s.Ready → s.cfg.family = .arc → i.toNat < 4 → blob.length ≤ 2048 →
    ∃ m, exec (.loadrom i blob) s = .next (acknowledged { s with arcRom := m }) ∧
      (∀ k, k < 2048 → m.read (i.toNat * 2048 + k) = blob.getD k 0) ∧
      ∀ c, (c < i.toNat * 2048 ∨ i.toNat * 2048 + 2048 ≤ c) → m.read c = s.arcRom.read c) ∧
  (∀ (i : BitVec 8) (blob : List Byte) (s : State), s.Ready → s.cfg.family = .c4 → s.cfg.c4RomW = 8 →
    i.toNat < s.cfg.c4NRom → blob.length ≤ s.cfg.c4RomLen →
    ∃ m, exec (.loadrom i blob) s = .next (acknowledged { s with c4Rom := m }) ∧
      (∀ k, k < s.cfg.c4RomLen → m.read (i.toNat * s.cfg.c4RomLen + k) = (blob.getD k 0).setWidth 14) ∧
      ∀ c, (c < i.toNat * s.cfg.c4RomLen ∨ i.toNat * s.cfg.c4RomLen + s.cfg.c4RomLen ≤ c) →
        m.read c = s.c4Rom.read c) ∧
  (∀ (i : BitVec 8) (blob : List Byte) (s : State), s.Ready → s.cfg.family = .c4 → i.toNat < s.cfg.c4NRom →
    blob.length ≤ s.cfg.romCapacity →
    ∃ m, exec (.loadrom i blob) s = .next (acknowledged { s with c4Rom := m }) ∧
      (∀ k, k < s.cfg.c4RomLen → (m.read (i.toNat * s.cfg.c4RomLen + k)).toNat < 2 ^ s.cfg.c4RomW ∧
        (8 * blob.length ≤ k * s.cfg.c4RomW → m.read (i.toNat * s.cfg.c4RomLen + k) = 0)) ∧
      (∀ n, blob.length + n ≤ s.cfg.romCapacity →
        exec (.loadrom i (blob ++ List.replicate n 0)) s = exec (.loadrom i blob) s) ∧
      ∀ c, (c < i.toNat * s.cfg.c4RomLen ∨ i.toNat * s.cfg.c4RomLen + s.cfg.c4RomLen ≤ c) →
        m.read c = s.c4Rom.read c)

/-- R165, R166, R169 on HP: `LOADROM` installs the 256 words that `Unpack`, an arbitrary bijection on 2560 bits that keeps
zero (log 13), makes of the zero-padded image: the words of bank `i`, joined, are unpacked back to the image's bits; an
empty blob, or one of zero bytes, gives an all-zero image; every other bank and everything else is unchanged. -/
def Obligations.LoadromInstallsHpImages : Prop :=
  ∀ (i : BitVec 8) (blob : List Byte) (s : State), s.Ready → s.cfg.family = .hp → i.toNat < s.cfg.hpNRom →
    blob.length ≤ 320 →
    ∃ (m : Memory 10) (image : BitVec 2560),
      exec (.loadrom i blob) s = .next (acknowledged { s with hpRom := m }) ∧
      (∀ k, k < 320 → (hpUnpack.symm image).extractLsb' (8 * k) 8 = blob.getD k 0) ∧
      ((∀ b ∈ blob, b = 0) → image = 0) ∧
      (∀ k, k < 256 → m.read (i.toNat * 256 + k) = image.extractLsb' (10 * k) 10) ∧
      ∀ c, (c < i.toNat * 256 ∨ i.toNat * 256 + 256 ≤ c) → m.read c = s.hpRom.read c

/-- R167, R165, R157: an oversized image answers ERROR X1 with the chip index and the length and changes nothing else,
and does not halt; a chip index at or above N_ROM is refused, whatever the image. -/
def Obligations.LoadromTurnsBadImagesAway : Prop :=
  ∀ (i : BitVec 8) (blob : List Byte) (s : State), s.Ready →
    (i.toNat < s.cfg.nRom → s.cfg.romCapacity < blob.length →
      exec (.loadrom i blob) s = .next { s with resp := .error i blob.length }) ∧
    (s.cfg.nRom ≤ i.toNat → exec (.loadrom i blob) s = .refused .noSuchChip) ∧
    (s.cfg.family = .arc → s.cfg.nRom = 4 ∧ s.cfg.romCapacity = 2048) ∧
    (s.cfg.family = .c4 → s.cfg.nRom = s.cfg.c4NRom ∧ s.cfg.romCapacity = s.cfg.c4RomLen * s.cfg.c4RomW / 8) ∧
    (s.cfg.family = .hp → s.cfg.nRom = s.cfg.hpNRom ∧ s.cfg.romCapacity = 320)

/-! ### When operations are refused -/

/-- R15, R149, R164: while `halted = 1` every operation but `RESET` and `SNAP` is refused; `SNAP` keeps `halted`, and
`RESET` alone clears it. -/
def Obligations.HaltedBoardServesResetAndSnapOnly : Prop :=
  ∀ (i : Instr) (s : State), s.cfg.ok = true → s.halted = true →
    (i ≠ .reset → i ≠ .snap → exec i s = .refused .halted) ∧
    (∀ t, exec i s = .next t → t.halted = false → i = .reset) ∧
    (s.phase = .between → ∃ t, exec .reset s = .next t ∧ t.halted = false)

/-- The phase of a tick at which XO fires a micro-operation (R122). -/
def firedAt : Instr → Option Phase
  | .cpuStep => some .one
  | .pccExtract => some .two
  | .pccShift => some .three
  | .sleUpdate => some .four
  | _ => none

/-- R66, R51, R126: on a board that is not halted, an operation of another family, a CPU request outside phase 1, a host
command during a tick and a micro-operation outside its phase are refused; so are `HP.ROMSEL` and the rows ARC.ADDR.*
and CM.*, the parts of requests, outside phase 1.  For the micro-operations and the parts of requests, and for the order
of the checks, the refusal is the model's choice (log 10). -/
def Obligations.MisplacedOperationsAreRefused : Prop :=
  ∀ (i : Instr) (s : State), s.cfg.ok = true → s.halted = false →
    (i.familyOk s.cfg = false → exec i s = .refused .otherFamily) ∧
    (i.isRequest = true → i.familyOk s.cfg = true → s.phase ≠ .one → exec i s = .refused .outsidePhaseOne) ∧
    (((∃ b, i = .hpRomsel b) ∨ (∃ c o, i = .arcAddrRom c o) ∨ (∃ r, i = .arcAddrRam r) ∨ (∃ x, i = .arcAddrFatal01 x) ∨
        (∃ x, i = .arcAddrFatal10 x) ∨ (∃ x, i = .arcAddrFatal11 x) ∨
        i ∈ [.cm000, .cm001, .cm010, .cm100, .cm011, .cm101, .cm110, .cm111]) →
      i.familyOk s.cfg = true → s.phase ≠ .one → exec i s = .refused .outsidePhaseOne) ∧
    (i.isCommand = true → s.phase ≠ .between → exec i s = .refused .duringTick) ∧
    (∀ p, firedAt i = some p → s.phase ≠ p → exec i s = .refused .outOfPhase)

/-- A configuration D39 lists as refused: a zero length or count, RAM chips that do not make up the ARC region, too many
C4 RAM chips, a number of shift registers other than 0 and 3, a direction other than UP, a descriptor of a port bit at
or above C4_PORT_W (of a control line on a board with a chain, of a signal). -/
def listedByD39 (c : Config) : Prop :=
  c.c4NRom = 0 ∨ c.hpNRom = 0 ∨ c.c4RomLen = 0 ∨ c.arcRamLen = 0 ∨ c.arcNRam = 0 ∨ c.arcNRam * c.arcRamLen ≠ 0x2000 ∨
    16 < c.c4NRam ∨ (c.nShift ≠ 0 ∧ c.nShift ≠ 3) ∨ c.shiftDir ≠ .up ∨
    (c.nShift = 3 ∧ ∃ l : LineDesc, c.c4PortW ≤ l.bit ∧
      (l = c.lKclk ∨ l = c.lKdat ∨ some l = c.lKen ∨ l = c.lPclk ∨ l = c.lPdat ∨ some l = c.lPen)) ∨
    ∃ g ∈ c.sigs, g.place = .port ∧ c.c4PortW ≤ g.bit

/-- R7, D39: with a configuration D39 lists no operation is served, nor with any other the rules cannot serve.  Which
others those are, and that the lists of all three families are checked on every board, is log 11. -/
def Obligations.BadConfigurationsAreRefused : Prop :=
  ∀ (i : Instr) (s : State),
    (listedByD39 s.cfg → exec i s = .refused .badConfig) ∧ (s.cfg.ok = false → exec i s = .refused .badConfig)

/-! ### Encodings -/

/-- Decoding the encoding of an instruction gives it back: every instruction, every operand value, every pattern. -/
def Obligations.DecodeInvertsEncode : Prop :=
  ∀ (pattern : BitVec 7) (i : Instr), decode pattern (encode pattern i) = .ok i

/-- The word of a decoded instruction is determined: encoding what was decoded gives the word back, and beside it a `d` and
a blob with which the word decodes to the same instruction, so that they can differ from those decoded only in what the
operation does not use (R50; log 20). -/
def Obligations.EncodeInvertsDecode : Prop :=
  ∀ (pattern : BitVec 7) (i : Instr),
    (∀ q : Req, decode pattern (.req q) = .ok i →
      ∃ d blob, encode pattern i = .req ⟨q.w, d, blob⟩ ∧ decodeReq ⟨q.w, d, blob⟩ = .ok i) ∧
    (∀ p, decode pattern (.phase p) = .ok i → encode pattern i = .phase p) ∧
    (∀ o, decode pattern (.hpop o) = .ok i → encode pattern i = .hpop o) ∧
    (∀ a, decode pattern (.arcAddr a) = .ok i → encode pattern i = .arcAddr a) ∧
    (∀ c, decode pattern (.cm c) = .ok i → encode pattern i = .cm c)

/-- R51, R66: a request word is malformed exactly when a bit its operation's layout does not name is set: `a[15:12]` for
op 2, 3, 4, `a[15:11]` for op 5, `a[15:8]` for op 6 to 9 and D, all of `a` for op A, C, E, F. -/
def Obligations.MalformedWordsAreThoseWithUnnamedBits : Prop :=
  ∀ q : Req, (∃ e, decodeReq q = .error e) ↔
    ((q.w.toNat / 65536 ∈ [0x2, 0x3, 0x4] ∧ q.w.toNat % 65536 / 4096 ≠ 0) ∨
      (q.w.toNat / 65536 = 0x5 ∧ q.w.toNat % 65536 / 2048 ≠ 0) ∨
      (q.w.toNat / 65536 ∈ [0x6, 0x7, 0x8, 0x9, 0xD] ∧ q.w.toNat % 65536 / 256 ≠ 0) ∨
      (q.w.toNat / 65536 ∈ [0xA, 0xC, 0xE, 0xF] ∧ q.w.toNat % 65536 ≠ 0))

/-- R51, R52, R54, R57: words of the spec's own examples and tables decode to the operations they stand for; of the data
of a port write `d[3:0]` alone counts. -/
def Obligations.SpecWordsDecode : Prop :=
  decode 0b0010000 (.req ⟨0x01234, 0, []⟩) = .ok (.arcRd 0x1234) ∧
  decode 0b0010000 (.req ⟨0x12400, 0x05A, []⟩) = .ok (.arcWr 0x2400 0x5A) ∧
  decode 0b0010000 (.req ⟨0x209AB, 0, []⟩) = .ok (.c4Romrd 0x9AB) ∧
  decode 0b0010000 (.req ⟨0x30865, 0, []⟩) = .ok (.c4Ramrd .status 0b000 0x65) ∧
  decode 0b0010000 (.req ⟨0x40065, 0x00A, []⟩) = .ok (.c4Ramwr .char 0b000 0x65 0xA) ∧
  decode 0b0010000 (.req ⟨0x50080, 0x3F2, []⟩) = .ok (.c4Rampw 0b000 0x80 0x2) ∧
  decode 0b0010000 (.req ⟨0x70000, 0x3F6, []⟩) = .ok (.c4Rompw 0x00 0x6) ∧
  decode 0b0010000 (.req ⟨0x80012, 0, []⟩) = .ok (.hpFetch 0x12) ∧
  decode 0b0010000 (.req ⟨0xB0004, 0, []⟩) = .ok (.inject 0x0004) ∧
  decode 0b0010000 (.req ⟨0xD0002, 0, [0xC3]⟩) = .ok (.loadrom 2 [0xC3]) ∧
  decode 0b0010000 (.hpop 0x110) = .ok (.hpRomsel 2) ∧
  decode 0b0010000 (.arcAddr 0x1234) = .ok (.arcAddrRom 2 0x234) ∧
  decode 0b0010000 (.cm 0b100) = .ok .cm100 ∧
  decode 0b0010000 (.phase 3) = .ok .pccShift

/-- A step takes the oldest word presented and runs exactly the instruction it decodes to; when that is a request with
selector fields, the CPU agent's CM and DI become the values it supplied (R17, R18, log 5); with a malformed word it
refuses, with none it leaves the board as it is (log 19). -/
def Obligations.StepRunsTheDecodedInstruction : Prop :=
  (∀ (s : State) (e : Encoded) (rest : List Encoded) (i : Instr), s.inbox = e :: rest →
    decode s.cfg.romselPattern e = .ok i →
    step s = exec i { s with
      inbox := rest
      cpu := { s.cpu with
        cm := match i with
          | .c4Ramrd _ cm _ => cm
          | .c4Ramwr _ cm _ _ => cm
          | .c4Rampw cm _ _ => cm
          | _ => s.cpu.cm
        di := match i with
          | .c4Ramrd _ _ di => di
          | .c4Ramwr _ _ di _ => di
          | .c4Rampw _ di _ => di
          | .c4Rompr di => di
          | .c4Rompw di _ => di
          | _ => s.cpu.di } }) ∧
  (∀ (s : State) (e : Encoded) (rest : List Encoded) (r : DecodeError), s.inbox = e :: rest →
    decode s.cfg.romselPattern e = .error r → step s = .refused (.malformed r)) ∧
  (∀ s : State, s.inbox = [] → step s = .next s)

/-! ### Rules about the whole machine -/

/-- R22: the ROM images are written only by `LOADROM` (and kept by `RESET`); nothing writes the word-select data. -/
def Obligations.OnlyLoadromWritesRom : Prop :=
  ∀ (i : Instr) (s t : State), exec i s = .next t →
    t.hpWs = s.hpWs ∧
    ((∀ n blob, i ≠ .loadrom n blob) → t.arcRom = s.arcRom ∧ t.c4Rom = s.c4Rom ∧ t.hpRom = s.hpRom)

/-- R11, R160: the configuration, and with it the number and size of the chip slots, never changes. -/
def Obligations.ConfigurationNeverChanges : Prop :=
  ∀ s t : State, step s = .next t → t.cfg = s.cfg

/-- R16: `diag` is append-only: whatever an operation other than `RESET` does, the records before it stay, in front. -/
def Obligations.DiagnosticsAreAppendOnly : Prop :=
  ∀ (i : Instr) (s t : State), exec i s = .next t → i ≠ .reset → s.diag <+: t.diag

/-- R16, R144: no rule reads `diag`: with other records in it an operation does the same and appends the same records. -/
def Obligations.NothingReadsTheDiagnostics : Prop :=
  ∀ (i : Instr) (s t : State) (d : List Diag), exec i s = .next t →
    ∃ d', exec i { s with diag := d } = .next { t with diag := d' } ∧
      (i ≠ .reset → ∃ new, t.diag = s.diag ++ new ∧ d' = d ++ new)

/-- R13, R14, R15, R16, R19, R20, R21, R22, R24, R25, R39: each piece of state changes only through the operations the
spec names as its writers (`SLE.UPDATE`, `PCC.SHIFT`, `HP.ROMSEL` inside `HP.FETCH`, the port writes, `INJECT`, the
writes to RAM, `LOADROM`, ...), a tick or CPU step that runs them, the fatal entry, or `RESET`.  The response is an
output and no state of the board; that the rows CM.* append records is log 9. -/
def Obligations.EachStateHasItsWriters : Prop :=
  ∀ (i : Instr) (s t : State), exec i s = .next t → i ≠ .reset →
    (i ≠ .sleUpdate → i ≠ .tick → t.latch = s.latch ∧ t.pulse = s.pulse) ∧
    (i ≠ .pccShift → i ≠ .tick → t.clkPrevK = s.clkPrevK ∧ t.clkPrevP = s.clkPrevP ∧
      t.srK = s.srK ∧ t.srA = s.srA ∧ t.srB = s.srB) ∧
    ((∀ a, i ≠ .hpFetch a) → (∀ b, i ≠ .hpRomsel b) → i ≠ .tick → i ≠ .cpuStep → t.romSel = s.romSel) ∧
    ((∀ cm di v, i ≠ .c4Rampw cm di v) → (∀ di v, i ≠ .c4Rompw di v) → i ≠ .tick → i ≠ .cpuStep →
      t.portOut = s.portOut) ∧
    (i ≠ .tick → t.portIn = s.portIn) ∧
    ((∀ a v, i ≠ .arcWr a v) → i ≠ .tick → i ≠ .cpuStep → t.arcRam = s.arcRam) ∧
    ((∀ k cm di v, i ≠ .c4Ramwr k cm di v) → i ≠ .tick → i ≠ .cpuStep → t.c4Ram = s.c4Ram) ∧
    ((∀ n blob, i ≠ .loadrom n blob) → t.arcRom = s.arcRom ∧ t.c4Rom = s.c4Rom ∧ t.hpRom = s.hpRom) ∧
    t.hpWs = s.hpWs ∧ t.cfg = s.cfg ∧ t.inbox = s.inbox ∧
    ((∀ v, i ≠ .inject v) → i ≠ .tick → t.keyIn = s.keyIn ∨ (s.halted = false ∧ t.halted = true ∧ t.keyIn = none)) ∧
    (t.halted = s.halted ∨
      (s.halted = false ∧ t.halted = true ∧
        ((∃ a, i = .arcRd a) ∨ (∃ a v, i = .arcWr a v) ∨ i = .cpuStep ∨ i = .tick))) ∧
    ((∀ a v, i ≠ .arcWr a v) → (∀ k cm di, i ≠ .c4Ramrd k cm di) → (∀ k cm di v, i ≠ .c4Ramwr k cm di v) →
      (∀ cm di v, i ≠ .c4Rampw cm di v) → i ∉ [.cm011, .cm101, .cm110, .cm111] → i ≠ .tick → i ≠ .cpuStep →
      t.diag = s.diag) ∧
    (i.isRequest = false → i ≠ .tick → i ≠ .cpuStep → t.cpu = s.cpu) ∧
    (i ≠ .tick → t.halted = s.halted → t.phase = s.phase) ∧
    (i ≠ .pccExtract → i ≠ .pccShift → i ≠ .tick → t.halted = s.halted → t.lines = s.lines)
end

