-- ==== Sys2Proof/Laws/Memory.lean ====
section
/-! SUPPORT. The laws of the memories: a read after a write, every other cell unchanged, every operation keeps the
canonical form, and what installing a chip's words does. -/

namespace Sys2Proof.Memory

variable {w : Nat}

@[simp] theorem read_nil (a : Nat) : Memory.read ([] : Memory w) a = 0 := rfl

theorem read_cons (b : Nat) (u : BitVec w) (m : Memory w) (a : Nat) :
    Memory.read ((b, u) :: m) a = if a = b then u else Memory.read m a := rfl

/-! ### The canonical form -/

theorem wfFrom_mono {lo lo' : Nat} {m : Memory w} (h : lo' ≤ lo) (hm : m.wfFrom lo = true) : m.wfFrom lo' = true := by
  cases m with
  | nil => rfl
  | cons p m =>
    obtain ⟨a, v⟩ := p
    simp only [wfFrom, Bool.and_eq_true, decide_eq_true_eq] at hm ⊢
    exact ⟨⟨by omega, hm.1.2⟩, hm.2⟩

/-- Nothing is listed below the bound of the form. -/
theorem read_of_lt {lo : Nat} {m : Memory w} (hm : m.wfFrom lo = true) {a : Nat} (h : a < lo) : m.read a = 0 := by
  induction m generalizing lo with
  | nil => rfl
  | cons p m ih =>
    obtain ⟨b, u⟩ := p
    simp only [wfFrom, Bool.and_eq_true, decide_eq_true_eq] at hm
    rw [read_cons, if_neg (by omega)]
    exact ih hm.2 (by omega)

theorem wfFrom_consWord {lo a : Nat} {v : BitVec w} {m : Memory w} (h : lo ≤ a) (hm : m.wfFrom (a + 1) = true) :
    (Memory.consWord a v m).wfFrom lo = true := by
  unfold consWord
  split
  · exact wfFrom_mono (by omega) hm
  · simp_all [wfFrom]

theorem read_consWord {a : Nat} {v : BitVec w} {m : Memory w} (hm : m.wfFrom (a + 1) = true) (c : Nat) :
    (Memory.consWord a v m).read c = if c = a then v else m.read c := by
  unfold consWord
  split
  · split
    · subst_vars; exact read_of_lt hm (by omega)
    · rfl
  · exact read_cons _ _ _ _

theorem read_consWord_other {a c : Nat} (v : BitVec w) (m : Memory w) (h : c ≠ a) :
    (Memory.consWord a v m).read c = m.read c := by
  unfold consWord
  split
  · rfl
  · rw [read_cons, if_neg h]

/-! ### Writing one word -/

theorem write_wfFrom {lo a : Nat} {v : BitVec w} {m : Memory w} (h : lo ≤ a) (hm : m.wfFrom lo = true) :
    (m.write a v).wfFrom lo = true := by
  induction m generalizing lo with
  | nil => exact wfFrom_consWord h rfl
  | cons p m ih =>
    obtain ⟨b, u⟩ := p
    simp only [wfFrom, Bool.and_eq_true, decide_eq_true_eq] at hm
    unfold write
    split
    · exact wfFrom_consWord h (by simp [wfFrom]; exact ⟨⟨by omega, hm.1.2⟩, hm.2⟩)
    · split
      · subst_vars; exact wfFrom_consWord h hm.2
      · simp only [wfFrom, Bool.and_eq_true, decide_eq_true_eq]
        exact ⟨hm.1, ih (by omega) hm.2⟩

/-- Writing keeps the canonical form. -/
theorem write_wf {m : Memory w} (a : Nat) (v : BitVec w) (hm : m.wf = true) : (m.write a v).wf = true :=
  write_wfFrom (Nat.zero_le a) hm

theorem read_write_same_from {lo : Nat} {m : Memory w} (a : Nat) (v : BitVec w) (hm : m.wfFrom lo = true) :
    (m.write a v).read a = v := by
  induction m generalizing lo with
  | nil => simp [write, read_consWord (m := ([] : Memory w)) (a := a) rfl]
  | cons p m ih =>
    obtain ⟨b, u⟩ := p
    simp only [wfFrom, Bool.and_eq_true, decide_eq_true_eq] at hm
    unfold write
    split
    · rw [read_consWord (by simp [wfFrom]; exact ⟨⟨by omega, hm.1.2⟩, hm.2⟩), if_pos rfl]
    · split
      · subst_vars; rw [read_consWord hm.2, if_pos rfl]
      · rw [read_cons, if_neg (by omega)]; exact ih hm.2

/-- A read after a write to the same cell gives the word written. -/
theorem read_write_same {m : Memory w} (a : Nat) (v : BitVec w) (hm : m.wf = true) : (m.write a v).read a = v :=
  read_write_same_from a v hm

/-- A write leaves every other cell alone. -/
theorem read_write_other (m : Memory w) {a c : Nat} (v : BitVec w) (h : c ≠ a) :
    (m.write a v).read c = m.read c := by
  induction m with
  | nil => exact read_consWord_other v [] h
  | cons p m ih =>
    obtain ⟨b, u⟩ := p
    unfold write
    split
    · exact read_consWord_other v _ h
    · split
      · subst_vars; rw [read_consWord_other v m h, read_cons, if_neg h]
      · rw [read_cons, read_cons, ih]

/-- Writing a word twice is writing the second. -/
theorem read_write {m : Memory w} (a c : Nat) (v : BitVec w) (hm : m.wf = true) :
    (m.write a v).read c = if c = a then v else m.read c := by
  split
  · subst_vars; exact read_write_same _ v hm
  · exact read_write_other m v (by assumption)

theorem all_consWord {P : Nat × BitVec w → Bool} {a : Nat} {v : BitVec w} {m : Memory w}
    (ha : P (a, v) = true) (hm : m.all P = true) : (Memory.consWord a v m).all P = true := by
  unfold consWord
  split <;> simp_all

theorem all_write {P : Nat × BitVec w → Bool} {a : Nat} {v : BitVec w} {m : Memory w}
    (ha : P (a, v) = true) (hm : m.all P = true) : (m.write a v).all P = true := by
  induction m with
  | nil => exact all_consWord ha rfl
  | cons p m ih =>
    obtain ⟨b, u⟩ := p
    simp only [List.all_cons, Bool.and_eq_true] at hm
    unfold write
    split
    · exact all_consWord ha (by simp [hm])
    · split
      · exact all_consWord ha hm.2
      · simp [hm.1, ih hm.2]

/-- A write below a bound keeps every cell below it. -/
theorem write_below {n a : Nat} {v : BitVec w} {m : Memory w} (ha : a < n) (hm : m.below n = true) :
    (m.write a v).below n = true := all_write (by simpa using ha) hm

/-! ### Words in a row -/

theorem ofWords_wfFrom {lo a : Nat} (h : lo ≤ a) (vs : List (BitVec w)) :
    (Memory.ofWords a vs).wfFrom lo = true := by
  induction vs generalizing a lo with
  | nil => rfl
  | cons v vs ih => exact wfFrom_consWord h (ih (Nat.le_refl _))

theorem ofWords_all {P : Nat × BitVec w → Bool} {a : Nat} {vs : List (BitVec w)}
    (h : ∀ k (hk : k < vs.length), P (a + k, vs[k]) = true) : (Memory.ofWords a vs).all P = true := by
  induction vs generalizing a with
  | nil => rfl
  | cons v vs ih =>
    refine all_consWord (h 0 (by simp)) (ih fun k hk => ?_)
    have := h (k + 1) (by simpa using hk)
    simpa [Nat.add_comm, Nat.add_left_comm] using this

/-- The words in a row read back; zero beyond their end. -/
theorem read_ofWords (a : Nat) (vs : List (BitVec w)) (k : Nat) :
    (Memory.ofWords a vs).read (a + k) = vs.getD k 0 := by
  induction vs generalizing a k with
  | nil => simp [ofWords]
  | cons v vs ih =>
    rw [ofWords, read_consWord (ofWords_wfFrom (Nat.le_refl _) vs)]
    cases k with
    | zero => simp
    | succ k =>
      rw [if_neg (by omega), show a + (k + 1) = a + 1 + k by omega, ih]
      simp

theorem read_ofWords_lt {a c : Nat} (vs : List (BitVec w)) (h : c < a) : (Memory.ofWords a vs).read c = 0 :=
  read_of_lt (ofWords_wfFrom (Nat.le_refl a) vs) h

/-! ### Installing a chip's words -/

theorem read_append (l m : Memory w) (a : Nat) :
    Memory.read (l ++ m) a = if l.any (fun p => decide (p.1 = a)) then l.read a else m.read a := by
  induction l with
  | nil => simp
  | cons p l ih =>
    obtain ⟨b, u⟩ := p
    rw [List.cons_append, read_cons, read_cons, ih]
    by_cases h : a = b
    · simp [h]
    · simp [h, Ne.symm h]

theorem read_eq_zero_of_not_any {m : Memory w} {a : Nat} (h : m.any (fun p => decide (p.1 = a)) = false) :
    m.read a = 0 := by
  induction m with
  | nil => rfl
  | cons p m ih =>
    obtain ⟨b, u⟩ := p
    simp only [List.any_cons, Bool.or_eq_false_iff, decide_eq_false_iff_not] at h
    rw [read_cons, if_neg (fun e => h.1 e.symm)]
    exact ih h.2

/-- Reading past two parts of which the second holds nothing at the cell. -/
theorem read_append_left {l m : Memory w} {a : Nat} (h : m.read a = 0) : Memory.read (l ++ m) a = l.read a := by
  rw [read_append]
  split
  · rfl
  · rename_i hn
    rw [h, read_eq_zero_of_not_any (Bool.eq_false_iff.mpr hn)]

theorem read_append_right {l m : Memory w} {a : Nat} (h : ∀ p ∈ l, p.1 ≠ a) : Memory.read (l ++ m) a = m.read a := by
  rw [read_append, if_neg]
  simp only [List.any_eq_true, decide_eq_true_eq, not_exists, not_and]
  exact h

theorem read_filter {P : Nat → Bool} (m : Memory w) {a : Nat} (h : P a = true) :
    Memory.read (m.filter (fun p => P p.1)) a = m.read a := by
  induction m with
  | nil => rfl
  | cons p m ih =>
    obtain ⟨b, u⟩ := p
    rw [List.filter_cons]
    split
    · rw [read_cons, read_cons, ih]
    · rename_i hb
      have hab : a ≠ b := fun e => hb (by simpa [← e] using h)
      rw [ih, read_cons, if_neg hab]

theorem read_filter_out {P : Nat → Bool} (m : Memory w) {a : Nat} (h : P a = false) :
    Memory.read (m.filter (fun p => P p.1)) a = 0 := by
  refine read_eq_zero_of_not_any ?_
  simp only [List.any_eq_false, List.mem_filter, decide_eq_true_eq]
  rintro ⟨b, u⟩ ⟨_, hb⟩ rfl
  simp [h] at hb

/-- Inside the chip the words installed read back, zero beyond their end (R166). -/
theorem read_install_inside (m : Memory w) {base len k : Nat} (vs : List (BitVec w)) (hk : k < len) :
    (m.install base len vs).read (base + k) = vs.getD k 0 := by
  unfold install
  rw [read_append_right, read_append_left, read_ofWords]
  · simp [List.getD_eq_getElem?_getD, hk]
  · exact read_filter_out (P := fun c => decide (base + len ≤ c)) m (by simpa using hk)
  · intro p hp
    simp only [List.mem_filter, decide_eq_true_eq] at hp
    omega

/-- Outside the chip nothing changes. -/
theorem read_install_outside (m : Memory w) {base len a : Nat} (vs : List (BitVec w))
    (h : a < base ∨ base + len ≤ a) : (m.install base len vs).read a = m.read a := by
  unfold install
  have hl : ∀ p ∈ Memory.ofWords base (vs.take len), base ≤ p.1 ∧ p.1 < base + len := by
    have := ofWords_all (P := fun p => decide (base ≤ p.1 ∧ p.1 < base + len)) (a := base) (vs := vs.take len)
      (fun k hk => by simp at hk; simp; omega)
    simpa using this
  rcases h with h | h
  · rw [read_append_left]
    · exact read_filter (P := fun c => decide (c < base)) m (by simpa using h)
    · rw [read_append_right (fun p hp => by have := hl p hp; omega)]
      exact read_filter_out (P := fun c => decide (base + len ≤ c)) m (by simp; omega)
  · rw [read_append_right, read_append_right (fun p hp => by have := hl p hp; omega)]
    · exact read_filter (P := fun c => decide (base + len ≤ c)) m (by simpa using h)
    · intro p hp
      simp only [List.mem_filter, decide_eq_true_eq] at hp
      omega

/-! ### The canonical form of an install -/

theorem wfFrom_append {lo mid : Nat} {l m : Memory w} (hl : l.wfFrom lo = true) (hlt : ∀ p ∈ l, p.1 < mid)
    (hlo : lo ≤ mid) (hm : m.wfFrom mid = true) : Memory.wfFrom lo (l ++ m) = true := by
  induction l generalizing lo with
  | nil => exact wfFrom_mono hlo hm
  | cons p l ih =>
    obtain ⟨a, v⟩ := p
    simp only [wfFrom, Bool.and_eq_true, decide_eq_true_eq] at hl
    have ha : a < mid := hlt (a, v) (by simp)
    simp only [List.cons_append, wfFrom, Bool.and_eq_true, decide_eq_true_eq]
    exact ⟨hl.1, ih hl.2 (fun q hq => hlt q (by simp [hq])) ha⟩

theorem wfFrom_filter {lo lo' : Nat} {P : Nat → Bool} {m : Memory w} (hm : m.wfFrom lo = true)
    (h : ∀ a, P a = true → lo' ≤ a) : Memory.wfFrom lo' (m.filter (fun p => P p.1)) = true := by
  induction m generalizing lo lo' with
  | nil => rfl
  | cons p m ih =>
    obtain ⟨a, v⟩ := p
    simp only [wfFrom, Bool.and_eq_true, decide_eq_true_eq] at hm
    rw [List.filter_cons]
    split
    · rename_i hp
      simp only [wfFrom, Bool.and_eq_true, decide_eq_true_eq]
      refine ⟨⟨h a hp, hm.1.2⟩, ?_⟩
      have : ∀ {l : Memory w}, l.wfFrom (a + 1) = true → Memory.wfFrom (a + 1) (l.filter (fun p => P p.1)) = true := by
        intro l hl
        clear ih hm
        generalize a + 1 = lo at hl ⊢
        induction l generalizing lo with
        | nil => rfl
        | cons q l ihl =>
          obtain ⟨b, u⟩ := q
          simp only [wfFrom, Bool.and_eq_true, decide_eq_true_eq] at hl
          rw [List.filter_cons]
          split
          · simp only [wfFrom, Bool.and_eq_true, decide_eq_true_eq]
            exact ⟨hl.1, ihl _ hl.2⟩
          · exact wfFrom_mono (by omega) (ihl _ hl.2)
      exact this hm.2
    · exact ih hm.2 h

/-- Installing a chip's words keeps the canonical form. -/
theorem install_wf {m : Memory w} (base len : Nat) (vs : List (BitVec w)) (hm : m.wf = true) :
    (m.install base len vs).wf = true := by
  unfold install
  refine wfFrom_append (mid := base) (wfFrom_filter (P := fun c => decide (c < base)) hm (fun _ _ => Nat.zero_le _)) ?_
    (Nat.zero_le _) (wfFrom_append (mid := base + len) (ofWords_wfFrom (Nat.le_refl _) _) ?_ (by omega)
      (wfFrom_filter (P := fun c => decide (base + len ≤ c)) hm (fun a ha => by simpa using ha)))
  · intro p hp
    simp only [List.mem_filter, decide_eq_true_eq] at hp
    exact hp.2
  · have := ofWords_all (P := fun p => decide (p.1 < base + len)) (a := base) (vs := vs.take len)
      (fun k hk => by simp at hk; simp; omega)
    simpa using this

/-- What holds of every cell before, and of the cells installed, holds of every cell after. -/
theorem install_all {P : Nat × BitVec w → Bool} {m : Memory w} {base len : Nat} {vs : List (BitVec w)}
    (hv : ∀ k (hk : k < vs.length), k < len → P (base + k, vs[k]) = true) (hm : m.all P = true) :
    (m.install base len vs).all P = true := by
  unfold install
  have hf : ∀ Q : Nat × BitVec w → Bool, (m.filter Q).all P = true := by
    intro Q
    simp only [List.all_eq_true, List.mem_filter] at hm ⊢
    exact fun p hp => hm p hp.1
  have ho : (Memory.ofWords base (vs.take len)).all P = true := by
    refine ofWords_all fun k hk => ?_
    simp only [List.length_take, Nat.lt_min] at hk
    simpa using hv k hk.2 hk.1
  simp only [List.all_append, hf, ho, Bool.and_self]

end Sys2Proof.Memory
end

