-- ==== Sys2Proof/Laws/State.lean ====
section
/-! SUPPORT. One lemma for every field of State and every update the operations make: the field after the update.
Later proofs simplify with these and unfold no update. -/

namespace Sys2Proof.Machine

/-! ### `addDiag` -/

@[simp] theorem State.addDiag_cfg (s : State) (r : Diag) : (s.addDiag r).cfg = s.cfg := rfl
@[simp] theorem State.addDiag_inbox (s : State) (r : Diag) : (s.addDiag r).inbox = s.inbox := rfl
@[simp] theorem State.addDiag_phase (s : State) (r : Diag) : (s.addDiag r).phase = s.phase := rfl
@[simp] theorem State.addDiag_halted (s : State) (r : Diag) : (s.addDiag r).halted = s.halted := rfl
@[simp] theorem State.addDiag_keyIn (s : State) (r : Diag) : (s.addDiag r).keyIn = s.keyIn := rfl
@[simp] theorem State.addDiag_diag (s : State) (r : Diag) : (s.addDiag r).diag = s.diag ++ [r] := rfl
@[simp] theorem State.addDiag_latch (s : State) (r : Diag) : (s.addDiag r).latch = s.latch := rfl
@[simp] theorem State.addDiag_pulse (s : State) (r : Diag) : (s.addDiag r).pulse = s.pulse := rfl
@[simp] theorem State.addDiag_clkPrevK (s : State) (r : Diag) : (s.addDiag r).clkPrevK = s.clkPrevK := rfl
@[simp] theorem State.addDiag_clkPrevP (s : State) (r : Diag) : (s.addDiag r).clkPrevP = s.clkPrevP := rfl
@[simp] theorem State.addDiag_lines (s : State) (r : Diag) : (s.addDiag r).lines = s.lines := rfl
@[simp] theorem State.addDiag_srK (s : State) (r : Diag) : (s.addDiag r).srK = s.srK := rfl
@[simp] theorem State.addDiag_srA (s : State) (r : Diag) : (s.addDiag r).srA = s.srA := rfl
@[simp] theorem State.addDiag_srB (s : State) (r : Diag) : (s.addDiag r).srB = s.srB := rfl
@[simp] theorem State.addDiag_romSel (s : State) (r : Diag) : (s.addDiag r).romSel = s.romSel := rfl
@[simp] theorem State.addDiag_portOut (s : State) (r : Diag) : (s.addDiag r).portOut = s.portOut := rfl
@[simp] theorem State.addDiag_portIn (s : State) (r : Diag) : (s.addDiag r).portIn = s.portIn := rfl
@[simp] theorem State.addDiag_arcRom (s : State) (r : Diag) : (s.addDiag r).arcRom = s.arcRom := rfl
@[simp] theorem State.addDiag_c4Rom (s : State) (r : Diag) : (s.addDiag r).c4Rom = s.c4Rom := rfl
@[simp] theorem State.addDiag_hpRom (s : State) (r : Diag) : (s.addDiag r).hpRom = s.hpRom := rfl
@[simp] theorem State.addDiag_hpWs (s : State) (r : Diag) : (s.addDiag r).hpWs = s.hpWs := rfl
@[simp] theorem State.addDiag_arcRam (s : State) (r : Diag) : (s.addDiag r).arcRam = s.arcRam := rfl
@[simp] theorem State.addDiag_c4Ram (s : State) (r : Diag) : (s.addDiag r).c4Ram = s.c4Ram := rfl
@[simp] theorem State.addDiag_cpu (s : State) (r : Diag) : (s.addDiag r).cpu = s.cpu := rfl
@[simp] theorem State.addDiag_resp (s : State) (r : Diag) : (s.addDiag r).resp = s.resp := rfl

/-! ### `addDiagIf` -/

@[simp] theorem State.addDiagIf_cfg (s : State) (b : Bool) (r : Diag) :
    (s.addDiagIf b r).cfg = s.cfg := by cases b <;> simp [State.addDiagIf, State.addDiag]
@[simp] theorem State.addDiagIf_inbox (s : State) (b : Bool) (r : Diag) :
    (s.addDiagIf b r).inbox = s.inbox := by cases b <;> simp [State.addDiagIf, State.addDiag]
@[simp] theorem State.addDiagIf_phase (s : State) (b : Bool) (r : Diag) :
    (s.addDiagIf b r).phase = s.phase := by cases b <;> simp [State.addDiagIf, State.addDiag]
@[simp] theorem State.addDiagIf_halted (s : State) (b : Bool) (r : Diag) :
    (s.addDiagIf b r).halted = s.halted := by cases b <;> simp [State.addDiagIf, State.addDiag]
@[simp] theorem State.addDiagIf_keyIn (s : State) (b : Bool) (r : Diag) :
    (s.addDiagIf b r).keyIn = s.keyIn := by cases b <;> simp [State.addDiagIf, State.addDiag]
@[simp] theorem State.addDiagIf_diag (s : State) (b : Bool) (r : Diag) :
    (s.addDiagIf b r).diag = s.diag ++ (if b then [r] else []) := by cases b <;> simp [State.addDiagIf, State.addDiag]
@[simp] theorem State.addDiagIf_latch (s : State) (b : Bool) (r : Diag) :
    (s.addDiagIf b r).latch = s.latch := by cases b <;> simp [State.addDiagIf, State.addDiag]
@[simp] theorem State.addDiagIf_pulse (s : State) (b : Bool) (r : Diag) :
    (s.addDiagIf b r).pulse = s.pulse := by cases b <;> simp [State.addDiagIf, State.addDiag]
@[simp] theorem State.addDiagIf_clkPrevK (s : State) (b : Bool) (r : Diag) :
    (s.addDiagIf b r).clkPrevK = s.clkPrevK := by cases b <;> simp [State.addDiagIf, State.addDiag]
@[simp] theorem State.addDiagIf_clkPrevP (s : State) (b : Bool) (r : Diag) :
    (s.addDiagIf b r).clkPrevP = s.clkPrevP := by cases b <;> simp [State.addDiagIf, State.addDiag]
@[simp] theorem State.addDiagIf_lines (s : State) (b : Bool) (r : Diag) :
    (s.addDiagIf b r).lines = s.lines := by cases b <;> simp [State.addDiagIf, State.addDiag]
@[simp] theorem State.addDiagIf_srK (s : State) (b : Bool) (r : Diag) :
    (s.addDiagIf b r).srK = s.srK := by cases b <;> simp [State.addDiagIf, State.addDiag]
@[simp] theorem State.addDiagIf_srA (s : State) (b : Bool) (r : Diag) :
    (s.addDiagIf b r).srA = s.srA := by cases b <;> simp [State.addDiagIf, State.addDiag]
@[simp] theorem State.addDiagIf_srB (s : State) (b : Bool) (r : Diag) :
    (s.addDiagIf b r).srB = s.srB := by cases b <;> simp [State.addDiagIf, State.addDiag]
@[simp] theorem State.addDiagIf_romSel (s : State) (b : Bool) (r : Diag) :
    (s.addDiagIf b r).romSel = s.romSel := by cases b <;> simp [State.addDiagIf, State.addDiag]
@[simp] theorem State.addDiagIf_portOut (s : State) (b : Bool) (r : Diag) :
    (s.addDiagIf b r).portOut = s.portOut := by cases b <;> simp [State.addDiagIf, State.addDiag]
@[simp] theorem State.addDiagIf_portIn (s : State) (b : Bool) (r : Diag) :
    (s.addDiagIf b r).portIn = s.portIn := by cases b <;> simp [State.addDiagIf, State.addDiag]
@[simp] theorem State.addDiagIf_arcRom (s : State) (b : Bool) (r : Diag) :
    (s.addDiagIf b r).arcRom = s.arcRom := by cases b <;> simp [State.addDiagIf, State.addDiag]
@[simp] theorem State.addDiagIf_c4Rom (s : State) (b : Bool) (r : Diag) :
    (s.addDiagIf b r).c4Rom = s.c4Rom := by cases b <;> simp [State.addDiagIf, State.addDiag]
@[simp] theorem State.addDiagIf_hpRom (s : State) (b : Bool) (r : Diag) :
    (s.addDiagIf b r).hpRom = s.hpRom := by cases b <;> simp [State.addDiagIf, State.addDiag]
@[simp] theorem State.addDiagIf_hpWs (s : State) (b : Bool) (r : Diag) :
    (s.addDiagIf b r).hpWs = s.hpWs := by cases b <;> simp [State.addDiagIf, State.addDiag]
@[simp] theorem State.addDiagIf_arcRam (s : State) (b : Bool) (r : Diag) :
    (s.addDiagIf b r).arcRam = s.arcRam := by cases b <;> simp [State.addDiagIf, State.addDiag]
@[simp] theorem State.addDiagIf_c4Ram (s : State) (b : Bool) (r : Diag) :
    (s.addDiagIf b r).c4Ram = s.c4Ram := by cases b <;> simp [State.addDiagIf, State.addDiag]
@[simp] theorem State.addDiagIf_cpu (s : State) (b : Bool) (r : Diag) :
    (s.addDiagIf b r).cpu = s.cpu := by cases b <;> simp [State.addDiagIf, State.addDiag]
@[simp] theorem State.addDiagIf_resp (s : State) (b : Bool) (r : Diag) :
    (s.addDiagIf b r).resp = s.resp := by cases b <;> simp [State.addDiagIf, State.addDiag]

/-! ### `bankLookup` -/

@[simp] theorem State.bankLookup_cfg (s : State) (cm : BitVec 3) :
    (s.bankLookup cm).cfg = s.cfg := by simp [State.bankLookup]
@[simp] theorem State.bankLookup_inbox (s : State) (cm : BitVec 3) :
    (s.bankLookup cm).inbox = s.inbox := by simp [State.bankLookup]
@[simp] theorem State.bankLookup_phase (s : State) (cm : BitVec 3) :
    (s.bankLookup cm).phase = s.phase := by simp [State.bankLookup]
@[simp] theorem State.bankLookup_halted (s : State) (cm : BitVec 3) :
    (s.bankLookup cm).halted = s.halted := by simp [State.bankLookup]
@[simp] theorem State.bankLookup_keyIn (s : State) (cm : BitVec 3) :
    (s.bankLookup cm).keyIn = s.keyIn := by simp [State.bankLookup]
@[simp] theorem State.bankLookup_diag (s : State) (cm : BitVec 3) :
    (s.bankLookup cm).diag = s.diag ++ (if (bank cm).2 then [.badCm cm] else []) := by simp [State.bankLookup]
@[simp] theorem State.bankLookup_latch (s : State) (cm : BitVec 3) :
    (s.bankLookup cm).latch = s.latch := by simp [State.bankLookup]
@[simp] theorem State.bankLookup_pulse (s : State) (cm : BitVec 3) :
    (s.bankLookup cm).pulse = s.pulse := by simp [State.bankLookup]
@[simp] theorem State.bankLookup_clkPrevK (s : State) (cm : BitVec 3) :
    (s.bankLookup cm).clkPrevK = s.clkPrevK := by simp [State.bankLookup]
@[simp] theorem State.bankLookup_clkPrevP (s : State) (cm : BitVec 3) :
    (s.bankLookup cm).clkPrevP = s.clkPrevP := by simp [State.bankLookup]
@[simp] theorem State.bankLookup_lines (s : State) (cm : BitVec 3) :
    (s.bankLookup cm).lines = s.lines := by simp [State.bankLookup]
@[simp] theorem State.bankLookup_srK (s : State) (cm : BitVec 3) :
    (s.bankLookup cm).srK = s.srK := by simp [State.bankLookup]
@[simp] theorem State.bankLookup_srA (s : State) (cm : BitVec 3) :
    (s.bankLookup cm).srA = s.srA := by simp [State.bankLookup]
@[simp] theorem State.bankLookup_srB (s : State) (cm : BitVec 3) :
    (s.bankLookup cm).srB = s.srB := by simp [State.bankLookup]
@[simp] theorem State.bankLookup_romSel (s : State) (cm : BitVec 3) :
    (s.bankLookup cm).romSel = s.romSel := by simp [State.bankLookup]
@[simp] theorem State.bankLookup_portOut (s : State) (cm : BitVec 3) :
    (s.bankLookup cm).portOut = s.portOut := by simp [State.bankLookup]
@[simp] theorem State.bankLookup_portIn (s : State) (cm : BitVec 3) :
    (s.bankLookup cm).portIn = s.portIn := by simp [State.bankLookup]
@[simp] theorem State.bankLookup_arcRom (s : State) (cm : BitVec 3) :
    (s.bankLookup cm).arcRom = s.arcRom := by simp [State.bankLookup]
@[simp] theorem State.bankLookup_c4Rom (s : State) (cm : BitVec 3) :
    (s.bankLookup cm).c4Rom = s.c4Rom := by simp [State.bankLookup]
@[simp] theorem State.bankLookup_hpRom (s : State) (cm : BitVec 3) :
    (s.bankLookup cm).hpRom = s.hpRom := by simp [State.bankLookup]
@[simp] theorem State.bankLookup_hpWs (s : State) (cm : BitVec 3) :
    (s.bankLookup cm).hpWs = s.hpWs := by simp [State.bankLookup]
@[simp] theorem State.bankLookup_arcRam (s : State) (cm : BitVec 3) :
    (s.bankLookup cm).arcRam = s.arcRam := by simp [State.bankLookup]
@[simp] theorem State.bankLookup_c4Ram (s : State) (cm : BitVec 3) :
    (s.bankLookup cm).c4Ram = s.c4Ram := by simp [State.bankLookup]
@[simp] theorem State.bankLookup_cpu (s : State) (cm : BitVec 3) :
    (s.bankLookup cm).cpu = s.cpu := by simp [State.bankLookup]
@[simp] theorem State.bankLookup_resp (s : State) (cm : BitVec 3) :
    (s.bankLookup cm).resp = s.resp := by simp [State.bankLookup]

/-! ### `answer` -/

@[simp] theorem State.answer_cfg (s : State) (r : DataWord) : (s.answer r).cfg = s.cfg := rfl
@[simp] theorem State.answer_inbox (s : State) (r : DataWord) : (s.answer r).inbox = s.inbox := rfl
@[simp] theorem State.answer_phase (s : State) (r : DataWord) : (s.answer r).phase = s.phase := rfl
@[simp] theorem State.answer_halted (s : State) (r : DataWord) : (s.answer r).halted = s.halted := rfl
@[simp] theorem State.answer_keyIn (s : State) (r : DataWord) : (s.answer r).keyIn = s.keyIn := rfl
@[simp] theorem State.answer_diag (s : State) (r : DataWord) : (s.answer r).diag = s.diag := rfl
@[simp] theorem State.answer_latch (s : State) (r : DataWord) : (s.answer r).latch = s.latch := rfl
@[simp] theorem State.answer_pulse (s : State) (r : DataWord) : (s.answer r).pulse = s.pulse := rfl
@[simp] theorem State.answer_clkPrevK (s : State) (r : DataWord) : (s.answer r).clkPrevK = s.clkPrevK := rfl
@[simp] theorem State.answer_clkPrevP (s : State) (r : DataWord) : (s.answer r).clkPrevP = s.clkPrevP := rfl
@[simp] theorem State.answer_lines (s : State) (r : DataWord) : (s.answer r).lines = s.lines := rfl
@[simp] theorem State.answer_srK (s : State) (r : DataWord) : (s.answer r).srK = s.srK := rfl
@[simp] theorem State.answer_srA (s : State) (r : DataWord) : (s.answer r).srA = s.srA := rfl
@[simp] theorem State.answer_srB (s : State) (r : DataWord) : (s.answer r).srB = s.srB := rfl
@[simp] theorem State.answer_romSel (s : State) (r : DataWord) : (s.answer r).romSel = s.romSel := rfl
@[simp] theorem State.answer_portOut (s : State) (r : DataWord) : (s.answer r).portOut = s.portOut := rfl
@[simp] theorem State.answer_portIn (s : State) (r : DataWord) : (s.answer r).portIn = s.portIn := rfl
@[simp] theorem State.answer_arcRom (s : State) (r : DataWord) : (s.answer r).arcRom = s.arcRom := rfl
@[simp] theorem State.answer_c4Rom (s : State) (r : DataWord) : (s.answer r).c4Rom = s.c4Rom := rfl
@[simp] theorem State.answer_hpRom (s : State) (r : DataWord) : (s.answer r).hpRom = s.hpRom := rfl
@[simp] theorem State.answer_hpWs (s : State) (r : DataWord) : (s.answer r).hpWs = s.hpWs := rfl
@[simp] theorem State.answer_arcRam (s : State) (r : DataWord) : (s.answer r).arcRam = s.arcRam := rfl
@[simp] theorem State.answer_c4Ram (s : State) (r : DataWord) : (s.answer r).c4Ram = s.c4Ram := rfl
@[simp] theorem State.answer_cpu (s : State) (r : DataWord) :
    (s.answer r).cpu = { s.cpu with heard := s.cpu.heard ++ [r] } := rfl
@[simp] theorem State.answer_resp (s : State) (r : DataWord) : (s.answer r).resp = .ok r := rfl

/-! ### `reply` -/

@[simp] theorem State.reply_cfg (s : State) (r : Response) : (s.reply r).cfg = s.cfg := rfl
@[simp] theorem State.reply_inbox (s : State) (r : Response) : (s.reply r).inbox = s.inbox := rfl
@[simp] theorem State.reply_phase (s : State) (r : Response) : (s.reply r).phase = s.phase := rfl
@[simp] theorem State.reply_halted (s : State) (r : Response) : (s.reply r).halted = s.halted := rfl
@[simp] theorem State.reply_keyIn (s : State) (r : Response) : (s.reply r).keyIn = s.keyIn := rfl
@[simp] theorem State.reply_diag (s : State) (r : Response) : (s.reply r).diag = s.diag := rfl
@[simp] theorem State.reply_latch (s : State) (r : Response) : (s.reply r).latch = s.latch := rfl
@[simp] theorem State.reply_pulse (s : State) (r : Response) : (s.reply r).pulse = s.pulse := rfl
@[simp] theorem State.reply_clkPrevK (s : State) (r : Response) : (s.reply r).clkPrevK = s.clkPrevK := rfl
@[simp] theorem State.reply_clkPrevP (s : State) (r : Response) : (s.reply r).clkPrevP = s.clkPrevP := rfl
@[simp] theorem State.reply_lines (s : State) (r : Response) : (s.reply r).lines = s.lines := rfl
@[simp] theorem State.reply_srK (s : State) (r : Response) : (s.reply r).srK = s.srK := rfl
@[simp] theorem State.reply_srA (s : State) (r : Response) : (s.reply r).srA = s.srA := rfl
@[simp] theorem State.reply_srB (s : State) (r : Response) : (s.reply r).srB = s.srB := rfl
@[simp] theorem State.reply_romSel (s : State) (r : Response) : (s.reply r).romSel = s.romSel := rfl
@[simp] theorem State.reply_portOut (s : State) (r : Response) : (s.reply r).portOut = s.portOut := rfl
@[simp] theorem State.reply_portIn (s : State) (r : Response) : (s.reply r).portIn = s.portIn := rfl
@[simp] theorem State.reply_arcRom (s : State) (r : Response) : (s.reply r).arcRom = s.arcRom := rfl
@[simp] theorem State.reply_c4Rom (s : State) (r : Response) : (s.reply r).c4Rom = s.c4Rom := rfl
@[simp] theorem State.reply_hpRom (s : State) (r : Response) : (s.reply r).hpRom = s.hpRom := rfl
@[simp] theorem State.reply_hpWs (s : State) (r : Response) : (s.reply r).hpWs = s.hpWs := rfl
@[simp] theorem State.reply_arcRam (s : State) (r : Response) : (s.reply r).arcRam = s.arcRam := rfl
@[simp] theorem State.reply_c4Ram (s : State) (r : Response) : (s.reply r).c4Ram = s.c4Ram := rfl
@[simp] theorem State.reply_cpu (s : State) (r : Response) : (s.reply r).cpu = s.cpu := rfl
@[simp] theorem State.reply_resp (s : State) (r : Response) : (s.reply r).resp = r := rfl

/-! ### `takeFatal` -/

@[simp] theorem State.takeFatal_cfg (s : State) (info : FatalInfo) : (s.takeFatal info).cfg = s.cfg := rfl
@[simp] theorem State.takeFatal_inbox (s : State) (info : FatalInfo) : (s.takeFatal info).inbox = s.inbox := rfl
@[simp] theorem State.takeFatal_phase (s : State) (info : FatalInfo) : (s.takeFatal info).phase = .between := rfl
@[simp] theorem State.takeFatal_halted (s : State) (info : FatalInfo) : (s.takeFatal info).halted = true := rfl
@[simp] theorem State.takeFatal_keyIn (s : State) (info : FatalInfo) : (s.takeFatal info).keyIn = none := rfl
@[simp] theorem State.takeFatal_diag (s : State) (info : FatalInfo) : (s.takeFatal info).diag = s.diag := rfl
@[simp] theorem State.takeFatal_latch (s : State) (info : FatalInfo) : (s.takeFatal info).latch = s.latch := rfl
@[simp] theorem State.takeFatal_pulse (s : State) (info : FatalInfo) : (s.takeFatal info).pulse = s.pulse := rfl
@[simp] theorem State.takeFatal_clkPrevK (s : State) (info : FatalInfo) :
    (s.takeFatal info).clkPrevK = s.clkPrevK := rfl
@[simp] theorem State.takeFatal_clkPrevP (s : State) (info : FatalInfo) :
    (s.takeFatal info).clkPrevP = s.clkPrevP := rfl
@[simp] theorem State.takeFatal_lines (s : State) (info : FatalInfo) : (s.takeFatal info).lines = .idle := rfl
@[simp] theorem State.takeFatal_srK (s : State) (info : FatalInfo) : (s.takeFatal info).srK = s.srK := rfl
@[simp] theorem State.takeFatal_srA (s : State) (info : FatalInfo) : (s.takeFatal info).srA = s.srA := rfl
@[simp] theorem State.takeFatal_srB (s : State) (info : FatalInfo) : (s.takeFatal info).srB = s.srB := rfl
@[simp] theorem State.takeFatal_romSel (s : State) (info : FatalInfo) : (s.takeFatal info).romSel = s.romSel := rfl
@[simp] theorem State.takeFatal_portOut (s : State) (info : FatalInfo) : (s.takeFatal info).portOut = s.portOut := rfl
@[simp] theorem State.takeFatal_portIn (s : State) (info : FatalInfo) : (s.takeFatal info).portIn = s.portIn := rfl
@[simp] theorem State.takeFatal_arcRom (s : State) (info : FatalInfo) : (s.takeFatal info).arcRom = s.arcRom := rfl
@[simp] theorem State.takeFatal_c4Rom (s : State) (info : FatalInfo) : (s.takeFatal info).c4Rom = s.c4Rom := rfl
@[simp] theorem State.takeFatal_hpRom (s : State) (info : FatalInfo) : (s.takeFatal info).hpRom = s.hpRom := rfl
@[simp] theorem State.takeFatal_hpWs (s : State) (info : FatalInfo) : (s.takeFatal info).hpWs = s.hpWs := rfl
@[simp] theorem State.takeFatal_arcRam (s : State) (info : FatalInfo) : (s.takeFatal info).arcRam = s.arcRam := rfl
@[simp] theorem State.takeFatal_c4Ram (s : State) (info : FatalInfo) : (s.takeFatal info).c4Ram = s.c4Ram := rfl
@[simp] theorem State.takeFatal_cpu (s : State) (info : FatalInfo) : (s.takeFatal info).cpu = s.cpu := rfl
@[simp] theorem State.takeFatal_resp (s : State) (info : FatalInfo) : (s.takeFatal info).resp = .fatal info := rfl

/-! ### `arcRamWrite` -/

@[simp] theorem State.arcRamWrite_cfg (s : State) (i o : Nat) (v : BitVec 8) :
    (s.arcRamWrite i o v).cfg = s.cfg := rfl
@[simp] theorem State.arcRamWrite_inbox (s : State) (i o : Nat) (v : BitVec 8) :
    (s.arcRamWrite i o v).inbox = s.inbox := rfl
@[simp] theorem State.arcRamWrite_phase (s : State) (i o : Nat) (v : BitVec 8) :
    (s.arcRamWrite i o v).phase = s.phase := rfl
@[simp] theorem State.arcRamWrite_halted (s : State) (i o : Nat) (v : BitVec 8) :
    (s.arcRamWrite i o v).halted = s.halted := rfl
@[simp] theorem State.arcRamWrite_keyIn (s : State) (i o : Nat) (v : BitVec 8) :
    (s.arcRamWrite i o v).keyIn = s.keyIn := rfl
@[simp] theorem State.arcRamWrite_diag (s : State) (i o : Nat) (v : BitVec 8) :
    (s.arcRamWrite i o v).diag = s.diag := rfl
@[simp] theorem State.arcRamWrite_latch (s : State) (i o : Nat) (v : BitVec 8) :
    (s.arcRamWrite i o v).latch = s.latch := rfl
@[simp] theorem State.arcRamWrite_pulse (s : State) (i o : Nat) (v : BitVec 8) :
    (s.arcRamWrite i o v).pulse = s.pulse := rfl
@[simp] theorem State.arcRamWrite_clkPrevK (s : State) (i o : Nat) (v : BitVec 8) :
    (s.arcRamWrite i o v).clkPrevK = s.clkPrevK := rfl
@[simp] theorem State.arcRamWrite_clkPrevP (s : State) (i o : Nat) (v : BitVec 8) :
    (s.arcRamWrite i o v).clkPrevP = s.clkPrevP := rfl
@[simp] theorem State.arcRamWrite_lines (s : State) (i o : Nat) (v : BitVec 8) :
    (s.arcRamWrite i o v).lines = s.lines := rfl
@[simp] theorem State.arcRamWrite_srK (s : State) (i o : Nat) (v : BitVec 8) :
    (s.arcRamWrite i o v).srK = s.srK := rfl
@[simp] theorem State.arcRamWrite_srA (s : State) (i o : Nat) (v : BitVec 8) :
    (s.arcRamWrite i o v).srA = s.srA := rfl
@[simp] theorem State.arcRamWrite_srB (s : State) (i o : Nat) (v : BitVec 8) :
    (s.arcRamWrite i o v).srB = s.srB := rfl
@[simp] theorem State.arcRamWrite_romSel (s : State) (i o : Nat) (v : BitVec 8) :
    (s.arcRamWrite i o v).romSel = s.romSel := rfl
@[simp] theorem State.arcRamWrite_portOut (s : State) (i o : Nat) (v : BitVec 8) :
    (s.arcRamWrite i o v).portOut = s.portOut := rfl
@[simp] theorem State.arcRamWrite_portIn (s : State) (i o : Nat) (v : BitVec 8) :
    (s.arcRamWrite i o v).portIn = s.portIn := rfl
@[simp] theorem State.arcRamWrite_arcRom (s : State) (i o : Nat) (v : BitVec 8) :
    (s.arcRamWrite i o v).arcRom = s.arcRom := rfl
@[simp] theorem State.arcRamWrite_c4Rom (s : State) (i o : Nat) (v : BitVec 8) :
    (s.arcRamWrite i o v).c4Rom = s.c4Rom := rfl
@[simp] theorem State.arcRamWrite_hpRom (s : State) (i o : Nat) (v : BitVec 8) :
    (s.arcRamWrite i o v).hpRom = s.hpRom := rfl
@[simp] theorem State.arcRamWrite_hpWs (s : State) (i o : Nat) (v : BitVec 8) :
    (s.arcRamWrite i o v).hpWs = s.hpWs := rfl
@[simp] theorem State.arcRamWrite_arcRam (s : State) (i o : Nat) (v : BitVec 8) :
    (s.arcRamWrite i o v).arcRam = s.arcRam.write (arcRamCell s.cfg i o) v := rfl
@[simp] theorem State.arcRamWrite_c4Ram (s : State) (i o : Nat) (v : BitVec 8) :
    (s.arcRamWrite i o v).c4Ram = s.c4Ram := rfl
@[simp] theorem State.arcRamWrite_cpu (s : State) (i o : Nat) (v : BitVec 8) :
    (s.arcRamWrite i o v).cpu = s.cpu := rfl
@[simp] theorem State.arcRamWrite_resp (s : State) (i o : Nat) (v : BitVec 8) :
    (s.arcRamWrite i o v).resp = s.resp := rfl

/-! ### `c4RamWrite` -/

@[simp] theorem State.c4RamWrite_cfg (s : State) (n : Nat) (k : CellKind) (o : BitVec 6) (v : BitVec 4) :
    (s.c4RamWrite n k o v).cfg = s.cfg := rfl
@[simp] theorem State.c4RamWrite_inbox (s : State) (n : Nat) (k : CellKind) (o : BitVec 6) (v : BitVec 4) :
    (s.c4RamWrite n k o v).inbox = s.inbox := rfl
@[simp] theorem State.c4RamWrite_phase (s : State) (n : Nat) (k : CellKind) (o : BitVec 6) (v : BitVec 4) :
    (s.c4RamWrite n k o v).phase = s.phase := rfl
@[simp] theorem State.c4RamWrite_halted (s : State) (n : Nat) (k : CellKind) (o : BitVec 6) (v : BitVec 4) :
    (s.c4RamWrite n k o v).halted = s.halted := rfl
@[simp] theorem State.c4RamWrite_keyIn (s : State) (n : Nat) (k : CellKind) (o : BitVec 6) (v : BitVec 4) :
    (s.c4RamWrite n k o v).keyIn = s.keyIn := rfl
@[simp] theorem State.c4RamWrite_diag (s : State) (n : Nat) (k : CellKind) (o : BitVec 6) (v : BitVec 4) :
    (s.c4RamWrite n k o v).diag = s.diag := rfl
@[simp] theorem State.c4RamWrite_latch (s : State) (n : Nat) (k : CellKind) (o : BitVec 6) (v : BitVec 4) :
    (s.c4RamWrite n k o v).latch = s.latch := rfl
@[simp] theorem State.c4RamWrite_pulse (s : State) (n : Nat) (k : CellKind) (o : BitVec 6) (v : BitVec 4) :
    (s.c4RamWrite n k o v).pulse = s.pulse := rfl
@[simp] theorem State.c4RamWrite_clkPrevK (s : State) (n : Nat) (k : CellKind) (o : BitVec 6) (v : BitVec 4) :
    (s.c4RamWrite n k o v).clkPrevK = s.clkPrevK := rfl
@[simp] theorem State.c4RamWrite_clkPrevP (s : State) (n : Nat) (k : CellKind) (o : BitVec 6) (v : BitVec 4) :
    (s.c4RamWrite n k o v).clkPrevP = s.clkPrevP := rfl
@[simp] theorem State.c4RamWrite_lines (s : State) (n : Nat) (k : CellKind) (o : BitVec 6) (v : BitVec 4) :
    (s.c4RamWrite n k o v).lines = s.lines := rfl
@[simp] theorem State.c4RamWrite_srK (s : State) (n : Nat) (k : CellKind) (o : BitVec 6) (v : BitVec 4) :
    (s.c4RamWrite n k o v).srK = s.srK := rfl
@[simp] theorem State.c4RamWrite_srA (s : State) (n : Nat) (k : CellKind) (o : BitVec 6) (v : BitVec 4) :
    (s.c4RamWrite n k o v).srA = s.srA := rfl
@[simp] theorem State.c4RamWrite_srB (s : State) (n : Nat) (k : CellKind) (o : BitVec 6) (v : BitVec 4) :
    (s.c4RamWrite n k o v).srB = s.srB := rfl
@[simp] theorem State.c4RamWrite_romSel (s : State) (n : Nat) (k : CellKind) (o : BitVec 6) (v : BitVec 4) :
    (s.c4RamWrite n k o v).romSel = s.romSel := rfl
@[simp] theorem State.c4RamWrite_portOut (s : State) (n : Nat) (k : CellKind) (o : BitVec 6) (v : BitVec 4) :
    (s.c4RamWrite n k o v).portOut = s.portOut := rfl
@[simp] theorem State.c4RamWrite_portIn (s : State) (n : Nat) (k : CellKind) (o : BitVec 6) (v : BitVec 4) :
    (s.c4RamWrite n k o v).portIn = s.portIn := rfl
@[simp] theorem State.c4RamWrite_arcRom (s : State) (n : Nat) (k : CellKind) (o : BitVec 6) (v : BitVec 4) :
    (s.c4RamWrite n k o v).arcRom = s.arcRom := rfl
@[simp] theorem State.c4RamWrite_c4Rom (s : State) (n : Nat) (k : CellKind) (o : BitVec 6) (v : BitVec 4) :
    (s.c4RamWrite n k o v).c4Rom = s.c4Rom := rfl
@[simp] theorem State.c4RamWrite_hpRom (s : State) (n : Nat) (k : CellKind) (o : BitVec 6) (v : BitVec 4) :
    (s.c4RamWrite n k o v).hpRom = s.hpRom := rfl
@[simp] theorem State.c4RamWrite_hpWs (s : State) (n : Nat) (k : CellKind) (o : BitVec 6) (v : BitVec 4) :
    (s.c4RamWrite n k o v).hpWs = s.hpWs := rfl
@[simp] theorem State.c4RamWrite_arcRam (s : State) (n : Nat) (k : CellKind) (o : BitVec 6) (v : BitVec 4) :
    (s.c4RamWrite n k o v).arcRam = s.arcRam := rfl
@[simp] theorem State.c4RamWrite_c4Ram (s : State) (n : Nat) (k : CellKind) (o : BitVec 6) (v : BitVec 4) :
    (s.c4RamWrite n k o v).c4Ram = s.c4Ram.write (c4RamCell n k o) v := rfl
@[simp] theorem State.c4RamWrite_cpu (s : State) (n : Nat) (k : CellKind) (o : BitVec 6) (v : BitVec 4) :
    (s.c4RamWrite n k o v).cpu = s.cpu := rfl
@[simp] theorem State.c4RamWrite_resp (s : State) (n : Nat) (k : CellKind) (o : BitVec 6) (v : BitVec 4) :
    (s.c4RamWrite n k o v).resp = s.resp := rfl

/-! ### `portWrite` -/

@[simp] theorem State.portWrite_cfg (s : State) (k : ChipKind) (i : Nat) (v : BitVec 4) :
    (s.portWrite k i v).cfg = s.cfg := rfl
@[simp] theorem State.portWrite_inbox (s : State) (k : ChipKind) (i : Nat) (v : BitVec 4) :
    (s.portWrite k i v).inbox = s.inbox := rfl
@[simp] theorem State.portWrite_phase (s : State) (k : ChipKind) (i : Nat) (v : BitVec 4) :
    (s.portWrite k i v).phase = s.phase := rfl
@[simp] theorem State.portWrite_halted (s : State) (k : ChipKind) (i : Nat) (v : BitVec 4) :
    (s.portWrite k i v).halted = s.halted := rfl
@[simp] theorem State.portWrite_keyIn (s : State) (k : ChipKind) (i : Nat) (v : BitVec 4) :
    (s.portWrite k i v).keyIn = s.keyIn := rfl
@[simp] theorem State.portWrite_diag (s : State) (k : ChipKind) (i : Nat) (v : BitVec 4) :
    (s.portWrite k i v).diag = s.diag := rfl
@[simp] theorem State.portWrite_latch (s : State) (k : ChipKind) (i : Nat) (v : BitVec 4) :
    (s.portWrite k i v).latch = s.latch := rfl
@[simp] theorem State.portWrite_pulse (s : State) (k : ChipKind) (i : Nat) (v : BitVec 4) :
    (s.portWrite k i v).pulse = s.pulse := rfl
@[simp] theorem State.portWrite_clkPrevK (s : State) (k : ChipKind) (i : Nat) (v : BitVec 4) :
    (s.portWrite k i v).clkPrevK = s.clkPrevK := rfl
@[simp] theorem State.portWrite_clkPrevP (s : State) (k : ChipKind) (i : Nat) (v : BitVec 4) :
    (s.portWrite k i v).clkPrevP = s.clkPrevP := rfl
@[simp] theorem State.portWrite_lines (s : State) (k : ChipKind) (i : Nat) (v : BitVec 4) :
    (s.portWrite k i v).lines = s.lines := rfl
@[simp] theorem State.portWrite_srK (s : State) (k : ChipKind) (i : Nat) (v : BitVec 4) :
    (s.portWrite k i v).srK = s.srK := rfl
@[simp] theorem State.portWrite_srA (s : State) (k : ChipKind) (i : Nat) (v : BitVec 4) :
    (s.portWrite k i v).srA = s.srA := rfl
@[simp] theorem State.portWrite_srB (s : State) (k : ChipKind) (i : Nat) (v : BitVec 4) :
    (s.portWrite k i v).srB = s.srB := rfl
@[simp] theorem State.portWrite_romSel (s : State) (k : ChipKind) (i : Nat) (v : BitVec 4) :
    (s.portWrite k i v).romSel = s.romSel := rfl
@[simp] theorem State.portWrite_portOut (s : State) (k : ChipKind) (i : Nat) (v : BitVec 4) :
    (s.portWrite k i v).portOut = s.portOut.set k i (portValue s.cfg v) := rfl
@[simp] theorem State.portWrite_portIn (s : State) (k : ChipKind) (i : Nat) (v : BitVec 4) :
    (s.portWrite k i v).portIn = s.portIn := rfl
@[simp] theorem State.portWrite_arcRom (s : State) (k : ChipKind) (i : Nat) (v : BitVec 4) :
    (s.portWrite k i v).arcRom = s.arcRom := rfl
@[simp] theorem State.portWrite_c4Rom (s : State) (k : ChipKind) (i : Nat) (v : BitVec 4) :
    (s.portWrite k i v).c4Rom = s.c4Rom := rfl
@[simp] theorem State.portWrite_hpRom (s : State) (k : ChipKind) (i : Nat) (v : BitVec 4) :
    (s.portWrite k i v).hpRom = s.hpRom := rfl
@[simp] theorem State.portWrite_hpWs (s : State) (k : ChipKind) (i : Nat) (v : BitVec 4) :
    (s.portWrite k i v).hpWs = s.hpWs := rfl
@[simp] theorem State.portWrite_arcRam (s : State) (k : ChipKind) (i : Nat) (v : BitVec 4) :
    (s.portWrite k i v).arcRam = s.arcRam := rfl
@[simp] theorem State.portWrite_c4Ram (s : State) (k : ChipKind) (i : Nat) (v : BitVec 4) :
    (s.portWrite k i v).c4Ram = s.c4Ram := rfl
@[simp] theorem State.portWrite_cpu (s : State) (k : ChipKind) (i : Nat) (v : BitVec 4) :
    (s.portWrite k i v).cpu = s.cpu := rfl
@[simp] theorem State.portWrite_resp (s : State) (k : ChipKind) (i : Nat) (v : BitVec 4) :
    (s.portWrite k i v).resp = s.resp := rfl

/-! ### `romSelect` -/

@[simp] theorem State.romSelect_cfg (s : State) (b : BitVec 3) : (s.romSelect b).cfg = s.cfg := rfl
@[simp] theorem State.romSelect_inbox (s : State) (b : BitVec 3) : (s.romSelect b).inbox = s.inbox := rfl
@[simp] theorem State.romSelect_phase (s : State) (b : BitVec 3) : (s.romSelect b).phase = s.phase := rfl
@[simp] theorem State.romSelect_halted (s : State) (b : BitVec 3) : (s.romSelect b).halted = s.halted := rfl
@[simp] theorem State.romSelect_keyIn (s : State) (b : BitVec 3) : (s.romSelect b).keyIn = s.keyIn := rfl
@[simp] theorem State.romSelect_diag (s : State) (b : BitVec 3) : (s.romSelect b).diag = s.diag := rfl
@[simp] theorem State.romSelect_latch (s : State) (b : BitVec 3) : (s.romSelect b).latch = s.latch := rfl
@[simp] theorem State.romSelect_pulse (s : State) (b : BitVec 3) : (s.romSelect b).pulse = s.pulse := rfl
@[simp] theorem State.romSelect_clkPrevK (s : State) (b : BitVec 3) : (s.romSelect b).clkPrevK = s.clkPrevK := rfl
@[simp] theorem State.romSelect_clkPrevP (s : State) (b : BitVec 3) : (s.romSelect b).clkPrevP = s.clkPrevP := rfl
@[simp] theorem State.romSelect_lines (s : State) (b : BitVec 3) : (s.romSelect b).lines = s.lines := rfl
@[simp] theorem State.romSelect_srK (s : State) (b : BitVec 3) : (s.romSelect b).srK = s.srK := rfl
@[simp] theorem State.romSelect_srA (s : State) (b : BitVec 3) : (s.romSelect b).srA = s.srA := rfl
@[simp] theorem State.romSelect_srB (s : State) (b : BitVec 3) : (s.romSelect b).srB = s.srB := rfl
@[simp] theorem State.romSelect_romSel (s : State) (b : BitVec 3) :
    (s.romSelect b).romSel = List.replicate s.cfg.hpNRom (b.toNat % s.cfg.hpNRom) := rfl
@[simp] theorem State.romSelect_portOut (s : State) (b : BitVec 3) : (s.romSelect b).portOut = s.portOut := rfl
@[simp] theorem State.romSelect_portIn (s : State) (b : BitVec 3) : (s.romSelect b).portIn = s.portIn := rfl
@[simp] theorem State.romSelect_arcRom (s : State) (b : BitVec 3) : (s.romSelect b).arcRom = s.arcRom := rfl
@[simp] theorem State.romSelect_c4Rom (s : State) (b : BitVec 3) : (s.romSelect b).c4Rom = s.c4Rom := rfl
@[simp] theorem State.romSelect_hpRom (s : State) (b : BitVec 3) : (s.romSelect b).hpRom = s.hpRom := rfl
@[simp] theorem State.romSelect_hpWs (s : State) (b : BitVec 3) : (s.romSelect b).hpWs = s.hpWs := rfl
@[simp] theorem State.romSelect_arcRam (s : State) (b : BitVec 3) : (s.romSelect b).arcRam = s.arcRam := rfl
@[simp] theorem State.romSelect_c4Ram (s : State) (b : BitVec 3) : (s.romSelect b).c4Ram = s.c4Ram := rfl
@[simp] theorem State.romSelect_cpu (s : State) (b : BitVec 3) : (s.romSelect b).cpu = s.cpu := rfl
@[simp] theorem State.romSelect_resp (s : State) (b : BitVec 3) : (s.romSelect b).resp = s.resp := rfl

/-! ### `supply` -/

@[simp] theorem State.supply_cfg (s : State) (i : Instr) : (s.supply i).cfg = s.cfg := rfl
@[simp] theorem State.supply_inbox (s : State) (i : Instr) : (s.supply i).inbox = s.inbox := rfl
@[simp] theorem State.supply_phase (s : State) (i : Instr) : (s.supply i).phase = s.phase := rfl
@[simp] theorem State.supply_halted (s : State) (i : Instr) : (s.supply i).halted = s.halted := rfl
@[simp] theorem State.supply_keyIn (s : State) (i : Instr) : (s.supply i).keyIn = s.keyIn := rfl
@[simp] theorem State.supply_diag (s : State) (i : Instr) : (s.supply i).diag = s.diag := rfl
@[simp] theorem State.supply_latch (s : State) (i : Instr) : (s.supply i).latch = s.latch := rfl
@[simp] theorem State.supply_pulse (s : State) (i : Instr) : (s.supply i).pulse = s.pulse := rfl
@[simp] theorem State.supply_clkPrevK (s : State) (i : Instr) : (s.supply i).clkPrevK = s.clkPrevK := rfl
@[simp] theorem State.supply_clkPrevP (s : State) (i : Instr) : (s.supply i).clkPrevP = s.clkPrevP := rfl
@[simp] theorem State.supply_lines (s : State) (i : Instr) : (s.supply i).lines = s.lines := rfl
@[simp] theorem State.supply_srK (s : State) (i : Instr) : (s.supply i).srK = s.srK := rfl
@[simp] theorem State.supply_srA (s : State) (i : Instr) : (s.supply i).srA = s.srA := rfl
@[simp] theorem State.supply_srB (s : State) (i : Instr) : (s.supply i).srB = s.srB := rfl
@[simp] theorem State.supply_romSel (s : State) (i : Instr) : (s.supply i).romSel = s.romSel := rfl
@[simp] theorem State.supply_portOut (s : State) (i : Instr) : (s.supply i).portOut = s.portOut := rfl
@[simp] theorem State.supply_portIn (s : State) (i : Instr) : (s.supply i).portIn = s.portIn := rfl
@[simp] theorem State.supply_arcRom (s : State) (i : Instr) : (s.supply i).arcRom = s.arcRom := rfl
@[simp] theorem State.supply_c4Rom (s : State) (i : Instr) : (s.supply i).c4Rom = s.c4Rom := rfl
@[simp] theorem State.supply_hpRom (s : State) (i : Instr) : (s.supply i).hpRom = s.hpRom := rfl
@[simp] theorem State.supply_hpWs (s : State) (i : Instr) : (s.supply i).hpWs = s.hpWs := rfl
@[simp] theorem State.supply_arcRam (s : State) (i : Instr) : (s.supply i).arcRam = s.arcRam := rfl
@[simp] theorem State.supply_c4Ram (s : State) (i : Instr) : (s.supply i).c4Ram = s.c4Ram := rfl
@[simp] theorem State.supply_cpu (s : State) (i : Instr) : (s.supply i).cpu = s.cpu.supply i := rfl
@[simp] theorem State.supply_resp (s : State) (i : Instr) : (s.supply i).resp = s.resp := rfl

/-! ### `enter` -/

@[simp] theorem State.enter_cfg (s : State) (p : Phase) : (s.enter p).cfg = s.cfg := rfl
@[simp] theorem State.enter_inbox (s : State) (p : Phase) : (s.enter p).inbox = s.inbox := rfl
@[simp] theorem State.enter_phase (s : State) (p : Phase) : (s.enter p).phase = p := rfl
@[simp] theorem State.enter_halted (s : State) (p : Phase) : (s.enter p).halted = s.halted := rfl
@[simp] theorem State.enter_keyIn (s : State) (p : Phase) : (s.enter p).keyIn = s.keyIn := rfl
@[simp] theorem State.enter_diag (s : State) (p : Phase) : (s.enter p).diag = s.diag := rfl
@[simp] theorem State.enter_latch (s : State) (p : Phase) : (s.enter p).latch = s.latch := rfl
@[simp] theorem State.enter_pulse (s : State) (p : Phase) : (s.enter p).pulse = s.pulse := rfl
@[simp] theorem State.enter_clkPrevK (s : State) (p : Phase) : (s.enter p).clkPrevK = s.clkPrevK := rfl
@[simp] theorem State.enter_clkPrevP (s : State) (p : Phase) : (s.enter p).clkPrevP = s.clkPrevP := rfl
@[simp] theorem State.enter_lines (s : State) (p : Phase) : (s.enter p).lines = s.lines := rfl
@[simp] theorem State.enter_srK (s : State) (p : Phase) : (s.enter p).srK = s.srK := rfl
@[simp] theorem State.enter_srA (s : State) (p : Phase) : (s.enter p).srA = s.srA := rfl
@[simp] theorem State.enter_srB (s : State) (p : Phase) : (s.enter p).srB = s.srB := rfl
@[simp] theorem State.enter_romSel (s : State) (p : Phase) : (s.enter p).romSel = s.romSel := rfl
@[simp] theorem State.enter_portOut (s : State) (p : Phase) : (s.enter p).portOut = s.portOut := rfl
@[simp] theorem State.enter_portIn (s : State) (p : Phase) : (s.enter p).portIn = s.portIn := rfl
@[simp] theorem State.enter_arcRom (s : State) (p : Phase) : (s.enter p).arcRom = s.arcRom := rfl
@[simp] theorem State.enter_c4Rom (s : State) (p : Phase) : (s.enter p).c4Rom = s.c4Rom := rfl
@[simp] theorem State.enter_hpRom (s : State) (p : Phase) : (s.enter p).hpRom = s.hpRom := rfl
@[simp] theorem State.enter_hpWs (s : State) (p : Phase) : (s.enter p).hpWs = s.hpWs := rfl
@[simp] theorem State.enter_arcRam (s : State) (p : Phase) : (s.enter p).arcRam = s.arcRam := rfl
@[simp] theorem State.enter_c4Ram (s : State) (p : Phase) : (s.enter p).c4Ram = s.c4Ram := rfl
@[simp] theorem State.enter_cpu (s : State) (p : Phase) : (s.enter p).cpu = s.cpu := rfl
@[simp] theorem State.enter_resp (s : State) (p : Phase) : (s.enter p).resp = s.resp := rfl

/-! ### `endTick` -/

@[simp] theorem State.endTick_cfg (s : State) : (s.endTick).cfg = s.cfg := rfl
@[simp] theorem State.endTick_inbox (s : State) : (s.endTick).inbox = s.inbox := rfl
@[simp] theorem State.endTick_phase (s : State) : (s.endTick).phase = .between := rfl
@[simp] theorem State.endTick_halted (s : State) : (s.endTick).halted = s.halted := rfl
@[simp] theorem State.endTick_keyIn (s : State) : (s.endTick).keyIn = none := rfl
@[simp] theorem State.endTick_diag (s : State) : (s.endTick).diag = s.diag := rfl
@[simp] theorem State.endTick_latch (s : State) : (s.endTick).latch = s.latch := rfl
@[simp] theorem State.endTick_pulse (s : State) : (s.endTick).pulse = s.pulse := rfl
@[simp] theorem State.endTick_clkPrevK (s : State) : (s.endTick).clkPrevK = s.clkPrevK := rfl
@[simp] theorem State.endTick_clkPrevP (s : State) : (s.endTick).clkPrevP = s.clkPrevP := rfl
@[simp] theorem State.endTick_lines (s : State) : (s.endTick).lines = s.lines := rfl
@[simp] theorem State.endTick_srK (s : State) : (s.endTick).srK = s.srK := rfl
@[simp] theorem State.endTick_srA (s : State) : (s.endTick).srA = s.srA := rfl
@[simp] theorem State.endTick_srB (s : State) : (s.endTick).srB = s.srB := rfl
@[simp] theorem State.endTick_romSel (s : State) : (s.endTick).romSel = s.romSel := rfl
@[simp] theorem State.endTick_portOut (s : State) : (s.endTick).portOut = s.portOut := rfl
@[simp] theorem State.endTick_portIn (s : State) : (s.endTick).portIn = s.portIn := rfl
@[simp] theorem State.endTick_arcRom (s : State) : (s.endTick).arcRom = s.arcRom := rfl
@[simp] theorem State.endTick_c4Rom (s : State) : (s.endTick).c4Rom = s.c4Rom := rfl
@[simp] theorem State.endTick_hpRom (s : State) : (s.endTick).hpRom = s.hpRom := rfl
@[simp] theorem State.endTick_hpWs (s : State) : (s.endTick).hpWs = s.hpWs := rfl
@[simp] theorem State.endTick_arcRam (s : State) : (s.endTick).arcRam = s.arcRam := rfl
@[simp] theorem State.endTick_c4Ram (s : State) : (s.endTick).c4Ram = s.c4Ram := rfl
@[simp] theorem State.endTick_cpu (s : State) : (s.endTick).cpu = s.cpu := rfl
@[simp] theorem State.endTick_resp (s : State) : (s.endTick).resp = .ok 0 := rfl

/-! ### `presentKey` -/

@[simp] theorem State.presentKey_cfg (s : State) :
    (s.presentKey).cfg = s.cfg := by unfold State.presentKey; split <;> rfl
@[simp] theorem State.presentKey_inbox (s : State) :
    (s.presentKey).inbox = s.inbox := by unfold State.presentKey; split <;> rfl
@[simp] theorem State.presentKey_phase (s : State) :
    (s.presentKey).phase = s.phase := by unfold State.presentKey; split <;> rfl
@[simp] theorem State.presentKey_halted (s : State) :
    (s.presentKey).halted = s.halted := by unfold State.presentKey; split <;> rfl
@[simp] theorem State.presentKey_keyIn (s : State) :
    (s.presentKey).keyIn = s.keyIn := by unfold State.presentKey; split <;> rfl
@[simp] theorem State.presentKey_diag (s : State) :
    (s.presentKey).diag = s.diag := by unfold State.presentKey; split <;> rfl
@[simp] theorem State.presentKey_latch (s : State) :
    (s.presentKey).latch = s.latch := by unfold State.presentKey; split <;> rfl
@[simp] theorem State.presentKey_pulse (s : State) :
    (s.presentKey).pulse = s.pulse := by unfold State.presentKey; split <;> rfl
@[simp] theorem State.presentKey_clkPrevK (s : State) :
    (s.presentKey).clkPrevK = s.clkPrevK := by unfold State.presentKey; split <;> rfl
@[simp] theorem State.presentKey_clkPrevP (s : State) :
    (s.presentKey).clkPrevP = s.clkPrevP := by unfold State.presentKey; split <;> rfl
@[simp] theorem State.presentKey_lines (s : State) :
    (s.presentKey).lines = s.lines := by unfold State.presentKey; split <;> rfl
@[simp] theorem State.presentKey_srK (s : State) :
    (s.presentKey).srK = s.srK := by unfold State.presentKey; split <;> rfl
@[simp] theorem State.presentKey_srA (s : State) :
    (s.presentKey).srA = s.srA := by unfold State.presentKey; split <;> rfl
@[simp] theorem State.presentKey_srB (s : State) :
    (s.presentKey).srB = s.srB := by unfold State.presentKey; split <;> rfl
@[simp] theorem State.presentKey_romSel (s : State) :
    (s.presentKey).romSel = s.romSel := by unfold State.presentKey; split <;> rfl
@[simp] theorem State.presentKey_portOut (s : State) :
    (s.presentKey).portOut = s.portOut := by unfold State.presentKey; split <;> rfl
@[simp] theorem State.presentKey_arcRom (s : State) :
    (s.presentKey).arcRom = s.arcRom := by unfold State.presentKey; split <;> rfl
@[simp] theorem State.presentKey_c4Rom (s : State) :
    (s.presentKey).c4Rom = s.c4Rom := by unfold State.presentKey; split <;> rfl
@[simp] theorem State.presentKey_hpRom (s : State) :
    (s.presentKey).hpRom = s.hpRom := by unfold State.presentKey; split <;> rfl
@[simp] theorem State.presentKey_hpWs (s : State) :
    (s.presentKey).hpWs = s.hpWs := by unfold State.presentKey; split <;> rfl
@[simp] theorem State.presentKey_arcRam (s : State) :
    (s.presentKey).arcRam = s.arcRam := by unfold State.presentKey; split <;> rfl
@[simp] theorem State.presentKey_c4Ram (s : State) :
    (s.presentKey).c4Ram = s.c4Ram := by unfold State.presentKey; split <;> rfl
@[simp] theorem State.presentKey_cpu (s : State) :
    (s.presentKey).cpu = s.cpu := by unfold State.presentKey; split <;> rfl
@[simp] theorem State.presentKey_resp (s : State) :
    (s.presentKey).resp = s.resp := by unfold State.presentKey; split <;> rfl

/-! ### `updateLatches` -/

@[simp] theorem State.updateLatches_cfg (s : State) : (s.updateLatches).cfg = s.cfg := rfl
@[simp] theorem State.updateLatches_inbox (s : State) : (s.updateLatches).inbox = s.inbox := rfl
@[simp] theorem State.updateLatches_phase (s : State) : (s.updateLatches).phase = s.phase := rfl
@[simp] theorem State.updateLatches_halted (s : State) : (s.updateLatches).halted = s.halted := rfl
@[simp] theorem State.updateLatches_keyIn (s : State) : (s.updateLatches).keyIn = s.keyIn := rfl
@[simp] theorem State.updateLatches_diag (s : State) : (s.updateLatches).diag = s.diag := rfl
@[simp] theorem State.updateLatches_latch (s : State) : (s.updateLatches).latch = sigLevels s := rfl
@[simp] theorem State.updateLatches_pulse (s : State) :
    (s.updateLatches).pulse = pulsesOf (sigLevels s) s.latch := rfl
@[simp] theorem State.updateLatches_clkPrevK (s : State) : (s.updateLatches).clkPrevK = s.clkPrevK := rfl
@[simp] theorem State.updateLatches_clkPrevP (s : State) : (s.updateLatches).clkPrevP = s.clkPrevP := rfl
@[simp] theorem State.updateLatches_lines (s : State) : (s.updateLatches).lines = s.lines := rfl
@[simp] theorem State.updateLatches_srK (s : State) : (s.updateLatches).srK = s.srK := rfl
@[simp] theorem State.updateLatches_srA (s : State) : (s.updateLatches).srA = s.srA := rfl
@[simp] theorem State.updateLatches_srB (s : State) : (s.updateLatches).srB = s.srB := rfl
@[simp] theorem State.updateLatches_romSel (s : State) : (s.updateLatches).romSel = s.romSel := rfl
@[simp] theorem State.updateLatches_portOut (s : State) : (s.updateLatches).portOut = s.portOut := rfl
@[simp] theorem State.updateLatches_portIn (s : State) : (s.updateLatches).portIn = s.portIn := rfl
@[simp] theorem State.updateLatches_arcRom (s : State) : (s.updateLatches).arcRom = s.arcRom := rfl
@[simp] theorem State.updateLatches_c4Rom (s : State) : (s.updateLatches).c4Rom = s.c4Rom := rfl
@[simp] theorem State.updateLatches_hpRom (s : State) : (s.updateLatches).hpRom = s.hpRom := rfl
@[simp] theorem State.updateLatches_hpWs (s : State) : (s.updateLatches).hpWs = s.hpWs := rfl
@[simp] theorem State.updateLatches_arcRam (s : State) : (s.updateLatches).arcRam = s.arcRam := rfl
@[simp] theorem State.updateLatches_c4Ram (s : State) : (s.updateLatches).c4Ram = s.c4Ram := rfl
@[simp] theorem State.updateLatches_cpu (s : State) : (s.updateLatches).cpu = s.cpu := rfl
@[simp] theorem State.updateLatches_resp (s : State) : (s.updateLatches).resp = s.resp := rfl

/-! ### `shiftChain` -/

@[simp] theorem State.shiftChain_cfg (s : State) : (s.shiftChain).cfg = s.cfg := rfl
@[simp] theorem State.shiftChain_inbox (s : State) : (s.shiftChain).inbox = s.inbox := rfl
@[simp] theorem State.shiftChain_phase (s : State) : (s.shiftChain).phase = s.phase := rfl
@[simp] theorem State.shiftChain_halted (s : State) : (s.shiftChain).halted = s.halted := rfl
@[simp] theorem State.shiftChain_keyIn (s : State) : (s.shiftChain).keyIn = s.keyIn := rfl
@[simp] theorem State.shiftChain_diag (s : State) : (s.shiftChain).diag = s.diag := rfl
@[simp] theorem State.shiftChain_latch (s : State) : (s.shiftChain).latch = s.latch := rfl
@[simp] theorem State.shiftChain_pulse (s : State) : (s.shiftChain).pulse = s.pulse := rfl
@[simp] theorem State.shiftChain_clkPrevK (s : State) : (s.shiftChain).clkPrevK = s.lines.kclk := rfl
@[simp] theorem State.shiftChain_clkPrevP (s : State) : (s.shiftChain).clkPrevP = s.lines.pclk := rfl
@[simp] theorem State.shiftChain_lines (s : State) : (s.shiftChain).lines = .idle := rfl
@[simp] theorem State.shiftChain_srK (s : State) :
    (s.shiftChain).srK =
      shifted s.cfg.shiftW (clockEdge s.lines.kclk s.clkPrevK s.lines.ken) s.lines.kdat s.srK := rfl
@[simp] theorem State.shiftChain_srA (s : State) :
    (s.shiftChain).srA =
      shifted s.cfg.shiftW (clockEdge s.lines.pclk s.clkPrevP s.lines.pen) s.lines.pdat s.srA := rfl
@[simp] theorem State.shiftChain_srB (s : State) :
    (s.shiftChain).srB =
      shifted s.cfg.shiftW (clockEdge s.lines.pclk s.clkPrevP s.lines.pen) (shiftOut s.cfg.shiftW s.srA) s.srB := rfl
@[simp] theorem State.shiftChain_romSel (s : State) : (s.shiftChain).romSel = s.romSel := rfl
@[simp] theorem State.shiftChain_portOut (s : State) : (s.shiftChain).portOut = s.portOut := rfl
@[simp] theorem State.shiftChain_portIn (s : State) : (s.shiftChain).portIn = s.portIn := rfl
@[simp] theorem State.shiftChain_arcRom (s : State) : (s.shiftChain).arcRom = s.arcRom := rfl
@[simp] theorem State.shiftChain_c4Rom (s : State) : (s.shiftChain).c4Rom = s.c4Rom := rfl
@[simp] theorem State.shiftChain_hpRom (s : State) : (s.shiftChain).hpRom = s.hpRom := rfl
@[simp] theorem State.shiftChain_hpWs (s : State) : (s.shiftChain).hpWs = s.hpWs := rfl
@[simp] theorem State.shiftChain_arcRam (s : State) : (s.shiftChain).arcRam = s.arcRam := rfl
@[simp] theorem State.shiftChain_c4Ram (s : State) : (s.shiftChain).c4Ram = s.c4Ram := rfl
@[simp] theorem State.shiftChain_cpu (s : State) : (s.shiftChain).cpu = s.cpu := rfl
@[simp] theorem State.shiftChain_resp (s : State) : (s.shiftChain).resp = s.resp := rfl

/-! ### `installRom` -/

@[simp] theorem State.installRom_cfg (s : State) (n : Nat) (blob : List Byte) :
    (s.installRom n blob).cfg = s.cfg := by unfold State.installRom; split <;> rfl
@[simp] theorem State.installRom_inbox (s : State) (n : Nat) (blob : List Byte) :
    (s.installRom n blob).inbox = s.inbox := by unfold State.installRom; split <;> rfl
@[simp] theorem State.installRom_phase (s : State) (n : Nat) (blob : List Byte) :
    (s.installRom n blob).phase = s.phase := by unfold State.installRom; split <;> rfl
@[simp] theorem State.installRom_halted (s : State) (n : Nat) (blob : List Byte) :
    (s.installRom n blob).halted = s.halted := by unfold State.installRom; split <;> rfl
@[simp] theorem State.installRom_keyIn (s : State) (n : Nat) (blob : List Byte) :
    (s.installRom n blob).keyIn = s.keyIn := by unfold State.installRom; split <;> rfl
@[simp] theorem State.installRom_diag (s : State) (n : Nat) (blob : List Byte) :
    (s.installRom n blob).diag = s.diag := by unfold State.installRom; split <;> rfl
@[simp] theorem State.installRom_latch (s : State) (n : Nat) (blob : List Byte) :
    (s.installRom n blob).latch = s.latch := by unfold State.installRom; split <;> rfl
@[simp] theorem State.installRom_pulse (s : State) (n : Nat) (blob : List Byte) :
    (s.installRom n blob).pulse = s.pulse := by unfold State.installRom; split <;> rfl
@[simp] theorem State.installRom_clkPrevK (s : State) (n : Nat) (blob : List Byte) :
    (s.installRom n blob).clkPrevK = s.clkPrevK := by unfold State.installRom; split <;> rfl
@[simp] theorem State.installRom_clkPrevP (s : State) (n : Nat) (blob : List Byte) :
    (s.installRom n blob).clkPrevP = s.clkPrevP := by unfold State.installRom; split <;> rfl
@[simp] theorem State.installRom_lines (s : State) (n : Nat) (blob : List Byte) :
    (s.installRom n blob).lines = s.lines := by unfold State.installRom; split <;> rfl
@[simp] theorem State.installRom_srK (s : State) (n : Nat) (blob : List Byte) :
    (s.installRom n blob).srK = s.srK := by unfold State.installRom; split <;> rfl
@[simp] theorem State.installRom_srA (s : State) (n : Nat) (blob : List Byte) :
    (s.installRom n blob).srA = s.srA := by unfold State.installRom; split <;> rfl
@[simp] theorem State.installRom_srB (s : State) (n : Nat) (blob : List Byte) :
    (s.installRom n blob).srB = s.srB := by unfold State.installRom; split <;> rfl
@[simp] theorem State.installRom_romSel (s : State) (n : Nat) (blob : List Byte) :
    (s.installRom n blob).romSel = s.romSel := by unfold State.installRom; split <;> rfl
@[simp] theorem State.installRom_portOut (s : State) (n : Nat) (blob : List Byte) :
    (s.installRom n blob).portOut = s.portOut := by unfold State.installRom; split <;> rfl
@[simp] theorem State.installRom_portIn (s : State) (n : Nat) (blob : List Byte) :
    (s.installRom n blob).portIn = s.portIn := by unfold State.installRom; split <;> rfl
@[simp] theorem State.installRom_hpWs (s : State) (n : Nat) (blob : List Byte) :
    (s.installRom n blob).hpWs = s.hpWs := by unfold State.installRom; split <;> rfl
@[simp] theorem State.installRom_arcRam (s : State) (n : Nat) (blob : List Byte) :
    (s.installRom n blob).arcRam = s.arcRam := by unfold State.installRom; split <;> rfl
@[simp] theorem State.installRom_c4Ram (s : State) (n : Nat) (blob : List Byte) :
    (s.installRom n blob).c4Ram = s.c4Ram := by unfold State.installRom; split <;> rfl
@[simp] theorem State.installRom_cpu (s : State) (n : Nat) (blob : List Byte) :
    (s.installRom n blob).cpu = s.cpu := by unfold State.installRom; split <;> rfl
@[simp] theorem State.installRom_resp (s : State) (n : Nat) (blob : List Byte) :
    (s.installRom n blob).resp = s.resp := by unfold State.installRom; split <;> rfl

/-! ### `withPlan` and `beginStep` -/

@[simp] theorem State.withPlan_cfg (s : State) (p : CpuPlan) : (s.withPlan p).cfg = s.cfg := rfl
@[simp] theorem State.withPlan_inbox (s : State) (p : CpuPlan) : (s.withPlan p).inbox = s.inbox := rfl
@[simp] theorem State.withPlan_phase (s : State) (p : CpuPlan) : (s.withPlan p).phase = s.phase := rfl
@[simp] theorem State.withPlan_halted (s : State) (p : CpuPlan) : (s.withPlan p).halted = s.halted := rfl
@[simp] theorem State.withPlan_keyIn (s : State) (p : CpuPlan) : (s.withPlan p).keyIn = s.keyIn := rfl
@[simp] theorem State.withPlan_diag (s : State) (p : CpuPlan) : (s.withPlan p).diag = s.diag := rfl
@[simp] theorem State.withPlan_latch (s : State) (p : CpuPlan) : (s.withPlan p).latch = s.latch := rfl
@[simp] theorem State.withPlan_pulse (s : State) (p : CpuPlan) : (s.withPlan p).pulse = s.pulse := rfl
@[simp] theorem State.withPlan_clkPrevK (s : State) (p : CpuPlan) : (s.withPlan p).clkPrevK = s.clkPrevK := rfl
@[simp] theorem State.withPlan_clkPrevP (s : State) (p : CpuPlan) : (s.withPlan p).clkPrevP = s.clkPrevP := rfl
@[simp] theorem State.withPlan_lines (s : State) (p : CpuPlan) : (s.withPlan p).lines = s.lines := rfl
@[simp] theorem State.withPlan_srK (s : State) (p : CpuPlan) : (s.withPlan p).srK = s.srK := rfl
@[simp] theorem State.withPlan_srA (s : State) (p : CpuPlan) : (s.withPlan p).srA = s.srA := rfl
@[simp] theorem State.withPlan_srB (s : State) (p : CpuPlan) : (s.withPlan p).srB = s.srB := rfl
@[simp] theorem State.withPlan_romSel (s : State) (p : CpuPlan) : (s.withPlan p).romSel = s.romSel := rfl
@[simp] theorem State.withPlan_portOut (s : State) (p : CpuPlan) : (s.withPlan p).portOut = s.portOut := rfl
@[simp] theorem State.withPlan_portIn (s : State) (p : CpuPlan) : (s.withPlan p).portIn = s.portIn := rfl
@[simp] theorem State.withPlan_arcRom (s : State) (p : CpuPlan) : (s.withPlan p).arcRom = s.arcRom := rfl
@[simp] theorem State.withPlan_c4Rom (s : State) (p : CpuPlan) : (s.withPlan p).c4Rom = s.c4Rom := rfl
@[simp] theorem State.withPlan_hpRom (s : State) (p : CpuPlan) : (s.withPlan p).hpRom = s.hpRom := rfl
@[simp] theorem State.withPlan_hpWs (s : State) (p : CpuPlan) : (s.withPlan p).hpWs = s.hpWs := rfl
@[simp] theorem State.withPlan_arcRam (s : State) (p : CpuPlan) : (s.withPlan p).arcRam = s.arcRam := rfl
@[simp] theorem State.withPlan_c4Ram (s : State) (p : CpuPlan) : (s.withPlan p).c4Ram = s.c4Ram := rfl
@[simp] theorem State.withPlan_resp (s : State) (p : CpuPlan) : (s.withPlan p).resp = s.resp := rfl
@[simp] theorem State.withPlan_cpu (s : State) (p : CpuPlan) :
    (s.withPlan p).cpu = { s.cpu with plan := p } := rfl

@[simp] theorem State.beginStep_cfg (s : State) : s.beginStep.cfg = s.cfg := rfl
@[simp] theorem State.beginStep_inbox (s : State) : s.beginStep.inbox = s.inbox := rfl
@[simp] theorem State.beginStep_phase (s : State) : s.beginStep.phase = s.phase := rfl
@[simp] theorem State.beginStep_halted (s : State) : s.beginStep.halted = s.halted := rfl
@[simp] theorem State.beginStep_keyIn (s : State) : s.beginStep.keyIn = s.keyIn := rfl
@[simp] theorem State.beginStep_diag (s : State) : s.beginStep.diag = s.diag := rfl
@[simp] theorem State.beginStep_latch (s : State) : s.beginStep.latch = s.latch := rfl
@[simp] theorem State.beginStep_pulse (s : State) : s.beginStep.pulse = s.pulse := rfl
@[simp] theorem State.beginStep_clkPrevK (s : State) : s.beginStep.clkPrevK = s.clkPrevK := rfl
@[simp] theorem State.beginStep_clkPrevP (s : State) : s.beginStep.clkPrevP = s.clkPrevP := rfl
@[simp] theorem State.beginStep_lines (s : State) : s.beginStep.lines = s.lines := rfl
@[simp] theorem State.beginStep_srK (s : State) : s.beginStep.srK = s.srK := rfl
@[simp] theorem State.beginStep_srA (s : State) : s.beginStep.srA = s.srA := rfl
@[simp] theorem State.beginStep_srB (s : State) : s.beginStep.srB = s.srB := rfl
@[simp] theorem State.beginStep_romSel (s : State) : s.beginStep.romSel = s.romSel := rfl
@[simp] theorem State.beginStep_portOut (s : State) : s.beginStep.portOut = s.portOut := rfl
@[simp] theorem State.beginStep_portIn (s : State) : s.beginStep.portIn = s.portIn := rfl
@[simp] theorem State.beginStep_arcRom (s : State) : s.beginStep.arcRom = s.arcRom := rfl
@[simp] theorem State.beginStep_c4Rom (s : State) : s.beginStep.c4Rom = s.c4Rom := rfl
@[simp] theorem State.beginStep_hpRom (s : State) : s.beginStep.hpRom = s.hpRom := rfl
@[simp] theorem State.beginStep_hpWs (s : State) : s.beginStep.hpWs = s.hpWs := rfl
@[simp] theorem State.beginStep_arcRam (s : State) : s.beginStep.arcRam = s.arcRam := rfl
@[simp] theorem State.beginStep_c4Ram (s : State) : s.beginStep.c4Ram = s.c4Ram := rfl
@[simp] theorem State.beginStep_resp (s : State) : s.beginStep.resp = s.resp := rfl
@[simp] theorem State.beginStep_cpu (s : State) : s.beginStep.cpu = { s.cpu with heard := [] } := rfl

end Sys2Proof.Machine
end

