-- ==== Sys2Proof/Laws/Ops.lean ====
section
/-! SUPPORT. One lemma for each shared operation that says once what it can do. -/

namespace Sys2Proof.Machine

theorem config_ok_iff {c : Config} : c.ok = true ↔ c.Ok := by simp only [Config.ok, decide_eq_true_eq]

/-! ### When an operation is served -/

theorem refusal_request {s : State} {f : Family} :
    s.refusal (.request f) = none ↔ s.cfg.ok = true ∧ s.halted = false ∧ s.cfg.family = f ∧ s.phase = .one := by
  unfold State.refusal
  by_cases h1 : s.cfg.ok = true <;> by_cases h2 : s.halted = true <;> by_cases h3 : s.cfg.family = f <;>
    by_cases h4 : s.phase = .one <;> simp [h1, h2, h3, h4]

theorem refusal_command {s : State} :
    s.refusal .command = none ↔ s.cfg.ok = true ∧ s.halted = false ∧ s.phase = .between := by
  unfold State.refusal
  by_cases h1 : s.cfg.ok = true <;> by_cases h2 : s.halted = true <;> by_cases h4 : s.phase = .between <;> simp [h1, h2, h4]

theorem refusal_commandWhileHalted {s : State} :
    s.refusal .commandWhileHalted = none ↔ s.cfg.ok = true ∧ s.phase = .between := by
  unfold State.refusal
  by_cases h1 : s.cfg.ok = true <;> by_cases h4 : s.phase = .between <;> simp [h1, h4]

theorem refusal_micro {s : State} {p : Phase} :
    s.refusal (.micro p) = none ↔ s.cfg.ok = true ∧ s.halted = false ∧ s.phase = p := by
  unfold State.refusal
  by_cases h1 : s.cfg.ok = true <;> by_cases h2 : s.halted = true <;> by_cases h4 : s.phase = p <;> simp [h1, h2, h4]

/-- No operation is served on a configuration the rules cannot serve. -/
theorem refusal_badConfig {s : State} (h : s.cfg.ok = false) (ctx : Context) : s.refusal ctx = some .badConfig := by
  cases ctx <;> simp [State.refusal, h]

/-- A halted board serves only what `RESET` and `SNAP` ask. -/
theorem refusal_halted {s : State} (hc : s.cfg.ok = true) (h : s.halted = true) {ctx : Context}
    (hx : ctx ≠ .commandWhileHalted) : s.refusal ctx = some .halted := by
  cases ctx <;> simp_all [State.refusal]

theorem gated_of_none {ctx : Context} {s : State} {k : Result} (h : s.refusal ctx = none) : gated ctx s k = k := by
  simp [gated, h]

theorem gated_of_some {ctx : Context} {s : State} {k : Result} {r : Refusal} (h : s.refusal ctx = some r) :
    gated ctx s k = .refused r := by simp [gated, h]

/-- If an operation answers a next state, it was served. -/
theorem gated_next {ctx : Context} {s t : State} {k : Result} (h : gated ctx s k = .next t) :
    s.refusal ctx = none ∧ k = .next t := by
  unfold gated at h
  split at h
  · cases h
  · exact ⟨by assumption, h⟩

theorem gated_request {s : State} {f : Family} (k : Result) (hc : s.cfg.ok = true) (hh : s.halted = false)
    (hf : s.cfg.family = f) (hp : s.phase = .one) : gated (.request f) s k = k :=
  gated_of_none (refusal_request.mpr ⟨hc, hh, hf, hp⟩)

theorem gated_command {s : State} (k : Result) (hc : s.cfg.ok = true) (hh : s.halted = false) (hp : s.phase = .between) :
    gated .command s k = k := gated_of_none (refusal_command.mpr ⟨hc, hh, hp⟩)

theorem gated_commandWhileHalted {s : State} (k : Result) (hc : s.cfg.ok = true) (hp : s.phase = .between) :
    gated .commandWhileHalted s k = k := gated_of_none (refusal_commandWhileHalted.mpr ⟨hc, hp⟩)

theorem gated_micro {s : State} {p : Phase} (k : Result) (hc : s.cfg.ok = true) (hh : s.halted = false) (hp : s.phase = p) :
    gated (.micro p) s k = k := gated_of_none (refusal_micro.mpr ⟨hc, hh, hp⟩)

/-! ### Sequencing -/

@[simp] theorem andThen_of_next (s : State) (k : State → Result) : Result.andThen (.next s) k = k s := rfl

@[simp] theorem andThen_of_refused (r : Refusal) (k : State → Result) :
    Result.andThen (.refused r) k = .refused r := rfl

theorem andThen_next {o : Result} {k : State → Result} {t : State} :
    Result.andThen o k = .next t ↔ ∃ s, o = .next s ∧ k s = .next t := by
  cases o <;> simp [Result.andThen]

/-! ### Fields and indexes -/

theorem slice_toNat {w : Nat} (x : BitVec w) (lo n : Nat) : (slice x lo n).toNat = x.toNat / 2 ^ lo % 2 ^ n := by
  simp [slice, BitVec.extractLsb'_toNat, Nat.shiftRight_eq_div_pow]

/-- The index is `cs + 4 * bank` (R62: "since `cs < 4` the OR equals the sum"). -/
theorem physIndex_toNat : ∀ cs b : BitVec 2, (physIndex cs b).toNat = cs.toNat + 4 * b.toNat := by decide

theorem flatDecode_rom {c : Config} {a : BitVec 16} (h : a.toNat < 0x2000) :
    flatDecode c a = .rom (a.toNat / 2048) (a.toNat % 2048) := by
  unfold flatDecode
  rw [if_neg (by omega), if_pos h]

theorem flatDecode_ram {c : Config} {a : BitVec 16} (h : 0x2000 ≤ a.toNat) (h' : a.toNat < 0x4000) :
    flatDecode c a = .ram ((a.toNat - 0x2000) / c.arcRamLen) ((a.toNat - 0x2000) % c.arcRamLen) := by
  unfold flatDecode
  rw [if_neg (by omega), if_neg (by omega)]

theorem flatDecode_fatal {c : Config} {a : BitVec 16} (h : 0x4000 ≤ a.toNat) : flatDecode c a = .fatal := by
  unfold flatDecode
  rw [if_pos h]

/-- The cells of the ROM region in a row are its addresses. -/
theorem arcRomCell_divMod (a : Nat) : arcRomCell (a / 2048) (a % 2048) = a := by
  unfold arcRomCell Config.arcRomLen
  omega

/-- The cells of the RAM region in a row are its region-relative addresses, whatever the chip split. -/
theorem arcRamCell_divMod (c : Config) (r : Nat) : arcRamCell c (r / c.arcRamLen) (r % c.arcRamLen) = r := by
  unfold arcRamCell
  rw [Nat.mul_comm]
  exact Nat.div_add_mod r c.arcRamLen

/-! ### C4 RAM selection -/

theorem ramIndex_drop {s : State} {cm : BitVec 3} {di : BitVec 8} {dir : AccessDir}
    (h : s.cfg.c4NRam ≤ (physIndex (chipSelect di) (bank cm).1).toNat) :
    s.ramIndex cm di dir =
      (none, (s.bankLookup cm).addDiag (.unpopulated (physIndex (chipSelect di) (bank cm).1) dir)) := by
  simp [State.ramIndex, h]

theorem ramIndex_served {s : State} {cm : BitVec 3} {di : BitVec 8} {dir : AccessDir}
    (h : (physIndex (chipSelect di) (bank cm).1).toNat < s.cfg.c4NRam) :
    s.ramIndex cm di dir = (some (physIndex (chipSelect di) (bank cm).1), s.bankLookup cm) := by
  simp [State.ramIndex, Nat.not_le.mpr h]

/-- What `RamIndex` can do: append records to `diag`, and name a populated chip or none. -/
theorem ramIndex_cases (s : State) (cm : BitVec 3) (di : BitVec 8) (dir : AccessDir) :
    (∃ r, s.ramIndex cm di dir = (none, (s.bankLookup cm).addDiag r)) ∨
      ∃ idx, idx.toNat < s.cfg.c4NRam ∧ s.ramIndex cm di dir = (some idx, s.bankLookup cm) := by
  by_cases h : s.cfg.c4NRam ≤ (physIndex (chipSelect di) (bank cm).1).toNat
  · exact .inl ⟨_, ramIndex_drop h⟩
  · exact .inr ⟨_, Nat.not_le.mp h, ramIndex_served (Nat.not_le.mp h)⟩

theorem c4RamCell_lt (idx : Nat) (k : CellKind) (off : BitVec 6) :
    c4RamCell idx k off < (idx + 1) * Config.c4RamCells := by
  have := off.isLt
  unfold c4RamCell Config.c4RamCells
  cases k <;> simp [CellKind.toBit] <;> omega

/-- Each `(k, off)` of each chip is a cell of its own (R23). -/
theorem c4RamCell_inj {i i' : Nat} {k k' : CellKind} {o o' : BitVec 6}
    (h : c4RamCell i k o = c4RamCell i' k' o') : i = i' ∧ k = k' ∧ o = o' := by
  have h1 := o.isLt
  have h2 := o'.isLt
  unfold c4RamCell Config.c4RamCells at h
  cases k <;> cases k' <;> simp [CellKind.toBit] at h ⊢
  · exact ⟨by omega, BitVec.eq_of_toNat_eq (by omega)⟩
  · omega
  · omega
  · exact ⟨by omega, BitVec.eq_of_toNat_eq (by omega)⟩

/-! ### The merge -/

@[simp] theorem merge_zero {w : Nat} (f : Nat → BitVec w) : merge 0 f = 0 := rfl

/-- The merge takes in one chip after the other. -/
theorem merge_succ {w : Nat} (n : Nat) (f : Nat → BitVec w) : merge (n + 1) f = merge n f ||| f n := by
  simp [merge, List.range_succ]

/-- Bit by bit, the merge is an OR over the chips. -/
theorem merge_getLsbD {w : Nat} (n : Nat) (f : Nat → BitVec w) (j : Nat) :
    (merge n f).getLsbD j = true ↔ ∃ i, i < n ∧ (f i).getLsbD j = true := by
  induction n with
  | zero => simp
  | succ n ih =>
    rw [merge_succ, BitVec.getLsbD_or, Bool.or_eq_true, ih]
    constructor
    · rintro (⟨i, h, h'⟩ | h)
      · exact ⟨i, by omega, h'⟩
      · exact ⟨n, by omega, h⟩
    · rintro ⟨i, h, h'⟩
      by_cases e : i = n
      · exact .inr (e ▸ h')
      · exact .inl ⟨i, by omega, h'⟩

/-- The merge of chips of which only `b` answers is what `b` answers (R96). -/
theorem merge_single {w n b : Nat} (hb : b < n) (f : Nat → BitVec w) (h : ∀ i, i ≠ b → f i = 0) : merge n f = f b := by
  refine BitVec.eq_of_getLsbD_eq fun j _ => ?_
  rw [Bool.eq_iff_iff, merge_getLsbD]
  constructor
  · rintro ⟨i, _, hi⟩
    by_cases e : i = b
    · exact e ▸ hi
    · simp [h i e] at hi
  · exact fun hj => ⟨b, hb, hj⟩

theorem selected_iff {s : State} {i : Nat} : s.selected i = true ↔ s.romSel[i]? = some i := by
  simp [State.selected]

/-- With the banks in lockstep exactly the bank they hold is selected (R96). -/
theorem selected_of_lockstep {s : State} {b : Nat} (hb : b < s.cfg.hpNRom)
    (hl : s.romSel = List.replicate s.cfg.hpNRom b) (i : Nat) : s.selected i = decide (i = b) := by
  rw [Bool.eq_iff_iff, selected_iff, hl, List.getElem?_replicate]
  simp only [Option.ite_none_right_eq_some, Option.some.injEq, decide_eq_true_eq]
  constructor
  · exact fun h => h.2.symm
  · rintro rfl
    exact ⟨hb, rfl⟩

/-! ### Ports -/

@[simp] theorem Ports.set_rom_rom (p : Ports) (i v : Nat) : (p.set .rom i v).rom = p.rom.set i v := rfl
@[simp] theorem Ports.set_rom_ram (p : Ports) (i v : Nat) : (p.set .rom i v).ram = p.ram := rfl
@[simp] theorem Ports.set_ram_rom (p : Ports) (i v : Nat) : (p.set .ram i v).rom = p.rom := rfl
@[simp] theorem Ports.set_ram_ram (p : Ports) (i v : Nat) : (p.set .ram i v).ram = p.ram.set i v := rfl

theorem trunc_lt (n v : Nat) : trunc n v < 2 ^ n := Nat.mod_lt _ (Nat.two_pow_pos n)

/-- What a port write moves, as a number: the low C4_PORT_W bits of `v`. -/
theorem portValue_eq (c : Config) (v : BitVec 4) : portValue c v = v.toNat % 2 ^ c.c4PortW := BitVec.toNat_setWidth ..

theorem portValue_lt (c : Config) (v : BitVec 4) : portValue c v < 2 ^ c.c4PortW := (v.setWidth c.c4PortW).isLt

/-- Writing a port of a sound set of ports with a value of the port's width keeps it sound. -/
theorem Ports.Sound.set {c : Config} {p : Ports} (h : p.Sound c) (k : ChipKind) (i : Nat) {v : Nat}
    (hv : v < 2 ^ c.c4PortW) : (p.set k i v).Sound c := by
  have hm : ∀ l : List Nat, (∀ x ∈ l, x < 2 ^ c.c4PortW) → ∀ x ∈ l.set i v, x < 2 ^ c.c4PortW := fun l hl x hx =>
    (List.mem_or_eq_of_mem_set hx).elim (hl x) (fun e => e ▸ hv)
  cases k
  · exact ⟨by simpa using h.romLength, h.ramLength, hm _ h.romFits, h.ramFits⟩
  · exact ⟨h.romLength, by simpa using h.ramLength, h.romFits, hm _ h.ramFits⟩

/-! ### Shifts -/

/-- A shift register keeps its width. -/
theorem shifted_lt {n : Nat} {edge din : Bool} {v : Nat} (h : v < 2 ^ n) : shifted n edge din v < 2 ^ n := by
  unfold shifted
  split
  · exact trunc_lt _ _
  · exact h

/-! ### The next word -/

theorem fetch_nil {s : State} (h : s.inbox = []) : s.fetch = .idle := by simp [State.fetch, h]

theorem fetch_cons {s : State} {e : Encoded} {rest : List Encoded} {i : Instr} (h : s.inbox = e :: rest)
    (hd : decode s.cfg.romselPattern e = .ok i) : s.fetch = .run i (State.supply { s with inbox := rest } i) := by
  simp [State.fetch, h, hd]

/-- What one step can be: nothing presented, or the next word's instruction run. -/
theorem step_cases {s t : State} (h : step s = .next t) :
    t = s ∨ ∃ e rest i, s.inbox = e :: rest ∧ decode s.cfg.romselPattern e = .ok i ∧
      exec i (State.supply { s with inbox := rest } i) = .next t := by
  unfold step State.fetch at h
  cases hi : s.inbox with
  | nil => simp [hi] at h; exact .inl h.symm
  | cons e rest =>
    simp only [hi] at h
    cases hd : decode s.cfg.romselPattern e with
    | error r => simp [hd] at h
    | ok i => simp [hd] at h; exact .inr ⟨e, rest, i, rfl, hd, h⟩

/-! ### Serving the CPU agent -/

theorem serveRequest_next {q : Req} {s t : State} (h : serveRequest q s = .next t) :
    ∃ i, decodeReq q = .ok i ∧ serve i (s.supply i) = .next t := by
  unfold serveRequest at h
  split at h
  · cases h
  · exact ⟨_, by assumption, h⟩

/-- The ways one request of a plan ends: it was fatal and the step is abandoned, or the plan goes on. -/
theorem servePlan_ask {q : Req} {p : CpuPlan} {s t : State} (h : servePlan (.ask q p) s = .next t) :
    ∃ u, serveRequest q s = .next u ∧
      ((u.halted = true ∧ t = u.withPlan p) ∨ (u.halted = false ∧ servePlan p u = .next t)) := by
  obtain ⟨u, hu, hk⟩ := andThen_next.mp h
  refine ⟨u, hu, ?_⟩
  split at hk
  · cases hk; exact .inl ⟨by assumption, rfl⟩
  · rename_i hf; exact .inr ⟨by simpa using hf, hk⟩

/-- Whatever every served request keeps, and does not concern the agent's plan, the whole of phase 1 keeps. -/
theorem servePlan_keeps {P : State → Prop} (hs : ∀ i s t, P s → serve i (s.supply i) = .next t → P t)
    (hw : ∀ s p, P s → P (s.withPlan p)) : ∀ {p : CpuPlan} {s t : State}, P s → servePlan p s = .next t → P t := by
  intro p
  induction p with
  | idle => intro s t hp h; cases h; exact hw _ _ hp
  | done p => intro s t hp h; cases h; exact hw _ _ hp
  | ask q p ih =>
    intro s t hp h
    obtain ⟨u, hu, h⟩ := servePlan_ask h
    obtain ⟨i, _, hi⟩ := serveRequest_next hu
    have hpu := hs i s u hp hi
    rcases h with ⟨_, rfl⟩ | ⟨_, hk⟩
    · exact hw _ _ hpu
    · exact ih hpu hk
  | whenHeard r y n ihy ihn =>
    intro s t hp h
    simp only [servePlan] at h
    split at h
    · exact ihy hp h
    · exact ihn hp h

end Sys2Proof.Machine
end

