-- ==== Sys2Proof/Laws/Encoding.lean ====
section
/-! SUPPORT. The fields of a word built from fields: what `slice` reads from a concatenation. -/

namespace Sys2Proof

/-- The number a concatenation writes. -/
theorem append_toNat {n m : Nat} (x : BitVec n) (y : BitVec m) : (x ++ y).toNat = x.toNat * 2 ^ m + y.toNat := by
  rw [BitVec.toNat_append, Nat.shiftLeft_eq, Nat.mul_comm, Nat.two_pow_add_eq_or_of_lt y.isLt]

/-- Reading both fields of a two-field word. -/
theorem slice_pair {n m N : Nat} (x : BitVec n) (y : BitVec m) (z : BitVec N) (hz : z.toNat = x.toNat * 2 ^ m + y.toNat) :
    slice z m n = x ∧ slice z 0 m = y := by
  constructor <;> refine BitVec.eq_of_toNat_eq ?_ <;> rw [Machine.slice_toNat, hz]
  · rw [Nat.mul_comm, Nat.mul_add_div (Nat.two_pow_pos m), Nat.div_eq_of_lt y.isLt]
    simp
  · simp

/-- The operation of an encoded request (R50). -/
theorem op_append (op : BitVec 4) (a : BitVec 16) (d : DataWord) (blob : List Byte) : Req.op ⟨op ++ a, d, blob⟩ = op :=
  (slice_pair op a _ (append_toNat op a)).1

/-- The operand field of an encoded request (R50). -/
theorem a_append (op : BitVec 4) (a : BitVec 16) (d : DataWord) (blob : List Byte) : Req.a ⟨op ++ a, d, blob⟩ = a :=
  (slice_pair op a _ (append_toNat op a)).2

@[simp] theorem CellKind.ofBit_toBit (k : CellKind) : CellKind.ofBit k.toBit = k := by cases k <;> rfl

theorem CellKind.toBit_ofBit : ∀ b : BitVec 1, (CellKind.ofBit b).toBit = b := by decide

/-- Accepting a word: its unnamed bits are 0. -/
theorem whenZero_ok {n : Nat} {x : BitVec n} {i j : Instr} : whenZero x i = .ok j ↔ x = 0 ∧ i = j := by
  unfold whenZero
  split <;> simp_all

end Sys2Proof
end

