-- ==== Sys2Proof/Laws/Images.lean ====
section
/-! SUPPORT. What unpacking a ROM image gives (R165, R166, R169), whatever the free packings are. -/

namespace Sys2Proof.Machine

/-- The all-zero image unpacks to all-zero words (R165). -/
@[simp] theorem hpUnpack_zero : hpUnpack 0 = 0 := by simp [hpUnpack]

theorem packedBits_zero {blob : List Byte} (h : ∀ b ∈ blob, b = 0) : packedBits blob = 0 := by
  have : blob.foldr (fun b acc => b.toNat + 256 * acc) 0 = 0 := by
    induction blob with
    | nil => rfl
    | cons b bl ih => simp [h b (by simp), ih (fun c hc => h c (by simp [hc]))]
  simp [packedBits, this]

/-- An image of zero bytes gives words of zero on HP. -/
theorem hpUnpackWords_zero {blob : List Byte} (h : ∀ b ∈ blob, b = 0) : ∀ w ∈ hpUnpackWords blob, w = 0 := by
  intro w hw
  obtain ⟨k, _, rfl⟩ := List.mem_map.mp hw
  rw [packedBits_zero h, hpUnpack_zero]
  simp [slice]

theorem unpadded_length_le (blob : List Byte) : (unpadded blob).length ≤ blob.length :=
  (List.rdropWhile_prefix (p := _) blob).length_le

/-- Zero bytes at the end of a blob make no difference to the image (R166). -/
theorem unpadded_append_zeros (blob : List Byte) (n : Nat) : unpadded (blob ++ List.replicate n 0) = unpadded blob := by
  induction n with
  | zero => simp
  | succ n ih =>
    rw [List.replicate_succ', ← List.append_assoc, unpadded, List.rdropWhile_concat_pos _ _ _ (by simp)]
    exact ih

theorem c4WideWord_lt (c : Config) (blob : List Byte) (k : Nat) : (c4WideWord c blob k).toNat < 2 ^ c.c4RomW := by
  unfold c4WideWord
  split
  · simp
  · exact Nat.lt_of_le_of_lt (by rw [BitVec.toNat_ofNat]; exact Nat.mod_le _ _) (Nat.mod_lt _ (Nat.two_pow_pos _))

/-- Words beyond the blob read as 0 (R166). -/
theorem c4WideWord_beyond {c : Config} {blob : List Byte} {k : Nat} (h : 8 * blob.length ≤ k * c.c4RomW) :
    c4WideWord c blob k = 0 :=
  if_pos (Nat.le_trans (Nat.mul_le_mul_left 8 (unpadded_length_le blob)) h)

end Sys2Proof.Machine
end

