-- ==== Sys2Proof/Laws/PerInstr.lean ====
section
/-! SUPPORT. One lemma for every constructor of Instr: the encoded form of the instruction is the one spec/opcode_table.json
gives its row (R64). -/

namespace Sys2Proof.Laws.Format

/-- The names of the encoded forms (R64). -/
def ofEncoded : Encoded → String
  | .req _ => "REQ20"
  | .phase _ => "PHASE"
  | .hpop _ => "HPOP10"
  | .arcAddr _ => "ARC_ADDR16"
  | .cm _ => "CM3"

/-- Requests and commands have request words; of the rest the ARC rows have addresses, the C4 rows command-control values,
the HP row an opcode, and the rows of every family a phase number (R51, R52, R54, R57, R122). -/
def expected (i : Instr) : String :=
  if i.isRequest || i.isCommand then "REQ20"
  else
    match i.family with
    | some .arc => "ARC_ADDR16"
    | some .c4 => "CM3"
    | some .hp => "HPOP10"
    | none => "PHASE"

/-- The encoding of `i`, whatever the pattern, has the form its row gives. -/
def Statement (i : Instr) : Prop := ∀ pattern : BitVec 7, ofEncoded (encode pattern i) = expected i

theorem arcRd (addr : BitVec 16) : Statement (.arcRd addr) := fun _ => rfl
theorem arcWr (addr : BitVec 16) (v : BitVec 8) : Statement (.arcWr addr v) := fun _ => rfl
theorem c4Romrd (addr : BitVec 12) : Statement (.c4Romrd addr) := fun _ => rfl
theorem c4Ramrd (k : CellKind) (cm : BitVec 3) (di : BitVec 8) : Statement (.c4Ramrd k cm di) := fun _ => rfl
theorem c4Ramwr (k : CellKind) (cm : BitVec 3) (di : BitVec 8) (v : BitVec 4) : Statement (.c4Ramwr k cm di v) := fun _ => rfl
theorem c4Rampw (cm : BitVec 3) (di : BitVec 8) (v : BitVec 4) : Statement (.c4Rampw cm di v) := fun _ => rfl
theorem c4Rompr (di : BitVec 8) : Statement (.c4Rompr di) := fun _ => rfl
theorem c4Rompw (di : BitVec 8) (v : BitVec 4) : Statement (.c4Rompw di v) := fun _ => rfl
theorem hpFetch (addr : BitVec 8) : Statement (.hpFetch addr) := fun _ => rfl
theorem hpWsrd (addr : BitVec 8) : Statement (.hpWsrd addr) := fun _ => rfl
theorem tick : Statement (.tick) := fun _ => rfl
theorem inject (v : BitVec 16) : Statement (.inject v) := fun _ => rfl
theorem reset : Statement (.reset) := fun _ => rfl
theorem loadrom (i : BitVec 8) (blob : List Byte) : Statement (.loadrom i blob) := fun _ => rfl
theorem rdpar : Statement (.rdpar) := fun _ => rfl
theorem snap : Statement (.snap) := fun _ => rfl
theorem cpuStep : Statement (.cpuStep) := fun _ => rfl
theorem pccExtract : Statement (.pccExtract) := fun _ => rfl
theorem pccShift : Statement (.pccShift) := fun _ => rfl
theorem sleUpdate : Statement (.sleUpdate) := fun _ => rfl
theorem hpRomsel (b : BitVec 3) : Statement (.hpRomsel b) := fun _ => rfl
theorem arcAddrRom (chip : BitVec 2) (offset : BitVec 11) : Statement (.arcAddrRom chip offset) := fun _ => rfl
theorem arcAddrRam (r : BitVec 13) : Statement (.arcAddrRam r) := fun _ => rfl
theorem arcAddrFatal01 (x : BitVec 14) : Statement (.arcAddrFatal01 x) := fun _ => rfl
theorem arcAddrFatal10 (x : BitVec 14) : Statement (.arcAddrFatal10 x) := fun _ => rfl
theorem arcAddrFatal11 (x : BitVec 14) : Statement (.arcAddrFatal11 x) := fun _ => rfl
theorem cm000 : Statement (.cm000) := fun _ => rfl
theorem cm001 : Statement (.cm001) := fun _ => rfl
theorem cm010 : Statement (.cm010) := fun _ => rfl
theorem cm100 : Statement (.cm100) := fun _ => rfl
theorem cm011 : Statement (.cm011) := fun _ => rfl
theorem cm101 : Statement (.cm101) := fun _ => rfl
theorem cm110 : Statement (.cm110) := fun _ => rfl
theorem cm111 : Statement (.cm111) := fun _ => rfl

end Sys2Proof.Laws.Format
end

