-- ==== Sys2Proof/Laws/Xo.lean ====
section
/-! SUPPORT. What phase 1, a CPU step and a tick can do: the frame of every served request and of the whole phase, and
the two ways a tick ends. -/

namespace Sys2Proof.Machine

/-- The CPU agent's request is served by the meaning of its row. -/
theorem serve_eq_exec {i : Instr} (h : i.isRequest = true) : serve i = exec i := by
  funext s
  cases i <;> first | rfl | (simp [Instr.isRequest] at h)

/-- What no CPU request changes: everything but RAM, the output ports, the bank selects, `diag`, the agent, the response
and, when a request was fatal, `halted`, `key_in` and the position in the tick. -/
structure KeptInPhaseOne (s t : State) : Prop where
  cfg : t.cfg = s.cfg
  inbox : t.inbox = s.inbox
  latch : t.latch = s.latch
  pulse : t.pulse = s.pulse
  clkPrevK : t.clkPrevK = s.clkPrevK
  clkPrevP : t.clkPrevP = s.clkPrevP
  srK : t.srK = s.srK
  srA : t.srA = s.srA
  srB : t.srB = s.srB
  portIn : t.portIn = s.portIn
  arcRom : t.arcRom = s.arcRom
  c4Rom : t.c4Rom = s.c4Rom
  hpRom : t.hpRom = s.hpRom
  hpWs : t.hpWs = s.hpWs
  diag : s.diag <+: t.diag
  unlessFatal : t.halted = false → t.lines = s.lines ∧ t.phase = s.phase ∧ t.keyIn = s.keyIn

theorem KeptInPhaseOne.refl (s : State) : KeptInPhaseOne s s := by constructor <;> simp

theorem KeptInPhaseOne.trans {s t u : State} (h : KeptInPhaseOne s t) (hf : t.halted = false)
    (k : KeptInPhaseOne t u) : KeptInPhaseOne s u where
  cfg := k.cfg.trans h.cfg
  inbox := k.inbox.trans h.inbox
  latch := k.latch.trans h.latch
  pulse := k.pulse.trans h.pulse
  clkPrevK := k.clkPrevK.trans h.clkPrevK
  clkPrevP := k.clkPrevP.trans h.clkPrevP
  srK := k.srK.trans h.srK
  srA := k.srA.trans h.srA
  srB := k.srB.trans h.srB
  portIn := k.portIn.trans h.portIn
  arcRom := k.arcRom.trans h.arcRom
  c4Rom := k.c4Rom.trans h.c4Rom
  hpRom := k.hpRom.trans h.hpRom
  hpWs := k.hpWs.trans h.hpWs
  diag := h.diag.trans k.diag
  unlessFatal := fun e =>
    ⟨(k.unlessFatal e).1.trans (h.unlessFatal hf).1, (k.unlessFatal e).2.1.trans (h.unlessFatal hf).2.1,
      (k.unlessFatal e).2.2.trans (h.unlessFatal hf).2.2⟩

/-- What is stored, where: of RAM, ports and bank selects a request changes only what its own kind writes. -/
structure StoresOfItsKind (i : Instr) (s t : State) : Prop where
  romSel : (∀ a, i ≠ .hpFetch a) → t.romSel = s.romSel
  portOut : (∀ cm di d, i ≠ .c4Rampw cm di d) → (∀ di d, i ≠ .c4Rompw di d) → t.portOut = s.portOut
  arcRam : (∀ a v, i ≠ .arcWr a v) → t.arcRam = s.arcRam
  c4Ram : (∀ k cm di v, i ≠ .c4Ramwr k cm di v) → t.c4Ram = s.c4Ram

/-- The frame of a served request. -/
theorem serve_frame {i : Instr} {s t : State} (hs : serve i s = .next t) :
    KeptInPhaseOne s t ∧ StoresOfItsKind i s t := by
  cases i <;> simp only [serve] at hs <;> try cases hs
  case arcRd a =>
    obtain ⟨_, hs⟩ := gated_next hs
    split at hs <;> cases hs <;> constructor <;> constructor <;> simp [State.takeFatal]
  case arcWr a v =>
    obtain ⟨_, hs⟩ := gated_next hs
    split at hs <;> cases hs <;> constructor <;> constructor <;> simp [State.takeFatal]
  case c4Romrd a => obtain ⟨_, hs⟩ := gated_next hs; cases hs; constructor <;> constructor <;> simp
  case c4Ramrd k cm di =>
    obtain ⟨_, hs⟩ := gated_next hs
    rcases ramIndex_cases s cm di .read with ⟨r, e⟩ | ⟨idx, _, e⟩ <;> rw [e] at hs <;> cases hs <;>
      constructor <;> constructor <;> simp
  case c4Ramwr k cm di v =>
    obtain ⟨_, hs⟩ := gated_next hs
    rcases ramIndex_cases s cm di .write with ⟨r, e⟩ | ⟨idx, _, e⟩ <;> rw [e] at hs <;> cases hs <;>
      constructor <;> constructor <;> simp
  case c4Rampw cm di v =>
    obtain ⟨_, hs⟩ := gated_next hs
    rcases ramIndex_cases s cm di .portWrite with ⟨r, e⟩ | ⟨idx, _, e⟩ <;> rw [e] at hs <;> cases hs <;>
      constructor <;> constructor <;> simp
  case c4Rompr di => obtain ⟨_, hs⟩ := gated_next hs; cases hs; constructor <;> constructor <;> simp
  case c4Rompw di d => obtain ⟨_, hs⟩ := gated_next hs; cases hs; constructor <;> constructor <;> simp
  case hpFetch a => obtain ⟨_, hs⟩ := gated_next hs; cases hs; constructor <;> split <;> constructor <;> simp
  case hpWsrd a => obtain ⟨_, hs⟩ := gated_next hs; cases hs; constructor <;> constructor <;> simp

theorem serveRequest_kept {q : Req} {s t : State} (h : serveRequest q s = .next t) : KeptInPhaseOne s t := by
  obtain ⟨i, _, hi⟩ := serveRequest_next h
  have f := (serve_frame hi).1
  exact ⟨f.cfg, f.inbox, f.latch, f.pulse, f.clkPrevK, f.clkPrevP, f.srK, f.srA, f.srB, f.portIn, f.arcRom, f.c4Rom,
    f.hpRom, f.hpWs, f.diag, f.unlessFatal⟩

/-- What the agent will do next is no concern of the board. -/
theorem KeptInPhaseOne.withPlan {s t : State} (h : KeptInPhaseOne s t) (p : CpuPlan) :
    KeptInPhaseOne s (t.withPlan p) :=
  ⟨h.cfg, h.inbox, h.latch, h.pulse, h.clkPrevK, h.clkPrevP, h.srK, h.srA, h.srB, h.portIn, h.arcRom, h.c4Rom, h.hpRom,
    h.hpWs, h.diag, h.unlessFatal⟩

/-- The frame of phase 1. -/
theorem servePlan_kept {p : CpuPlan} : ∀ {s t : State}, servePlan p s = .next t → KeptInPhaseOne s t := by
  induction p with
  | idle => intro s t h; cases h; exact (KeptInPhaseOne.refl s).withPlan _
  | done p => intro s t h; cases h; exact (KeptInPhaseOne.refl s).withPlan _
  | ask q p ih =>
    intro s t h
    obtain ⟨u, hu, ⟨_, rfl⟩ | ⟨hf, hk⟩⟩ := servePlan_ask h
    · exact (serveRequest_kept hu).withPlan _
    · exact (serveRequest_kept hu).trans hf (ih hk)
  | whenHeard r y n ihy ihn =>
    intro s t h
    simp only [servePlan] at h
    split at h
    · exact ihy h
    · exact ihn h

/-- The frame of a CPU step. -/
theorem cpuStep_kept {s t : State} (h : execCpuStep s = .next t) : KeptInPhaseOne s t := by
  obtain ⟨_, h⟩ := gated_next h
  have f := servePlan_kept h
  exact ⟨f.cfg, f.inbox, f.latch, f.pulse, f.clkPrevK, f.clkPrevP, f.srK, f.srA, f.srB, f.portIn, f.arcRom, f.c4Rom,
    f.hpRom, f.hpWs, f.diag, f.unlessFatal⟩

/-- A well-formed request of the board's family completes in phase 1. -/
theorem serve_completes {i : Instr} {s : State} (hc : s.cfg.ok = true) (hh : s.halted = false) (hp : s.phase = .one)
    (hq : i.isRequest = true) (hf : i.familyOk s.cfg = true) : ∃ t, serve i s = .next t := by
  have hc' : ∀ f, i.family = some f → s.refusal (.request f) = none := fun f h => by
    simp only [Instr.familyOk, h, beq_iff_eq] at hf
    exact refusal_request.mpr ⟨hc, hh, hf.symm, hp⟩
  cases i <;> simp only [Instr.isRequest, Bool.false_eq_true] at hq
  all_goals simp only [serve, execArcRd, execArcWr, execC4Romrd, execC4Ramrd, execC4Ramwr, execC4Rampw, execC4Rompr,
    execC4Rompw, execHpFetch, execHpWsrd]
  all_goals rw [gated_of_none (hc' _ rfl)]
  case arcRd => split <;> exact ⟨_, rfl⟩
  case arcWr => split <;> exact ⟨_, rfl⟩
  case c4Ramrd => split <;> exact ⟨_, rfl⟩
  case c4Ramwr => split <;> exact ⟨_, rfl⟩
  case c4Rampw => split <;> exact ⟨_, rfl⟩
  all_goals exact ⟨_, rfl⟩

/-- The two ways a tick ends: phase 1 was fatal and left its state, or phases 2, 3 and 4 ran. -/
theorem tick_cases {s t : State} (h : execTick s = .next t) :
    ∃ t1, execCpuStep (s.presentKey.enter .one) = .next t1 ∧
      ((t1.halted = true ∧ t = t1) ∨
        (t1.halted = false ∧ ∃ t2 t3 t4, execPccExtract (t1.enter .two) = .next t2 ∧
          execPccShift (t2.enter .three) = .next t3 ∧ execSleUpdate (t3.enter .four) = .next t4 ∧ t = t4.endTick)) := by
  obtain ⟨_, h⟩ := gated_next h
  obtain ⟨t1, h1, h⟩ := andThen_next.mp h
  refine ⟨t1, h1, ?_⟩
  split at h
  · cases h; exact .inl ⟨by assumption, rfl⟩
  · rename_i hf
    obtain ⟨t2, h2, h⟩ := andThen_next.mp h
    obtain ⟨t3, h3, h⟩ := andThen_next.mp h
    obtain ⟨t4, h4, h⟩ := andThen_next.mp h
    cases h
    exact .inr ⟨by simpa using hf, t2, t3, t4, h2, h3, h4, rfl⟩

end Sys2Proof.Machine
end

