-- ==== Sys2Proof/Tests/Slice0.lean ====
section
/-! SUPPORT. The model's own tests: ill-formed terms refused, words of the spec decoded, one step each with the result
the spec's vectors give, and a witness for the hypotheses of every statement. -/

open Sys2Proof Sys2Proof.Machine

namespace Sys2Proof.Tests

/-! ### Helpers -/

/-- A newly created board of a family of 95_test_vectors.md, at a phase. -/
def board (f : Family) (p : Phase) : State := State.enter (State.create (Config.board f)) p

/-- A board with one word presented. -/
def presenting (s : State) (e : Encoded) : State := { s with inbox := [e] }

/-- A board whose CPU agent issues the requests `qs` in its next step. -/
def issuing (s : State) (qs : List Req) : State := s.withPlan (askAll qs (.done .idle))

/-- A request word and its data. -/
def request (w : BitVec 20) (d : DataWord) : Req := ⟨w, d, []⟩

/-- One step with a request word and its data presented. -/
def stepOf (s : State) (w : BitVec 20) (d : DataWord) : Result := step (presenting s (.req (request w d)))

/-- What a next state holds. -/
def seen {α : Type} (o : Result) (g : State → α) : Option α :=
  match o with
  | .next t => some (g t)
  | .fault _ => none
  | .refused _ => none

/-- Why a step was refused. -/
def turnedAway (o : Result) : Option Refusal :=
  match o with
  | .next _ => none
  | .fault _ => none
  | .refused r => some r

/-- An HP board with the images of V7 in it. -/
def hpImages : State :=
  { board .hp .one with hpRom := [(0x012, 0x2A5), (0x112, 0x3FF), (0x212, 0x110)], hpWs := [(5, 0x3FFF), (0x105, 7)] }

/-- An HP board with the banks at `b`. -/
def atBank (s : State) (b : Nat) : State := { s with romSel := [b, b, b] }

/-! ### Well-formedness: each check refuses an ill-formed term -/

theorem test_wf_refuses_other_family : Instr.wf Config.arcBoard (.hpFetch 0x12) = false := by decide
theorem test_wf_refuses_missing_chip : Instr.wf Config.arcBoard (.loadrom 4 []) = false := by decide
theorem test_wf_accepts_last_chip : Instr.wf Config.arcBoard (.loadrom 3 []) = true := by decide
theorem test_wf_accepts_own_family : Instr.wf Config.hpBoard (.hpFetch 0x12) = true := by decide

/-! ### Configurations: what D39 refuses -/

theorem test_config_accepts_boards : ∀ f, (Config.board f).ok = true := by intro f; cases f <;> decide
theorem test_config_refuses_seventeen_rams : { Config.c4Board with c4NRam := 17 }.ok = false := by decide
theorem test_config_refuses_port_bit : { Config.c4Board with lKclk := ⟨.rom, 0, 4, false⟩ }.ok = false := by decide
theorem test_config_refuses_missing_signal_chip :
    { Config.c4Board with sigs := [⟨.ram, 2, .port, 0⟩] }.ok = false := by decide
theorem test_config_refuses_bidirectional : { Config.c4Board with shiftDir := .bidirectional }.ok = false := by decide
theorem test_config_refuses_ram_split : { Config.arcBoard with arcNRam := 7 }.ok = false := by decide
theorem test_config_refuses_chain_on_arc : { Config.arcBoard with nShift := 3 }.ok = false := by decide

/-! ### Decoding: words written out from the spec's encodings (95_test_vectors.md, R51, R52, R54, R57, R122) -/

theorem test_decode_arcRd : decodeReq (request 0x01234 0) = .ok (.arcRd 0x1234) := by decide
theorem test_decode_arcWr : decodeReq (request 0x13FFF 0x3FF) = .ok (.arcWr 0x3FFF 0xFF) := by decide
theorem test_decode_c4Romrd : decodeReq (request 0x209AB 0) = .ok (.c4Romrd 0x9AB) := by decide
theorem test_decode_c4Ramrd : decodeReq (request 0x30865 0) = .ok (.c4Ramrd .status 0b000 0x65) := by decide
theorem test_decode_c4Ramrd_cm : decodeReq (request 0x307C0 0) = .ok (.c4Ramrd .char 0b111 0xC0) := by decide
theorem test_decode_c4Ramwr : decodeReq (request 0x40CC3 0x007) = .ok (.c4Ramwr .status 0b100 0xC3 0x7) := by decide
theorem test_decode_c4Rampw : decodeReq (request 0x50080 0x002) = .ok (.c4Rampw 0b000 0x80 0x2) := by decide
theorem test_decode_c4Rompr : decodeReq (request 0x60010 0) = .ok (.c4Rompr 0x10) := by decide
theorem test_decode_c4Rompw : decodeReq (request 0x7004F 0x3F1) = .ok (.c4Rompw 0x4F 0x1) := by decide
theorem test_decode_hpFetch : decodeReq (request 0x80012 0) = .ok (.hpFetch 0x12) := by decide
theorem test_decode_hpWsrd : decodeReq (request 0x90005 0) = .ok (.hpWsrd 0x05) := by decide
theorem test_decode_tick : decodeReq (request 0xA0000 0) = .ok .tick := by decide
theorem test_decode_inject : decodeReq (request 0xB0009 0) = .ok (.inject 0x0009) := by decide
theorem test_decode_reset : decodeReq (request 0xC0000 0) = .ok .reset := by decide
theorem test_decode_loadrom : decodeReq ⟨0xD0002, 0, [0xC3]⟩ = .ok (.loadrom 2 [0xC3]) := by decide
theorem test_decode_rdpar : decodeReq (request 0xE0000 0) = .ok .rdpar := by decide
theorem test_decode_snap : decodeReq (request 0xF0000 0) = .ok .snap := by decide
theorem test_decode_phases :
    [1, 2, 3, 4].map decodePhase = [.ok .cpuStep, .ok .pccExtract, .ok .pccShift, .ok .sleUpdate] := by decide
theorem test_decode_hpRomsel : decodeHpop 0b0010000 0b0100010000 = .ok (.hpRomsel 0b010) := by decide
theorem test_decode_arcAddrRom : decodeArcAddr 0b0001011000000001 = .ok (.arcAddrRom 0b10 0b11000000001) := by decide
theorem test_decode_arcAddrRam : decodeArcAddr 0b0011000000000001 = .ok (.arcAddrRam 0b1000000000001) := by decide
theorem test_decode_arcAddrFatal01 : decodeArcAddr 0b0110000000000001 = .ok (.arcAddrFatal01 0b10000000000001) := by
  decide
theorem test_decode_arcAddrFatal10 : decodeArcAddr 0b1010000000000001 = .ok (.arcAddrFatal10 0b10000000000001) := by
  decide
theorem test_decode_arcAddrFatal11 : decodeArcAddr 0b1110000000000001 = .ok (.arcAddrFatal11 0b10000000000001) := by
  decide
theorem test_decode_cm :
    [0b000, 0b001, 0b010, 0b011, 0b100, 0b101, 0b110, 0b111].map decodeCm =
      [.ok .cm000, .ok .cm001, .ok .cm010, .ok .cm011, .ok .cm100, .ok .cm101, .ok .cm110, .ok .cm111] := by decide

theorem test_decode_rejects_unnamed_bits :
    [0x21000, 0x31000, 0x48000, 0x50800, 0x60100, 0x78000, 0x80100, 0x90100, 0xA0001, 0xC8000, 0xD0100, 0xE0001,
      0xF0001].map (fun w => decodeReq (request w 0)) = List.replicate 13 (.error .mustBeZero) := by decide
theorem test_decode_rejects_phases : [0, 5, 6, 7].map decodePhase = List.replicate 4 (.error .noSuchPhase) := by decide
theorem test_decode_rejects_opaque : decodeHpop 0b0010000 0x011 = .error .opaqueOpcode := by decide

/-! ### ARC: V1, V2 -/

theorem test_arcRd_rom : seen (stepOf { board .arc .one with arcRom := [(5, 0xC3)] } 0x00005 0) State.resp = some (.ok 0xC3) := by
  decide
theorem test_arcRd_fatal :
    seen (stepOf (board .arc .one) 0x04000 0) (fun t => (t.halted, t.resp)) = some (true, .fatal (.read 0x4000)) := by decide
theorem test_arcWr_last : seen (stepOf (board .arc .one) 0x13FFF 0x3FF) State.arcRam = some [(0x1FFF, 0xFF)] := by decide
theorem test_arcWr_rom : seen (stepOf (board .arc .one) 0x10005 0x0FF) (fun t => (t.arcRom, t.diag)) =
    some ([], [.romWrite 0x0005 0xFF]) := by decide
theorem test_arcAddrRom : seen (step (presenting (board .arc .one) (.arcAddr 0x1234))) State.resp =
    some (.target (.rom 2 0x234)) := by decide
theorem test_arcAddrRam : seen (step (presenting (board .arc .one) (.arcAddr 0x2400))) State.resp =
    some (.target (.ram 1 0)) := by decide
theorem test_arcAddrFatal01 : seen (step (presenting (board .arc .one) (.arcAddr 0x4000))) State.resp =
    some (.target .fatal) := by decide
theorem test_arcAddrFatal10 : seen (step (presenting (board .arc .one) (.arcAddr 0x8000))) State.resp =
    some (.target .fatal) := by decide
theorem test_arcAddrFatal11 : seen (step (presenting (board .arc .one) (.arcAddr 0xFFFF))) State.resp =
    some (.target .fatal) := by decide

/-! ### C4: V3, V5, V6 -/

theorem test_c4Romrd_wraps :
    seen (stepOf { board .c4 .one with c4Rom := [(4 * 256 + 0xAB, 0xEE)] } 0x209AB 0) State.resp = some (.ok 0xEE) := by decide
theorem test_c4Ramrd_invalid_cm :
    seen (stepOf { board .c4 .one with c4Ram := [(1 * 128 + 0x25, 0xA)] } 0x30365 0) (fun t => (t.resp, t.diag)) =
      some (.ok 0xA, [.badCm 0b011]) := by decide
theorem test_c4Ramrd_both_records : seen (stepOf (board .c4 .one) 0x307C0 0) (fun t => (t.resp, t.diag)) =
    some (.ok 0, [.badCm 0b111, .unpopulated 3 .read]) := by decide
theorem test_c4Ramwr_stores : seen (stepOf (board .c4 .one) 0x40065 0x01A) State.c4Ram = some [(1 * 128 + 0x25, 0xA)] := by
  decide
theorem test_c4Ramwr_drops : seen (stepOf (board .c4 .one) 0x40CC3 0x007) (fun t => (t.c4Ram, t.diag)) =
    some ([], [.unpopulated 15 .write]) := by decide
theorem test_c4Rampw_latches : seen (stepOf (board .c4 .one) 0x5003F 0x3F2) (fun t => t.portOut.ram) = some [2, 0] := by
  decide
theorem test_c4Rampw_drops : seen (stepOf (board .c4 .one) 0x50080 0x002) (fun t => (t.portOut.ram, t.diag)) =
    some ([0, 0], [.unpopulated 2 .portWrite]) := by decide
theorem test_c4Rompr_input_port :
    seen (stepOf { board .c4 .one with portOut := ⟨[0, 9, 0, 0, 0], [0, 0]⟩, portIn := ⟨[0, 3, 0, 0, 0], [0, 0]⟩ } 0x60060 0)
      State.resp = some (.ok 3) := by decide
theorem test_c4Rompw_wraps : seen (stepOf (board .c4 .one) 0x70060 0x3F9) (fun t => t.portOut.rom) = some [0, 9, 0, 0, 0] := by
  decide
theorem test_cm_valid : [0b000, 0b001, 0b010, 0b100].map
      (fun c => seen (step (presenting (board .c4 .one) (.cm c))) (fun t => (t.resp, t.diag))) =
    [some (.bank 0 false, []), some (.bank 1 false, []), some (.bank 2 false, []), some (.bank 3 false, [])] := by decide
theorem test_cm_invalid : [0b011, 0b101, 0b110, 0b111].map
      (fun c => seen (step (presenting (board .c4 .one) (.cm c))) (fun t => (t.resp, t.diag))) =
    [some (.bank 0 true, [.badCm 0b011]), some (.bank 0 true, [.badCm 0b101]), some (.bank 0 true, [.badCm 0b110]),
      some (.bank 0 true, [.badCm 0b111])] := by decide

/-! ### HP: V7 -/

theorem test_hpFetch_selects : seen (stepOf (atBank hpImages 2) 0x80012 0) (fun t => (t.resp, t.romSel)) =
    some (.ok 0x110, [2, 2, 2]) := by decide
theorem test_hpFetch_ordinary : seen (stepOf (atBank hpImages 1) 0x80012 0) (fun t => (t.resp, t.romSel)) =
    some (.ok 0x3FF, [1, 1, 1]) := by decide
theorem test_hpWsrd_bank_one : seen (stepOf (atBank hpImages 1) 0x90005 0) State.resp = some (.ok 7) := by decide
theorem test_hpRomsel_reduces : seen (step (presenting (board .hp .one) (.hpop 0x390))) State.romSel = some [1, 1, 1] := by
  decide

/-! ### The chain and the latches: V8, V9, V10 -/

theorem test_pccExtract_levels :
    seen (step (presenting { board .c4 .two with portOut := ⟨[0b0100, 0, 0, 0, 0], [0, 0]⟩ } (.phase 2))) State.lines =
      some ⟨false, false, true, true, false, true⟩ := by decide
theorem test_pccShift_carries_a_into_b :
    seen (step (presenting { board .c4 .three with srA := 0x200, srB := 0x001, lines := ⟨false, false, true, true, true, true⟩ }
      (.phase 3))) (fun t => (t.srA, t.srB, t.clkPrevP)) = some (0x001, 0x003, true) := by decide
theorem test_pccShift_needs_an_edge :
    seen (step (presenting { board .c4 .three with
        srA := 0x200, srB := 0x001, clkPrevP := true, lines := ⟨false, false, true, true, true, true⟩ } (.phase 3)))
      (fun t => (t.srA, t.srB, t.clkPrevP)) = some (0x200, 0x001, true) := by decide
theorem test_rdpar_pair : seen (stepOf { board .c4 .between with srA := 0x2AA, srB := 0b101 } 0xE0000 0) State.resp =
    some (.par 0x16AA) := by decide
theorem test_rdpar_without_chain : seen (stepOf (board .arc .between) 0xE0000 0) State.resp = some (.par 0) := by decide
theorem test_sleUpdate_both : seen (step (presenting { board .c4 .four with portOut := ⟨[0, 0, 0, 0, 0], [0b1010, 0]⟩ }
    (.phase 4))) (fun t => (t.latch, t.pulse)) = some ([true, true], [true, true]) := by decide
theorem test_sleUpdate_falls :
    seen (step (presenting { board .c4 .four with portOut := ⟨[0, 0, 0, 0, 0], [0b0010, 0]⟩, latch := [true, true] }
      (.phase 4))) (fun t => (t.latch, t.pulse)) = some ([true, false], [false, false]) := by decide

/-! ### Ticks and host commands: V11, V12, V13, P4 -/

theorem test_cpuStep_stops_at_a_fatal_request :
    seen (step (presenting (issuing (board .arc .one) [request 0x12001 0x77, request 0x04000 0, request 0x12002 0x88])
      (.phase 1))) (fun t => (t.halted, t.arcRam, t.resp)) = some (true, [(1, 0x77)], .fatal (.read 0x4000)) := by decide
theorem test_tick_quiet : seen (exec .tick State.reset) id = some State.reset := by decide
theorem test_tick_first_of_P4 :
    seen (stepOf (issuing (board .c4 .between) [request 0x70000 0x006]) 0xA0000 0)
      (fun t => (t.srK, t.srA, t.clkPrevK, t.clkPrevP, t.resp)) = some (0, 1, false, true, .ok 0) := by decide
theorem test_inject_later_wins : seen (stepOf { board .c4 .between with keyIn := some 1 } 0xB0002 0) State.keyIn =
    some (some 2) := by decide
theorem test_reset_clears_halted : seen (stepOf { board .arc .between with halted := true, arcRam := [(1, 0x77)] } 0xC0000 0)
    (fun t => (t.halted, t.arcRam)) = some (false, []) := by decide
theorem test_tick_refused_while_halted :
    turnedAway (stepOf { board .arc .between with halted := true } 0xA0000 0) = some .halted := by decide
theorem test_snap_while_halted : seen (stepOf { board .arc .between with halted := true } 0xF0000 0) State.resp =
    some (.snap ⟨⟨[], []⟩, ⟨[], []⟩, [], [], [], false, false, [], none, true⟩) := by decide
theorem test_loadrom_arc : seen (step (presenting { board .arc .between with arcRom := [(3, 1), (2048, 9)] }
    (.req ⟨0xD0000, 0, [0xC3, 0x00, 0x18]⟩))) State.arcRom = some [(0, 0xC3), (2, 0x18), (2048, 9)] := by decide
theorem test_loadrom_no_such_chip : turnedAway (stepOf (board .arc .between) 0xD0004 0) = some .noSuchChip := by decide

/-! ### The host's view: a table word runs as the first instruction after reset -/

theorem test_table_word_arc : seen (step (State.reset.withFetchWord 24 0x04000)) id =
    some (State.takeFatal (board .arc .one) (.read 0x4000)) := by decide
theorem test_table_word_bank_select : seen (step (State.reset.withFetchWord 16 0x110)) State.romSel = some [2, 2, 2] := by
  decide

/-! ### Witnesses: the hypotheses of each statement are met -/

theorem serving_met : ∀ f, (board f .one).Serving f := by intro f; cases f <;> exact ⟨by decide, rfl, rfl, rfl⟩
theorem ready_met : ∀ f, (board f .between).Ready := by intro f; cases f <;> exact ⟨by decide, rfl, rfl⟩
theorem phase_met : ∀ f p, (board f p).AtPhase p := by intro f p; exact ⟨test_config_accepts_boards f, rfl, rfl⟩

/-- The invariant holds of the C4 board, whatever is presented and whatever the agent will issue. -/
theorem inv_met (e : List Encoded) (qs : List Req) : ({ issuing (board .c4 .between) qs with inbox := e } : State).Inv :=
  ⟨show Config.c4Board.ok = true by decide, ⟨rfl, rfl⟩, rfl,
    ⟨rfl, rfl, show ∀ v ∈ [0, 0, 0, 0, 0], v < 2 ^ 4 by decide, show ∀ v ∈ [0, 0], v < 2 ^ 4 by decide⟩,
    ⟨rfl, rfl, show ∀ v ∈ [0, 0, 0, 0, 0], v < 2 ^ 4 by decide, show ∀ v ∈ [0, 0], v < 2 ^ 4 by decide⟩,
    ⟨rfl, rfl, rfl, rfl, rfl, rfl, rfl, rfl, rfl, rfl, rfl, rfl, rfl⟩,
    ⟨show 0 < 2 ^ 10 by decide, show 0 < 2 ^ 10 by decide, show 0 < 2 ^ 10 by decide, fun h => nomatch h⟩,
    fun h => (nomatch h), fun _ => rfl⟩

theorem witness_ResetCommandRestoresTheResetTable :
    ∀ f, ({ board f .between with halted := true } : State).cfg.ok = true ∧ (board f .between).cfg.family = f := by
  intro f; cases f <;> exact ⟨by decide, rfl⟩
theorem witness_ResetLeavesTheAgentAndTheInbox :
    ∀ f, (board f .between).cfg.ok = true ∧ (board f .between).phase = .between := by
  intro f; cases f <;> exact ⟨by decide, rfl⟩
theorem witness_NewBoardIsInTheResetState : ∀ f, (Config.board f).ok = true := test_config_accepts_boards
theorem witness_NewBoardMeetsTheBoardConditions : ∀ f, (Config.board f).ok = true := test_config_accepts_boards
theorem witness_EveryStepKeepsTheBoardConditions :
    ∃ s t : State, s.Inv ∧ s.inbox ≠ [] ∧ step s = .next t :=
  ⟨{ issuing (board .c4 .between) [request 0x70000 6] with inbox := [.req (request 0xB0004 0)] }, _,
    inv_met [.req (request 0xB0004 0)] [request 0x70000 6], by decide, rfl⟩

/-- Both ends of each of the three address ranges. -/
theorem witness_ArcReadAnswersTheAddressedWord :
    (board .arc .one).Serving .arc ∧ (0x0000#16).toNat < 0x2000 ∧ (0x1FFF#16).toNat < 0x2000 ∧
      0x2000 ≤ (0x2000#16).toNat ∧ (0x3FFF#16).toNat < 0x4000 ∧ 0x4000 ≤ (0x4000#16).toNat ∧ 0x4000 ≤ (0xFFFF#16).toNat :=
  ⟨serving_met .arc, by decide⟩
theorem witness_ArcWriteStoresOrIsDiscarded :
    (board .arc .one).Serving .arc ∧ (board .arc .one).arcRam.wf = true ∧ (0x0000#16).toNat < 0x2000 ∧
      (0x1FFF#16).toNat < 0x2000 ∧ 0x2000 ≤ (0x2000#16).toNat ∧ (0x3FFF#16).toNat < 0x4000 ∧
      0x4000 ≤ (0x4000#16).toNat ∧ 0x4000 ≤ (0xFFFF#16).toNat := ⟨serving_met .arc, by decide⟩
theorem witness_ArcAddressClassesYieldTheirOutcome : (board .arc .one).Serving .arc := serving_met .arc
theorem witness_ArcAddressBitsAgreeWithFlatDecode : (board .arc .one).Serving .arc := serving_met .arc
theorem witness_StoredWordsReadBack :
    (board .arc .one).Serving .arc ∧ (board .c4 .one).Serving .c4 ∧ (board .arc .one).arcRam.wf = true ∧
      (board .c4 .one).c4Ram.wf = true ∧ (0x3FFF#16).toNat < 0x4000 ∧ chipIndex 0b000 0x7F < Config.c4Board.c4NRam ∧
      ¬ chipIndex 0b000 0x80 < Config.c4Board.c4NRam := ⟨serving_met .arc, serving_met .c4, by decide⟩
theorem witness_OnlyArcAddressesHaltTheBoard :
    (board .arc .one).halted = false ∧ seen (exec (.arcRd 0x4000) (board .arc .one)) State.halted = some true ∧
      seen (exec (.arcWr 0xFFFF 1) (board .arc .one)) State.halted = some true ∧
      seen (exec .tick (issuing (board .arc .between) [request 0x04000 0])) State.halted = some true := by decide

theorem witness_CommandControlRowsYieldTheirBank : (board .c4 .one).Serving .c4 := serving_met .c4
/-- The last populated chip, and the first index past the count (decision D8). -/
theorem witness_C4RamReadAnswersTheCell :
    (board .c4 .one).Serving .c4 ∧ chipIndex 0b000 0x7F < Config.c4Board.c4NRam ∧
      ¬ chipIndex 0b000 0x80 < Config.c4Board.c4NRam := ⟨serving_met .c4, by decide⟩
theorem witness_C4RamWriteStoresOneCell :
    (board .c4 .one).Serving .c4 ∧ (board .c4 .one).c4Ram.wf = true ∧ chipIndex 0b000 0x7F < Config.c4Board.c4NRam ∧
      Config.c4Board.c4NRam ≤ chipIndex 0b000 0x80 := ⟨serving_met .c4, by decide⟩
/-- A C4 board in phase 1 without peripherals whose ports have another width. -/
def withPorts (w : Nat) : State := 
  State.enter (State.create { Config.c4Board with c4PortW := w, nShift := 0, sigs := [] }) .one

/-- Ports of 4 bits, of fewer and of more. -/
theorem witness_C4RamPortWriteSetsOneLatch :
    (board .c4 .one).Serving .c4 ∧ chipIndex 0b000 0x7F < Config.c4Board.c4NRam ∧
      ¬ chipIndex 0b000 0x80 < Config.c4Board.c4NRam ∧ (withPorts 3).Serving .c4 ∧ (withPorts 14).Serving .c4 :=
  ⟨serving_met .c4, by decide, by decide, ⟨by decide, rfl, rfl, rfl⟩, ⟨by decide, rfl, rfl, rfl⟩⟩
theorem witness_C4RomReadWrapsTheChip : (board .c4 .one).Serving .c4 := serving_met .c4
theorem witness_C4RomPortReadAnswersTheInputPort : (board .c4 .one).Serving .c4 := serving_met .c4
theorem witness_C4RomPortWriteSetsOneLatch : (board .c4 .one).Serving .c4 := serving_met .c4
theorem witness_InvalidCommandControlAliasesBankZero :
    (board .c4 .one).Serving .c4 ∧ ∀ cm ∈ ([0b011, 0b101, 0b110, 0b111] : List (BitVec 3)),
      cm = 0b011 ∨ cm = 0b101 ∨ cm = 0b110 ∨ cm = 0b111 := ⟨serving_met .c4, by decide⟩

theorem witness_HpFetchMergesEveryChip : hpImages.Serving .hp := ⟨by decide, rfl, rfl, rfl⟩
/-- The lowest and the highest bank, one with a bank select at the address and one without. -/
theorem witness_HpFetchAnswersAndSelects :
    (atBank hpImages 0).Serving .hp ∧ (atBank hpImages 0).romSel = List.replicate 3 0 ∧ 0 < 3 ∧
      (atBank hpImages 2).Serving .hp ∧ (atBank hpImages 2).romSel = List.replicate 3 2 ∧ 2 < 3 ∧
      (hpImages.hpRom.read (2 * 256 + 0x12)).extractLsb' 0 7 = hpImages.cfg.romselPattern ∧
      (hpImages.hpRom.read (0 * 256 + 0x12)).extractLsb' 0 7 ≠ hpImages.cfg.romselPattern :=
  ⟨⟨by decide, rfl, rfl, rfl⟩, rfl, by decide, ⟨by decide, rfl, rfl, rfl⟩, rfl, by decide, by decide, by decide⟩
theorem witness_NextFetchReadsTheNewBank :
    (atBank hpImages 2).Serving .hp ∧ 2 < hpImages.cfg.hpNRom ∧
      (atBank hpImages 2).romSel = List.replicate hpImages.cfg.hpNRom 2 ∧
      ((atBank hpImages 2).hpRom.read (2 * 256 + (0x12#8).toNat)).extractLsb' 0 7 = hpImages.cfg.romselPattern :=
  ⟨⟨by decide, rfl, rfl, rfl⟩, by decide, rfl, by decide⟩
theorem witness_RomSelectBroadcastsOneBank : (board .hp .one).Serving .hp := serving_met .hp
theorem witness_WordSelectReadAnswersTheSelectedBank :
    (atBank hpImages 1).Serving .hp ∧ 1 < hpImages.cfg.hpNRom ∧
      (atBank hpImages 1).romSel = List.replicate hpImages.cfg.hpNRom 1 := ⟨⟨by decide, rfl, rfl, rfl⟩, by decide, rfl⟩

theorem witness_ExtractSamplesTheControlLines :
    (board .arc .two).AtPhase .two ∧ (board .arc .two).cfg.nShift = 0 ∧ (board .c4 .two).AtPhase .two ∧
      (board .c4 .two).cfg.nShift ≠ 0 := ⟨phase_met .arc .two, rfl, phase_met .c4 .two, by decide⟩
theorem witness_ShiftMovesBothStreams :
    (board .hp .three).AtPhase .three ∧ (board .hp .three).cfg.nShift = 0 ∧ (board .c4 .three).AtPhase .three ∧
      (board .c4 .three).cfg.nShift ≠ 0 := ⟨phase_met .hp .three, rfl, phase_met .c4 .three, by decide⟩
theorem witness_PrinterPairIsOneRegister :
    ({ board .c4 .three with srA := 0x3FF, srB := 0x200 } : State).AtPhase .three ∧ Config.c4Board.nShift = 3 ∧
      0x3FF < 2 ^ Config.c4Board.shiftW ∧ 0x200 < 2 ^ Config.c4Board.shiftW ∧ (board .c4 .between).halted = false ∧
      (board .c4 .between).srA = 0 ∧ (board .c4 .between).srB = 0 ∧
      (List.replicate 20 true).length ≤ 2 * Config.c4Board.shiftW := ⟨⟨by decide, rfl, rfl⟩, by decide⟩
/-- M = 3 bits for B (S5), and the two ends M = 0 and M = N. -/
theorem witness_CascadeReadsBackThePattern :
    (board .c4 .between).cfg.ok = true ∧ (board .c4 .between).halted = false ∧ (board .c4 .between).cfg.nShift = 3 ∧
      (board .c4 .between).srA = 0 ∧ (board .c4 .between).srB = 0 ∧
      [true, false, true, false, true, false, true, false, true, false].length = Config.c4Board.shiftW ∧
      [true, false, true].length ≤ Config.c4Board.shiftW ∧ ([] : List Bool).length ≤ Config.c4Board.shiftW ∧
      (List.replicate 10 true).length ≤ Config.c4Board.shiftW := by decide
theorem witness_RdparReadsThePrinterValue : (board .c4 .between).Ready ∧ (board .arc .between).Ready :=
  ⟨ready_met .c4, ready_met .arc⟩

theorem witness_LatchUpdateFollowsTheFourTransitions :
    (board .c4 .four).AtPhase .four ∧ (board .c4 .four).latch.length = (board .c4 .four).cfg.sigs.length ∧
      (board .c4 .four).cfg.sigs[1]? = some ⟨.ram, 0, .port, 3⟩ ∧ (board .c4 .four).latch[1]? = some false :=
  ⟨phase_met .c4 .four, rfl, rfl, rfl⟩
theorem witness_OnePulsePerRisingLevel :
    (board .c4 .between).cfg.ok = true ∧ (board .c4 .between).halted = false ∧
      (board .c4 .between).cfg.sigs[1]? = some ⟨.ram, 0, .port, 3⟩ ∧
      (board .c4 .between).latch.length = (board .c4 .between).cfg.sigs.length := by decide

/-- A plan that reads a port and then issues one request or another, by the value it hears (R121 (c)). -/
def choosing : CpuPlan :=
  .ask (request 0x60010 0) (.whenHeard 4 (.ask (request 0x50000 2) (.done .idle)) (.ask (request 0x50000 8) (.done .idle)))

theorem wellFormed_choosing : choosing.wellFormed Config.c4Board :=
  ⟨⟨.c4Rompr 0x10, by decide, by decide⟩, ⟨⟨.c4Rampw 0 0 2, by decide, by decide⟩, trivial⟩,
    ⟨.c4Rampw 0 0 8, by decide, by decide⟩, trivial⟩

/-- The agent's choice in one tick: with the key 4 injected the port of RAM chip 0 is 2, without it 8 (R121 (c), R129). -/
theorem test_agent_chooses_by_what_it_hears : [some 4, some 5, none].map (fun k => seen
      (exec .tick { (board .c4 .between).withPlan choosing with keyIn := k }) (fun t => (t.portOut.ram, t.cpu.heard))) =
    [some ([2, 0], [4, 0]), some ([8, 0], [5, 0]), some ([8, 0], [0, 0])] := by decide

/-- A step that chooses its second request, a step of none. -/
theorem witness_CpuStepServesTheRequestsInOrder :
    ((board .c4 .one).withPlan choosing).AtPhase .one ∧ choosing.wellFormed Config.c4Board ∧
      (board .c4 .one).AtPhase .one ∧ (board .c4 .one).cpu.plan.wellFormed Config.c4Board :=
  ⟨⟨by decide, rfl, rfl⟩, wellFormed_choosing, phase_met .c4 .one, trivial⟩
/-- A step of two requests that completes. -/
theorem witness_AgentDependsOnItsResponsesOnly :
    ∃ t, exec .cpuStep ((board .c4 .one).withPlan choosing) = .next t ∧ t.halted = false ∧ t.cpu.heard = [0, 0] :=
  ⟨_, rfl, by decide, by decide⟩
/-- A tick that completes, one that a fatal request ends, and one on a halted board. -/
theorem witness_TickRunsThePhasesInOrder :
    ((board .c4 .between).withPlan choosing).Ready ∧ choosing.wellFormed Config.c4Board ∧
      (issuing (board .arc .between) [request 0x04000 0]).Ready ∧
      (issuing (board .arc .between) [request 0x04000 0]).cpu.plan.wellFormed Config.arcBoard ∧
      ({ board .c4 .between with halted := true } : State).cpu.plan.wellFormed Config.c4Board :=
  ⟨⟨by decide, rfl, rfl⟩, wellFormed_choosing, ⟨by decide, rfl, rfl⟩,
    ⟨⟨.arcRd 0x4000, by decide, by decide⟩, trivial⟩, trivial⟩
theorem witness_PhasesSampleTheSameTick :
    ∃ t, exec .tick (issuing (board .c4 .between) [request 0x70000 6]) = .next t ∧ t.halted = false ∧
      (issuing (board .c4 .between) [request 0x70000 6]).lines = .idle :=
  ⟨_, rfl, by decide, rfl⟩
theorem witness_FatalRequestAbortsTheTick :
    (issuing (board .arc .between) [request 0x12001 0x77, request 0x04000 0, request 0x12002 0x88]).Ready ∧
      (∀ j ∈ [Instr.arcWr 0x2001 0x77], (∃ a, j = .arcRd a ∧ a.toNat < 0x4000) ∨
        ∃ a v, j = .arcWr a v ∧ a.toNat < 0x4000) ∧
      (∃ a, Instr.arcRd 0x4000 = .arcRd a ∧ 0x4000 ≤ a.toNat ∧ FatalInfo.read 0x4000 = .read a) ∧
      [request 0x12001 0x77].map decodeReq = [Instr.arcWr 0x2001 0x77].map Except.ok ∧
      decodeReq (request 0x04000 0) = .ok (.arcRd 0x4000) ∧
      (issuing (board .arc .between) [request 0x12001 0x77, request 0x04000 0, request 0x12002 0x88]).cpu.plan =
        askAll [request 0x12001 0x77] (.ask (request 0x04000 0) (askAll [request 0x12002 0x88] (.done .idle))) := by
  refine ⟨⟨by decide, rfl, rfl⟩, fun j hj => ?_, ⟨0x4000, rfl, by decide, rfl⟩, by decide, by decide, rfl⟩
  rw [List.mem_singleton.mp hj]
  exact .inr ⟨0x2001, 0x77, rfl, by decide⟩

/-- A fetch of the bank select at 0x12 of bank 2, then a word-select read. -/
def fetching : State := issuing { atBank hpImages 2 with phase := .between } [request 0x80012 0, request 0x90005 0]

theorem fetching_plan : ∃ q p, fetching.cpu.plan = .ask q p ∧ decodeReq q = .ok (.hpFetch 0x12) ∧
    p.stepAsks fun i => ∃ a, i = .hpWsrd a :=
  ⟨_, _, rfl, by decide, ⟨.hpWsrd 5, by decide, 5, rfl⟩, trivial⟩
theorem test_tick_wsrd_sees_the_new_bank : seen (exec .tick fetching) (fun t => (t.romSel, t.cpu.heard)) =
    some ([2, 2, 2], [0x110, 0]) := by decide

theorem witness_OneFetchATickDecidesTheBank :
    fetching.Ready ∧ fetching.cfg.family = .hp ∧ fetching.cpu.plan.Conforms fetching.cfg ∧ 2 < fetching.cfg.hpNRom ∧
      fetching.romSel = List.replicate fetching.cfg.hpNRom 2 :=
  ⟨⟨by decide, rfl, rfl⟩, rfl,
    ⟨⟨⟨.hpFetch 0x12, by decide, by decide⟩, ⟨.hpWsrd 5, by decide, by decide⟩, trivial⟩,
      fun _ => ⟨⟨0x12, by decide⟩, ⟨.hpWsrd 5, by decide, 5, rfl⟩, trivial⟩⟩, by decide, rfl⟩

/-- A tick of reads on C4 (the last populated RAM chip among them); a fetch that selects a bank on HP. -/
theorem witness_QuietTickChangesNoMemory :
    (∃ s : State, s.cpu.plan ≠ .idle ∧ s.Ready ∧ s.Inv ∧ s.cpu.plan.wellFormed s.cfg ∧ s.cpu.plan.stepAsks (quietRead s) ∧
      s.cfg.nShift ≠ 0 ∧ s.clkPrevK = lineLevel s.portOut s.cfg.lKclk ∧ s.clkPrevP = lineLevel s.portOut s.cfg.lPclk ∧
      s.latch = s.cfg.sigs.map (signalLevel s.portOut s.c4Ram)) ∧
    (∃ q p, fetching.Ready ∧ fetching.cfg.family = .hp ∧ fetching.cpu.plan = .ask q p ∧
      decodeReq q = .ok (.hpFetch 0x12) ∧ (p.stepAsks fun i => ∃ a, i = .hpWsrd a) ∧ 2 < fetching.cfg.hpNRom ∧
      fetching.romSel = List.replicate fetching.cfg.hpNRom 2 ∧
      (fetching.hpRom.read (2 * 256 + (0x12#8).toNat)).extractLsb' 0 7 = fetching.cfg.romselPattern) := by
  obtain ⟨q, p, hp, hq, hw⟩ := fetching_plan
  exact ⟨⟨issuing (board .c4 .between) [request 0x3007F 0, request 0x60010 0], by decide, ⟨by decide, rfl, rfl⟩,
    inv_met [] [request 0x3007F 0, request 0x60010 0],
    ⟨⟨.c4Ramrd .char 0 0x7F, by decide, by decide⟩, ⟨.c4Rompr 0x10, by decide, by decide⟩, trivial⟩,
    ⟨⟨.c4Ramrd .char 0 0x7F, by decide, by decide, by decide⟩, ⟨.c4Rompr 0x10, by decide, trivial⟩, trivial⟩,
    by decide, by decide, by decide, by decide⟩,
    q, p, ⟨by decide, rfl, rfl⟩, rfl, hp, hq, hw, by decide, rfl, by decide⟩

theorem witness_InjectSetsTheKey : (board .c4 .between).Ready := ready_met .c4
/-- No key, and the key 0x0004 of V12. -/
theorem witness_InjectedKeyLastsOneTick :
    ∀ k ∈ [none, some (0x0004 : BitVec 16)],
      ({ issuing (board .c4 .between) [request 0x60010 0] with keyIn := k } : State).Ready ∧
      ({ issuing (board .c4 .between) [request 0x60010 0] with keyIn := k } : State).Inv ∧
      Config.c4Board.keyFn = .rawPortMask ∧ Config.c4Board.keyPort = some (.rom, (0x10#8).toNat / 16 % 5) ∧
      ({ issuing (board .c4 .between) [request 0x60010 0] with keyIn := k } : State).cpu.plan =
        .ask (request 0x60010 0) (.done .idle) ∧ decodeReq (request 0x60010 0) = .ok (.c4Rompr 0x10) := by
  intro k _
  have h := inv_met [] [request 0x60010 0]
  exact ⟨⟨show Config.c4Board.ok = true by decide, rfl, rfl⟩,
    ⟨h.config, h.latches, h.selects, h.outs, h.ins,
      ⟨rfl, rfl, rfl, rfl, rfl, rfl, rfl, rfl, rfl, rfl, rfl, rfl, rfl⟩,
      ⟨h.chain.srK, h.chain.srA, h.chain.srB, h.chain.absent⟩, h.haltedBetween, h.linesIdle⟩,
    rfl, rfl, rfl, by decide⟩
theorem witness_SnapCopiesTheBoard :
    ∀ f, ({ board f .between with halted := true } : State).cfg.ok = true ∧ (board f .between).phase = .between := by
  intro f; cases f <;> exact ⟨by decide, rfl⟩
/-- The first and the last chip, the empty and the full image (V11). -/
theorem witness_LoadromInstallsByteImages :
    (board .arc .between).Ready ∧ (3#8).toNat < 4 ∧ ([] : List Byte).length ≤ 2048 ∧
      (List.replicate 2048 (0 : Byte)).length ≤ 2048 ∧ (board .c4 .between).Ready ∧ Config.c4Board.c4RomW = 8 ∧
      (4#8).toNat < Config.c4Board.c4NRom ∧ (List.replicate 256 (0 : Byte)).length ≤ Config.c4Board.c4RomLen ∧
      (State.create { Config.c4Board with c4RomW := 12 }).Ready ∧
      (List.replicate 384 (0 : Byte)).length ≤ { Config.c4Board with c4RomW := 12 }.romCapacity ∧
      8 * ([0xC3, 0x18] : List Byte).length ≤ 2 * 12 :=
  ⟨ready_met .arc, by decide, by decide, by rw [List.length_replicate], ready_met .c4, rfl, by decide,
    by rw [List.length_replicate]; decide, ⟨by decide, rfl, rfl⟩, by rw [List.length_replicate]; decide,
    by decide⟩
theorem witness_LoadromInstallsHpImages :
    (board .hp .between).Ready ∧ (2#8).toNat < Config.hpBoard.hpNRom ∧ (List.replicate 320 (0 : Byte)).length ≤ 320 ∧
      ∀ b ∈ List.replicate 320 (0 : Byte), b = 0 :=
  ⟨ready_met .hp, by decide, by rw [List.length_replicate], fun _ h => (List.mem_replicate.mp h).2⟩
/-- The empty image on HP, and a C4 image of two bytes in 12-bit words: zero beyond the blob (R165, R166). -/
theorem test_loadrom_zero_padding : (∀ w ∈ hpUnpackWords [], w = 0) ∧
    ∀ k, 2 ≤ k → c4WideWord { Config.c4Board with c4RomW := 12 } [0xC3, 0x18] k = 0 :=
  ⟨hpUnpackWords_zero (by simp), fun k hk => c4WideWord_beyond (by simp; omega)⟩
/-- One byte too many on each family; the first chip index that does not exist (V11). -/
theorem witness_LoadromTurnsBadImagesAway :
    (∀ f, (board f .between).Ready) ∧ (3#8).toNat < Config.arcBoard.nRom ∧
      Config.arcBoard.romCapacity < (List.replicate 2049 (0 : Byte)).length ∧
      Config.c4Board.romCapacity < (List.replicate 257 (0 : Byte)).length ∧
      Config.hpBoard.romCapacity < (List.replicate 321 (0 : Byte)).length ∧ Config.arcBoard.nRom ≤ (4#8).toNat :=
  ⟨ready_met, by decide, by rw [List.length_replicate]; decide, by rw [List.length_replicate]; decide,
    by rw [List.length_replicate]; decide, by decide⟩

theorem witness_HaltedBoardServesResetAndSnapOnly :
    ({ board .arc .between with halted := true } : State).cfg.ok = true ∧ Instr.tick ≠ .reset ∧ Instr.tick ≠ .snap ∧
      seen (exec .reset { board .arc .between with halted := true }) State.halted = some false := by decide
theorem witness_MisplacedOperationsAreRefused :
    (board .c4 .between).cfg.ok = true ∧ (board .c4 .between).halted = false ∧
      (Instr.arcRd 0).familyOk (board .c4 .between).cfg = false ∧
      (Instr.c4Romrd 0).isRequest = true ∧ (Instr.c4Romrd 0).familyOk (board .c4 .between).cfg = true ∧
      (board .c4 .between).phase ≠ .one ∧ Instr.tick.isCommand = true ∧ (board .c4 .one).phase ≠ .between ∧ Instr.cm000.familyOk Config.c4Board = true ∧
      (Instr.hpRomsel 0).familyOk Config.hpBoard = true ∧ (Instr.arcAddrRam 0).familyOk Config.arcBoard = true ∧
      firedAt .pccShift = some .three := by decide
/-- One configuration for every case of D39, the last two with the lowest bit that no port has; and one beyond D39. -/
theorem witness_BadConfigurationsAreRefused :
    listedByD39 { Config.c4Board with c4NRom := 0 } ∧ listedByD39 { Config.c4Board with hpNRom := 0 } ∧
      listedByD39 { Config.c4Board with c4RomLen := 0 } ∧ listedByD39 { Config.c4Board with arcRamLen := 0 } ∧
      listedByD39 { Config.c4Board with arcNRam := 0 } ∧ listedByD39 { Config.arcBoard with arcNRam := 7 } ∧
      listedByD39 { Config.c4Board with c4NRam := 17 } ∧ listedByD39 { Config.c4Board with nShift := 2 } ∧
      listedByD39 { Config.c4Board with shiftDir := .bidirectional } ∧
      listedByD39 { Config.c4Board with lPen := some ⟨.rom, 0, 4, false⟩ } ∧
      listedByD39 { Config.c4Board with sigs := [⟨.ram, 0, .port, 4⟩] } ∧
      { Config.c4Board with hpNRom := 9 }.ok = false := by
  refine ⟨.inl rfl, .inr (.inl rfl), ?_, ?_, ?_, ?_, ?_, ?_, ?_, ?_, ?_, by decide⟩ <;> unfold listedByD39
  · exact .inr (.inr (.inl rfl))
  · exact .inr (.inr (.inr (.inl rfl)))
  · exact .inr (.inr (.inr (.inr (.inl rfl))))
  · exact .inr (.inr (.inr (.inr (.inr (.inl (by decide))))))
  · exact .inr (.inr (.inr (.inr (.inr (.inr (.inl (by decide)))))))
  · exact .inr (.inr (.inr (.inr (.inr (.inr (.inr (.inl (by decide))))))))
  · exact .inr (.inr (.inr (.inr (.inr (.inr (.inr (.inr (.inl (by decide)))))))))
  · exact .inr (.inr (.inr (.inr (.inr (.inr (.inr (.inr (.inr (.inl
      ⟨rfl, ⟨.rom, 0, 4, false⟩, by decide, by decide⟩)))))))))
  · exact .inr (.inr (.inr (.inr (.inr (.inr (.inr (.inr (.inr (.inr
      ⟨⟨.ram, 0, .port, 4⟩, by decide, rfl, by decide⟩)))))))))

theorem witness_EncodeInvertsDecode :
    decode 0b0010000 (.req ⟨0x40065, 0x01A, []⟩) = .ok (.c4Ramwr .char 0b000 0x65 0xA) ∧
      decode 0b0010000 (.phase 4) = .ok .sleUpdate ∧ decode 0b0010000 (.hpop 0x390) = .ok (.hpRomsel 7) ∧
      decode 0b0010000 (.arcAddr 0x3FFF) = .ok (.arcAddrRam 0x1FFF) ∧ decode 0b0010000 (.cm 7) = .ok .cm111 := by decide
theorem witness_StepRunsTheDecodedInstruction :
    (presenting (board .c4 .one) (.req (request 0x30365 0))).inbox = [.req (request 0x30365 0)] ∧
      decode (board .c4 .one).cfg.romselPattern (.req (request 0x30365 0)) = .ok (.c4Ramrd .char 0b011 0x65) ∧
      decode (board .c4 .one).cfg.romselPattern (.phase 0) = .error .noSuchPhase ∧ (board .c4 .one).inbox = [] := by decide

theorem witness_OnlyLoadromWritesRom :
    seen (exec (.inject 4) (board .c4 .between)) State.keyIn = some (some 4) ∧ ∀ n blob, Instr.inject 4 ≠ .loadrom n blob :=
  ⟨by decide, fun _ _ h => by cases h⟩
theorem witness_ConfigurationNeverChanges :
    ∃ t, step (presenting (board .c4 .between) (.req (request 0xB0004 0))) = .next t := ⟨_, rfl⟩
theorem witness_DiagnosticsAreAppendOnly :
    seen (exec (.arcWr 0x0005 0xFF) { board .arc .one with diag := [.romWrite 0x1FFF 1] }) State.diag =
      some [.romWrite 0x1FFF 1, .romWrite 0x0005 0xFF] ∧ Instr.arcWr 0x0005 0xFF ≠ .reset := by decide
theorem witness_NothingReadsTheDiagnostics :
    ∃ t, exec (.arcWr 0x0005 0xFF) (board .arc .one) = .next t ∧ Instr.arcWr 0x0005 0xFF ≠ .reset := ⟨_, rfl, by decide⟩
/-- `INJECT` is the writer of none of them, so it meets the hypotheses of every clause. -/
theorem witness_EachStateHasItsWriters :
    ∃ t, exec (.inject 4) (board .c4 .between) = .next t ∧ Instr.inject 4 ≠ .reset ∧ Instr.inject 4 ≠ .sleUpdate ∧
      Instr.inject 4 ≠ .pccShift ∧ Instr.inject 4 ≠ .tick ∧ Instr.inject 4 ≠ .cpuStep := ⟨_, rfl, by decide⟩

end Sys2Proof.Tests
end

section
/-! PROOFS. The gate in front of every operation, and the configurations that never pass it (R7, D39). -/

namespace Sys2Proof.Machine

/-! ### Every operation is gated -/

/-- The context in which an operation is issued (R51 "issued by", R120): every operation of one family, the parts of
requests included, as a request of that family. -/
def issueContext (i : Instr) : Context :=
  match i with
  | .reset | .snap => .commandWhileHalted
  | .tick | .inject _ | .loadrom _ _ | .rdpar => .command
  | i =>
    match i.family with
    | some f => .request f
    | none => .micro (issuePhase i)

/-- No operation goes round the gate of its context. -/
theorem exec_gated (i : Instr) (s : State) : ∃ served, exec i s = gated (issueContext i) s served := by
  cases i <;> exact ⟨_, rfl⟩

/-- What the gate refuses is refused whatever the operation does when served. -/
theorem exec_of_refusal {i : Instr} {s : State} {r : Refusal} (h : s.refusal (issueContext i) = some r) :
    exec i s = .refused r := by
  obtain ⟨served, he⟩ := exec_gated i s
  rw [he, gated_of_some h]

theorem exec_badConfig {s : State} (h : s.cfg.ok = false) (i : Instr) : exec i s = .refused .badConfig :=
  exec_of_refusal (refusal_badConfig h _)

/-! ### What a served configuration rules out -/

/-- On a board with a chain the bit of every control line lies below C4_PORT_W. -/
theorem chainOk_line_bit {c : Config} (h : c.ChainOk) (hn : c.nShift = 3) {l : LineDesc}
    (hl : l = c.lKclk ∨ l = c.lKdat ∨ some l = c.lKen ∨ l = c.lPclk ∨ l = c.lPdat ∨ some l = c.lPen) :
    l.bit < c.c4PortW := by
  obtain h0 | ⟨_, hKclk, hKdat, hKen, hPclk, hPdat, hPen⟩ := h
  · omega
  · obtain rfl | rfl | hl | rfl | rfl | hl := hl
    · exact hKclk.2
    · exact hKdat.2
    · exact (hKen l hl.symm).2
    · exact hPclk.2
    · exact hPdat.2
    · exact (hPen l hl.symm).2

/-- The bit of a signal at OUT lies below C4_PORT_W. -/
theorem sigOk_port_bit {c : Config} {g : SigDesc} (h : c.SigOk g) (hp : g.place = .port) : g.bit < c.c4PortW := by
  obtain ⟨_, ⟨_, hb⟩ | ⟨hne, _⟩⟩ := h
  · exact hb
  · exact absurd hp hne

/-- A product of 0x2000 has no factor 0: neither the number nor the length of ARC's RAM chips is 0. -/
theorem config_ok_not_listedByD39 {c : Config} (h : c.Ok) : ¬ listedByD39 c := by
  obtain ⟨⟨_, hArc, hNRom, hRomLen, _, _, hNRam, _, _, hHp, _⟩, hDir, hChain, hSigs, _⟩ := h
  rintro (h0 | h0 | h0 | h0 | h0 | hne | hmany | ⟨h0, h3⟩ | hdir | ⟨h3, l, hbit, hl⟩ | ⟨g, hg, hport, hbit⟩)
  · omega
  · omega
  · omega
  · simp [h0] at hArc
  · simp [h0] at hArc
  · exact hne hArc
  · omega
  · exact hChain.elim h0 fun h => h3 h.1
  · exact hdir hDir
  · exact Nat.not_lt.mpr hbit (chainOk_line_bit hChain h3 hl)
  · exact Nat.not_lt.mpr hbit (sigOk_port_bit (hSigs g hg) hport)

theorem config_ok_eq_false_of_listedByD39 {c : Config} (h : listedByD39 c) : c.ok = false :=
  Bool.eq_false_iff.mpr fun hok => config_ok_not_listedByD39 (config_ok_iff.mp hok) h

/-- Settles O47: every operation is gated, the gate looks at the configuration first, and what D39 lists fails that
check. -/
theorem badConfigurationsAreRefused : Obligations.BadConfigurationsAreRefused := by
  intro i s
  exact ⟨fun h => exec_badConfig (config_ok_eq_false_of_listedByD39 h) i, fun h => exec_badConfig h i⟩

end Sys2Proof.Machine
end

section
/-! PROOFS. What an operation can do when it answers a next state, one case for each kind of effect. -/

namespace Sys2Proof.Machine

/-- The effect of a served operation: a request's and a tick's in the words of the model, and of every other operation
the update it makes, with what the gate and its own checks had to grant. -/
inductive Effect : Instr → State → State → Prop
  | request {i s t} (served : serve i s = .next t) : Effect i s t
  | tick {s t} (ran : execTick s = .next t) : Effect .tick s t
  | cpuStep {s t} (ran : execCpuStep s = .next t) : Effect .cpuStep s t
  | pccExtract {s t} (ran : execPccExtract s = .next t) : Effect .pccExtract s t
  | pccShift {s t} (ran : execPccShift s = .next t) : Effect .pccShift s t
  | sleUpdate {s t} (ran : execSleUpdate s = .next t) : Effect .sleUpdate s t
  | inject {v s} : Effect (.inject v) s ({ s with keyIn := some v }.reply (.ok 0))
  | reset {s} : Effect .reset s s.resetBoard
  | install {i blob s} (chip : i.toNat < s.cfg.nRom) :
      Effect (.loadrom i blob) s ((s.installRom i.toNat blob).reply (.ok 0))
  | reply {i s} (r : Response) : Effect i s (s.reply r)
  | lookup {i cm s} (invalid : (bank cm).2 = true → i ∈ [.cm011, .cm101, .cm110, .cm111]) (r : Response) :
      Effect i s ((s.bankLookup cm).reply r)
  | select {b s} (family : s.cfg.family = .hp) : Effect (.hpRomsel b) s (s.romSelect b)

/-- A request that is served is of the board's family. -/
theorem refusal_request_family {s : State} {f : Family} (h : s.refusal (.request f) = none) : s.cfg.family = f := by
  obtain ⟨_, _, hf, _⟩ := refusal_request.mp h
  exact hf

theorem arcSubDecode_effect {i : Instr} {s t : State} {tg : Target} (h : arcSubDecode s tg = .next t) :
    Effect i s t := by
  obtain ⟨-, h⟩ := gated_next h
  cases h
  exact .reply _

theorem cmSubDecode_effect {i : Instr} {s t : State} {cm : BitVec 3}
    (invalid : (bank cm).2 = true → i ∈ [.cm011, .cm101, .cm110, .cm111]) (h : cmSubDecode s cm = .next t) :
    Effect i s t := by
  obtain ⟨-, h⟩ := gated_next h
  cases h
  exact .lookup invalid _

theorem loadrom_effect {i : BitVec 8} {blob : List Byte} {s t : State} (h : execLoadrom i blob s = .next t) :
    Effect (.loadrom i blob) s t := by
  obtain ⟨-, h⟩ := gated_next h
  split at h
  · cases h
  next hchip =>
    split at h <;> cases h
    · exact .reply _
    · exact .install (Nat.not_le.mp hchip)

/-- An operation that answers a next state has one of the effects. -/
theorem exec_effect {i : Instr} {s t : State} (h : exec i s = .next t) : Effect i s t := by
  cases i with
  | arcRd | arcWr | c4Romrd | c4Ramrd | c4Ramwr | c4Rampw | c4Rompr | c4Rompw | hpFetch | hpWsrd => exact .request h
  | tick => exact .tick h
  | cpuStep => exact .cpuStep h
  | pccExtract => exact .pccExtract h
  | pccShift => exact .pccShift h
  | sleUpdate => exact .sleUpdate h
  | inject v => obtain ⟨-, h⟩ := gated_next h; cases h; exact .inject
  | reset => obtain ⟨-, h⟩ := gated_next h; cases h; exact .reset
  | loadrom i blob => exact loadrom_effect h
  | rdpar | snap => obtain ⟨-, h⟩ := gated_next h; cases h; exact .reply _
  | hpRomsel b =>
    obtain ⟨hr, h⟩ := gated_next h
    cases h
    exact .select (refusal_request_family hr)
  | arcAddrRom | arcAddrRam | arcAddrFatal01 | arcAddrFatal10 | arcAddrFatal11 => exact arcSubDecode_effect h
  | cm000 | cm001 | cm010 | cm100 | cm011 | cm101 | cm110 | cm111 => exact cmSubDecode_effect (by decide) h

/-! ### The micro-operations of phases 2 to 4 -/

/-- A micro-operation that answers a next state ran on a board that is not halted. -/
theorem micro_usable {p : Phase} {k : Result} {s t : State} (h : gated (.micro p) s k = .next t) : s.halted = false :=
  (refusal_micro.mp (gated_next h).1).2.1

theorem pccExtract_next {s t : State} (h : execPccExtract s = .next t) :
    s.phase = .two ∧ ((s.cfg.nShift = 0 ∧ t = s) ∨ (s.cfg.nShift ≠ 0 ∧ t = { s with lines := s.sampleLines })) := by
  obtain ⟨hr, h⟩ := gated_next h
  obtain ⟨_, _, hp⟩ := refusal_micro.mp hr
  split at h <;> cases h
  · exact ⟨hp, .inl ⟨by assumption, rfl⟩⟩
  · exact ⟨hp, .inr ⟨by assumption, rfl⟩⟩

theorem pccShift_next {s t : State} (h : execPccShift s = .next t) :
    (s.cfg.nShift = 0 ∧ t = s) ∨ (s.cfg.nShift ≠ 0 ∧ t = s.shiftChain) := by
  obtain ⟨-, h⟩ := gated_next h
  split at h <;> cases h
  · exact .inl ⟨by assumption, rfl⟩
  · exact .inr ⟨by assumption, rfl⟩

theorem sleUpdate_next {s t : State} (h : execSleUpdate s = .next t) : t = s.updateLatches := by
  obtain ⟨-, h⟩ := gated_next h
  cases h
  rfl

end Sys2Proof.Machine
end

section
/-! PROOFS. Every step keeps the board conditions: one lemma for every update an operation makes, then the requests,
phase 1, the tick, every operation, and the step. -/

namespace Sys2Proof.Memory

theorem install_below {w : Nat} {m : Memory w} {n base len : Nat} (vs : List (BitVec w)) (hn : base + len ≤ n)
    (hm : m.below n = true) : (m.install base len vs).below n = true :=
  Memory.install_all (fun k _ hk => decide_eq_true (by omega)) hm

end Sys2Proof.Memory

namespace Sys2Proof.Machine

/-! ### Updates of one kind of state -/

/-- The conditions speak of no word presented, no key, no record, no agent and no response. -/
theorem State.Inv.apart {s : State} (h : s.Inv) (inbox : List Encoded) (keyIn : Option (BitVec 16)) (diag : List Diag)
    (cpu : CpuAgent) (resp : Response) :
    State.Inv { s with inbox := inbox, keyIn := keyIn, diag := diag, cpu := cpu, resp := resp } :=
  { h with memory := { h.memory with }, chain := { h.chain with } }

theorem State.Inv.answer {s : State} (h : s.Inv) (r : DataWord) : (s.answer r).Inv := h.apart ..

theorem State.Inv.reply {s : State} (h : s.Inv) (r : Response) : (s.reply r).Inv := h.apart ..

theorem State.Inv.addDiag {s : State} (h : s.Inv) (r : Diag) : (s.addDiag r).Inv := h.apart ..

theorem State.Inv.supply {s : State} (h : s.Inv) (i : Instr) : (s.supply i).Inv := h.apart ..

theorem State.Inv.withPlan {s : State} (h : s.Inv) (p : CpuPlan) : (s.withPlan p).Inv := h.apart ..

theorem State.Inv.beginStep {s : State} (h : s.Inv) : s.beginStep.Inv := h.apart ..

theorem State.Inv.bankLookup {s : State} (h : s.Inv) (cm : BitVec 3) : (s.bankLookup cm).Inv := by
  unfold State.bankLookup State.addDiagIf
  split
  · exact h.addDiag _
  · exact h

theorem State.Inv.takeFatal {s : State} (h : s.Inv) (info : FatalInfo) : (s.takeFatal info).Inv :=
  { h with
    memory := { h.memory with }, chain := { h.chain with }
    haltedBetween := fun _ => rfl
    linesIdle := fun _ => rfl }

theorem State.Inv.arcRamWrite {s : State} (h : s.Inv) {i o : Nat} (v : BitVec 8) (hc : arcRamCell s.cfg i o < 0x2000) :
    (s.arcRamWrite i o v).Inv :=
  { h with
    memory := { h.memory with
      arcRam := Memory.write_wf _ v h.memory.arcRam
      arcRamBelow := Memory.write_below hc h.memory.arcRamBelow }
    chain := { h.chain with } }

theorem State.Inv.c4RamWrite {s : State} (h : s.Inv) {n : Nat} (k : CellKind) (o : BitVec 6) (v : BitVec 4)
    (hn : n < s.cfg.c4NRam) : (s.c4RamWrite n k o v).Inv :=
  have hc : c4RamCell n k o < s.cfg.c4NRam * Config.c4RamCells :=
    Nat.lt_of_lt_of_le (c4RamCell_lt n k o) (Nat.mul_le_mul_right _ hn)
  { h with
    memory := { h.memory with
      c4Ram := Memory.write_wf _ v h.memory.c4Ram
      c4RamBelow := Memory.write_below hc h.memory.c4RamBelow }
    chain := { h.chain with } }

theorem State.Inv.portWrite {s : State} (h : s.Inv) (k : ChipKind) (i : Nat) (v : BitVec 4) :
    (s.portWrite k i v).Inv :=
  { h with
    outs := h.outs.set k i (portValue_lt s.cfg v)
    memory := { h.memory with }, chain := { h.chain with } }

/-- A served board has a bank, so a bank number reduced modulo their count names one. -/
theorem State.Inv.romSelect {s : State} (h : s.Inv) (b : BitVec 3) (hf : s.cfg.family = .hp) : (s.romSelect b).Inv :=
  have hb : 0 < s.cfg.hpNRom := by
    obtain ⟨⟨_, _, _, _, _, _, _, _, _, hHp, _⟩, _⟩ := config_ok_iff.mp h.config
    exact hHp
  { h with
    selects := by
      simp only [State.lockstep, State.romSelect_cfg, hf]
      exact ⟨_, Nat.mod_lt _ hb, rfl⟩
    memory := { h.memory with }, chain := { h.chain with } }

/-! ### ROM images -/

theorem arcRomCell_end_le {i : Nat} (h : i < Config.arcNRom) :
    arcRomCell i 0 + Config.arcRomLen ≤ Config.arcNRom * Config.arcRomLen := by
  unfold arcRomCell Config.arcRomLen Config.arcNRom at *
  omega

theorem c4RomCell_end_le {c : Config} {i : Nat} (h : i < c.c4NRom) :
    c4RomCell c i 0 + c.c4RomLen ≤ c.c4NRom * c.c4RomLen := by
  rw [c4RomCell, Nat.add_zero, ← Nat.succ_mul]
  exact Nat.mul_le_mul_right _ h

theorem hpCell_end_le {i n : Nat} (h : i < n) : hpCell i 0 + Config.hpRomWords ≤ n * Config.hpRomWords := by
  have h0 : (0 : BitVec 8).toNat = 0 := rfl
  unfold hpCell Config.hpRomWords
  omega

theorem c4UnpackWords_lt (c : Config) (blob : List Byte) : ∀ v ∈ c4UnpackWords c blob, v.toNat < 2 ^ c.c4RomW := by
  intro v hv
  unfold c4UnpackWords at hv
  split at hv <;> obtain ⟨x, -, rfl⟩ := List.mem_map.mp hv
  next h8 =>
    rw [h8]
    exact Nat.lt_of_le_of_lt (by rw [BitVec.toNat_setWidth]; exact Nat.mod_le _ _) x.isLt
  · exact c4WideWord_lt c blob x

theorem State.Inv.installRom {s : State} (h : s.Inv) {i : Nat} (blob : List Byte) (hi : i < s.cfg.nRom) :
    (s.installRom i blob).Inv := by
  cases hf : s.cfg.family with
  | arc =>
    simp only [Config.nRom, hf] at hi
    simp only [State.installRom, hf]
    exact { h with
      memory := { h.memory with
        arcRom := Memory.install_wf _ _ _ h.memory.arcRom
        arcRomBelow := Memory.install_below _ (arcRomCell_end_le hi) h.memory.arcRomBelow }
      chain := { h.chain with } }
  | c4 =>
    simp only [Config.nRom, hf] at hi
    simp only [State.installRom, hf]
    exact { h with
      memory := { h.memory with
        c4Rom := Memory.install_wf _ _ _ h.memory.c4Rom
        c4RomBelow := Memory.install_below _ (c4RomCell_end_le hi) h.memory.c4RomBelow
        c4RomFits := Memory.install_all
          (fun k hk _ => decide_eq_true (c4UnpackWords_lt s.cfg blob _ (List.getElem_mem hk))) h.memory.c4RomFits }
      chain := { h.chain with } }
  | hp =>
    simp only [Config.nRom, hf] at hi
    simp only [State.installRom, hf]
    exact { h with
      memory := { h.memory with
        hpRom := Memory.install_wf _ _ _ h.memory.hpRom
        hpRomBelow := Memory.install_below _ (hpCell_end_le hi) h.memory.hpRomBelow }
      chain := { h.chain with } }

/-! ### Reset, the key, and the phases of a tick -/

theorem Ports.Sound.zeros (c : Config) :
    Ports.Sound c ⟨List.replicate (c.nPorts .rom) 0, List.replicate (c.nPorts .ram) 0⟩ where
  romLength := List.length_replicate
  ramLength := List.length_replicate
  romFits := fun _ hv => (List.mem_replicate.mp hv).2 ▸ Nat.two_pow_pos _
  ramFits := fun _ hv => (List.mem_replicate.mp hv).2 ▸ Nat.two_pow_pos _

/-- RAM of a newly created board is RAM_INIT on its own family and empty on the others. -/
theorem create_arcRam_of {P : Memory 8 → Prop} {c : Config} (hInit : P c.arcRamInit) (hNil : P []) :
    P (State.create c).arcRam := by
  simp only [State.create]
  split
  · exact hInit
  · exact hNil
  · exact hNil

theorem create_c4Ram_of {P : Memory 4 → Prop} {c : Config} (hInit : P c.c4RamInit) (hNil : P []) :
    P (State.create c).c4Ram := by
  simp only [State.create]
  split
  · exact hInit
  · exact hNil
  · exact hNil

/-- A newly created board of a configuration the rules serve meets the conditions. -/
theorem create_inv {c : Config} (hc : c.ok = true) : (State.create c).Inv := by
  obtain ⟨⟨_, _, _, _, _, _, _, _, _, hHp, _⟩, _, _, _, _, hArc, hArcBelow, hC4, hC4Below⟩ := config_ok_iff.mp hc
  exact
    { config := hc
      latches := ⟨List.length_replicate, List.length_replicate⟩
      selects := by
        cases hf : c.family with
        | hp =>
          simp only [State.lockstep, State.create, hf]
          exact ⟨0, hHp, rfl⟩
        | arc | c4 => simp only [State.lockstep, State.create, hf]
      outs := .zeros c
      ins := .zeros c
      memory :=
        ⟨rfl, rfl, rfl, rfl, rfl, rfl, rfl, rfl, rfl, create_arcRam_of (P := fun m => m.wf = true) hArc rfl,
          create_arcRam_of (P := fun m => m.below _ = true) hArcBelow rfl,
          create_c4Ram_of (P := fun m => m.wf = true) hC4 rfl,
          create_c4Ram_of (P := fun m => m.below _ = true) hC4Below rfl⟩
      chain := ⟨Nat.two_pow_pos _, Nat.two_pow_pos _, Nat.two_pow_pos _, fun _ => ⟨rfl, rfl, rfl, rfl, rfl⟩⟩
      haltedBetween := fun _ => rfl
      linesIdle := fun _ => rfl }

theorem State.Inv.resetBoard {s : State} (h : s.Inv) : s.resetBoard.Inv :=
  have hn := create_inv h.config
  { hn with
    memory := { h.memory with
      arcRam := hn.memory.arcRam, arcRamBelow := hn.memory.arcRamBelow
      c4Ram := hn.memory.c4Ram, c4RamBelow := hn.memory.c4RamBelow }
    chain := { hn.chain with } }

theorem keyPortValue_lt (s : State) : s.keyPortValue < 2 ^ s.cfg.c4PortW := by
  unfold State.keyPortValue
  split
  · split
    · exact Nat.two_pow_pos _
    · exact trunc_lt _ _
  · exact trunc_lt _ _

theorem State.Inv.presentKey {s : State} (h : s.Inv) : s.presentKey.Inv := by
  unfold State.presentKey
  split
  · exact h
  · exact { h with
      ins := h.ins.set _ _ (keyPortValue_lt s)
      memory := { h.memory with }, chain := { h.chain with } }

theorem State.Inv.enter {s : State} (h : s.Inv) {p : Phase} (hh : s.halted = false) (hp : p ≠ .between) :
    (s.enter p).Inv :=
  { h with
    memory := { h.memory with }, chain := { h.chain with }
    haltedBetween := fun e => absurd (hh.symm.trans e) Bool.false_ne_true
    linesIdle := fun e => absurd e hp }

theorem State.Inv.endTick {s : State} (h : s.Inv) (hl : s.lines = .idle) : s.endTick.Inv :=
  { h with
    memory := { h.memory with }, chain := { h.chain with }
    haltedBetween := fun _ => rfl
    linesIdle := fun _ => hl }

theorem State.Inv.withLines {s : State} (h : s.Inv) (hp : s.phase ≠ .between) (l : LineLevels) :
    State.Inv { s with lines := l } :=
  { h with memory := { h.memory with }, chain := { h.chain with }, linesIdle := fun e => absurd e hp }

theorem State.Inv.shiftChain {s : State} (h : s.Inv) (hn : s.cfg.nShift ≠ 0) : s.shiftChain.Inv :=
  { h with
    memory := { h.memory with }
    chain := ⟨shifted_lt h.chain.srK, shifted_lt h.chain.srA, shifted_lt h.chain.srB, fun e => absurd e hn⟩
    linesIdle := fun _ => rfl }

theorem State.Inv.updateLatches {s : State} (h : s.Inv) : s.updateLatches.Inv :=
  have hl : (sigLevels s).length = s.cfg.nSig := List.length_map _
  { h with
    latches := ⟨hl, List.length_mapIdx.trans hl⟩
    memory := { h.memory with }, chain := { h.chain with } }

/-! ### Operations -/

/-- What FlatDecode places in RAM is a cell of the RAM region (R71). -/
theorem flatDecode_ram_cell_lt {c : Config} {a : BitVec 16} {i o : Nat} (h : flatDecode c a = .ram i o) :
    arcRamCell c i o < 0x2000 := by
  unfold flatDecode at h
  split at h
  · cases h
  · split at h
    · cases h
    · cases h
      rw [arcRamCell_divMod]
      omega

theorem serve_inv {i : Instr} {s t : State} (h : s.Inv) (hs : serve i s = .next t) : t.Inv := by
  cases i with
  | arcRd a =>
    obtain ⟨-, hs⟩ := gated_next hs
    split at hs <;> cases hs
    · exact h.takeFatal _
    · exact h.answer _
    · exact h.answer _
  | arcWr a v =>
    obtain ⟨-, hs⟩ := gated_next hs
    split at hs <;> cases hs
    · exact h.takeFatal _
    · exact (h.addDiag _).answer _
    next hram => exact (h.arcRamWrite v (flatDecode_ram_cell_lt hram)).answer _
  | c4Romrd a =>
    obtain ⟨-, hs⟩ := gated_next hs
    cases hs
    exact h.answer _
  | c4Ramrd k cm di =>
    obtain ⟨-, hs⟩ := gated_next hs
    obtain ⟨r, e⟩ | ⟨idx, hidx, e⟩ := ramIndex_cases s cm di .read <;> rw [e] at hs <;> cases hs
    · exact ((h.bankLookup cm).addDiag r).answer _
    · exact (h.bankLookup cm).answer _
  | c4Ramwr k cm di v =>
    obtain ⟨-, hs⟩ := gated_next hs
    obtain ⟨r, e⟩ | ⟨idx, hidx, e⟩ := ramIndex_cases s cm di .write <;> rw [e] at hs <;> cases hs
    · exact ((h.bankLookup cm).addDiag r).answer _
    · exact ((h.bankLookup cm).c4RamWrite k _ v (by simpa using hidx)).answer _
  | c4Rampw cm di v =>
    obtain ⟨-, hs⟩ := gated_next hs
    obtain ⟨r, e⟩ | ⟨idx, hidx, e⟩ := ramIndex_cases s cm di .portWrite <;> rw [e] at hs <;> cases hs
    · exact ((h.bankLookup cm).addDiag r).answer _
    · exact ((h.bankLookup cm).portWrite .ram _ v).answer _
  | c4Rompr di =>
    obtain ⟨-, hs⟩ := gated_next hs
    cases hs
    exact h.answer _
  | c4Rompw di v =>
    obtain ⟨-, hs⟩ := gated_next hs
    cases hs
    exact (h.portWrite .rom _ v).answer _
  | hpFetch a =>
    obtain ⟨hr, hs⟩ := gated_next hs
    cases hs
    split
    · exact (h.romSelect _ (refusal_request_family hr)).answer _
    · exact h.answer _
  | hpWsrd a =>
    obtain ⟨-, hs⟩ := gated_next hs
    cases hs
    exact h.answer _
  | _ => cases hs

theorem cpuStep_inv {s t : State} (h : s.Inv) (hs : execCpuStep s = .next t) : t.Inv := by
  obtain ⟨-, hs⟩ := gated_next hs
  exact servePlan_keeps (fun i _ _ hu => serve_inv (hu.supply i)) (fun _ p hu => hu.withPlan p) h.beginStep hs

theorem pccExtract_inv {s t : State} (h : s.Inv) (hs : execPccExtract s = .next t) : t.Inv := by
  obtain ⟨hp, ⟨-, rfl⟩ | ⟨-, rfl⟩⟩ := pccExtract_next hs
  · exact h
  · exact h.withLines (by simp [hp]) _

theorem pccShift_inv {s t : State} (h : s.Inv) (hs : execPccShift s = .next t) : t.Inv := by
  obtain ⟨-, rfl⟩ | ⟨hn, rfl⟩ := pccShift_next hs
  · exact h
  · exact h.shiftChain hn

theorem sleUpdate_inv {s t : State} (h : s.Inv) (hs : execSleUpdate s = .next t) : t.Inv := by
  rw [sleUpdate_next hs]
  exact h.updateLatches

/-- Phase 1 leaves the lines as the tick found them, idle; phase 2 samples them and phase 3 ends them, or neither does
anything; phase 4 leaves them: they are idle when the tick ends. -/
theorem tick_lines_idle {s s2 s3 s4 : State} (hs : s.lines = .idle) (h2 : execPccExtract (s.enter .two) = .next s2)
    (h3 : execPccShift (s2.enter .three) = .next s3) (h4 : execSleUpdate (s3.enter .four) = .next s4) :
    s4.lines = .idle := by
  rw [sleUpdate_next h4]
  obtain ⟨h0, rfl⟩ | ⟨-, rfl⟩ := pccShift_next h3
  · obtain ⟨-, ⟨-, rfl⟩ | ⟨hn, rfl⟩⟩ := pccExtract_next h2
    · exact hs
    · exact absurd h0 hn
  · rfl

theorem tick_inv {s t : State} (h : s.Inv) (hs : execTick s = .next t) : t.Inv := by
  obtain ⟨hr, -⟩ := gated_next hs
  obtain ⟨-, hh, hp⟩ := refusal_command.mp hr
  have h0 : (s.presentKey.enter .one).Inv := h.presentKey.enter (by simp [hh]) (by decide)
  have hl0 : (s.presentKey.enter .one).lines = .idle := by simp [h.linesIdle hp]
  obtain ⟨t1, h1, ⟨-, rfl⟩ | ⟨hf, t2, t3, t4, h2, h3, h4, rfl⟩⟩ := tick_cases hs
  · exact cpuStep_inv h0 h1
  · have hl : t1.lines = .idle := ((cpuStep_kept h1).unlessFatal hf).1.trans hl0
    have i2 := pccExtract_inv ((cpuStep_inv h0 h1).enter hf (by decide)) h2
    have i3 := pccShift_inv (i2.enter (micro_usable (s := t2.enter .three) h3) (by decide)) h3
    have i4 := sleUpdate_inv (i3.enter (micro_usable (s := t3.enter .four) h4) (by decide)) h4
    exact i4.endTick (tick_lines_idle hl h2 h3 h4)

theorem exec_inv {i : Instr} {s t : State} (h : s.Inv) (hs : exec i s = .next t) : t.Inv := by
  cases exec_effect hs with
  | request served => exact serve_inv h served
  | tick ran => exact tick_inv h ran
  | cpuStep ran => exact cpuStep_inv h ran
  | pccExtract ran => exact pccExtract_inv h ran
  | pccShift ran => exact pccShift_inv h ran
  | sleUpdate ran => exact sleUpdate_inv h ran
  | inject => exact h.apart ..
  | reset => exact h.resetBoard
  | install chip => exact (h.installRom _ chip).reply _
  | reply r => exact h.reply r
  | lookup _ r => exact (h.bankLookup _).reply r
  | select family => exact h.romSelect _ family

/-- Settles O5: taking the word out of the inbox touches no condition, and every operation keeps them. -/
theorem everyStepKeepsTheBoardConditions : Obligations.EveryStepKeepsTheBoardConditions := by
  intro s t h hs
  obtain rfl | ⟨_, rest, i, -, -, he⟩ := step_cases hs
  · exact h
  · exact exec_inv (h.apart ..) he

end Sys2Proof.Machine
end

section
/-! PROOFS. A halted board, the newly created board, and what is never written: the configuration and, but by `LOADROM`,
the ROM images. -/

namespace Sys2Proof.Machine

/-! ### A halted board -/

theorem issueContext_eq_commandWhileHalted {i : Instr} (h : issueContext i = .commandWhileHalted) :
    i = .reset ∨ i = .snap := by
  cases i with
  | reset => exact .inl rfl
  | snap => exact .inr rfl
  | _ => cases h

theorem snap_halted {s t : State} (h : exec .snap s = .next t) : t.halted = s.halted := by
  obtain ⟨-, h⟩ := gated_next h
  cases h
  rfl

/-- Settles O45: but for `RESET` and `SNAP` the gate refuses, `SNAP` keeps `halted`, and `RESET` makes a new board. -/
theorem haltedBoardServesResetAndSnapOnly : Obligations.HaltedBoardServesResetAndSnapOnly := by
  intro i s hc hh
  have refused (hr : i ≠ .reset) (hs : i ≠ .snap) : exec i s = .refused .halted :=
    exec_of_refusal (refusal_halted hc hh fun h => (issueContext_eq_commandWhileHalted h).elim hr hs)
  refine ⟨refused, fun t ht hf => ?_, fun hp => ⟨s.resetBoard, gated_commandWhileHalted _ hc hp, rfl⟩⟩
  by_contra hr
  by_cases hs : i = .snap
  · subst hs
    exact Bool.false_ne_true (hf.symm.trans ((snap_halted ht).trans hh))
  · cases (refused hr hs).symm.trans ht

/-! ### The newly created board -/

/-- Settles O3: every clause reads off a field of `State.create`. -/
theorem newBoardIsInTheResetState : Obligations.NewBoardIsInTheResetState := by
  refine ⟨fun c _ => ⟨rfl, rfl, rfl, fun _ => ⟨rfl, rfl, rfl, rfl⟩, fun hf _ => ?_, fun hf _ => ?_, fun hf i hi => ?_⟩,
    rfl, by decide⟩
  · simp only [State.create, hf]
  · simp only [State.create, hf]
  · simp only [State.create, hf, List.getElem?_replicate, hi, if_true]

/-! ### The configuration and the images -/

/-- What is fixed once the images are loaded: the configuration, the ROM images and the word-select data. -/
def State.images (s : State) : Config × Memory 8 × Memory 14 × Memory 10 × Memory 14 :=
  (s.cfg, s.arcRom, s.c4Rom, s.hpRom, s.hpWs)

theorem KeptInPhaseOne.images {s t : State} (h : KeptInPhaseOne s t) : t.images = s.images := by
  simp only [State.images, h.cfg, h.arcRom, h.c4Rom, h.hpRom, h.hpWs]

theorem bankLookup_images (s : State) (cm : BitVec 3) : (s.bankLookup cm).images = s.images := by
  simp only [State.images, State.bankLookup_cfg, State.bankLookup_arcRom, State.bankLookup_c4Rom,
    State.bankLookup_hpRom, State.bankLookup_hpWs]

theorem presentKey_images (s : State) : s.presentKey.images = s.images := by
  unfold State.presentKey
  split <;> rfl

theorem pccExtract_images {s t : State} (h : execPccExtract s = .next t) : t.images = s.images := by
  obtain ⟨-, ⟨-, rfl⟩ | ⟨-, rfl⟩⟩ := pccExtract_next h <;> rfl

theorem pccShift_images {s t : State} (h : execPccShift s = .next t) : t.images = s.images := by
  obtain ⟨-, rfl⟩ | ⟨-, rfl⟩ := pccShift_next h <;> rfl

theorem sleUpdate_images {s t : State} (h : execSleUpdate s = .next t) : t.images = s.images := by
  rw [sleUpdate_next h]
  rfl

theorem tick_images {s t : State} (h : execTick s = .next t) : t.images = s.images := by
  obtain ⟨t1, h1, hend⟩ := tick_cases h
  have hone : t1.images = s.images := (cpuStep_kept h1).images.trans (presentKey_images s)
  obtain ⟨-, rfl⟩ | ⟨-, t2, t3, t4, h2, h3, h4, rfl⟩ := hend
  · exact hone
  · calc t4.images
      _ = t3.images := sleUpdate_images (s := t3.enter .four) h4
      _ = t2.images := pccShift_images (s := t2.enter .three) h3
      _ = t1.images := pccExtract_images (s := t1.enter .two) h2
      _ = s.images := hone

/-- An operation touches nothing of what is fixed, or it is `LOADROM` and installs an image. -/
theorem exec_images {i : Instr} {s t : State} (h : exec i s = .next t) :
    t.images = s.images ∨ ∃ n blob, i = .loadrom n blob ∧ t = (s.installRom n.toNat blob).reply (.ok 0) := by
  cases exec_effect h with
  | request served => exact .inl (serve_frame served).1.images
  | tick ran => exact .inl (tick_images ran)
  | cpuStep ran => exact .inl (cpuStep_kept ran).images
  | pccExtract ran => exact .inl (pccExtract_images ran)
  | pccShift ran => exact .inl (pccShift_images ran)
  | sleUpdate ran => exact .inl (sleUpdate_images ran)
  | inject | reset | reply | select => exact .inl rfl
  | install => exact .inr ⟨_, _, rfl, rfl⟩
  | lookup => exact .inl (bankLookup_images s _)

theorem exec_cfg_hpWs {i : Instr} {s t : State} (h : exec i s = .next t) : t.cfg = s.cfg ∧ t.hpWs = s.hpWs := by
  obtain he | ⟨n, blob, -, rfl⟩ := exec_images h
  · exact ⟨congrArg (·.1) he, congrArg (·.2.2.2.2) he⟩
  · simp

/-- Settles O53: only the installing of an image touches them, which is `LOADROM`'s and leaves the word-select data. -/
theorem onlyLoadromWritesRom : Obligations.OnlyLoadromWritesRom := by
  intro i s t h
  refine ⟨(exec_cfg_hpWs h).2, fun hi => ?_⟩
  obtain he | ⟨n, blob, hl, -⟩ := exec_images h
  · exact ⟨congrArg (·.2.1) he, congrArg (·.2.2.1) he, congrArg (·.2.2.2.1) he⟩
  · exact absurd hl (hi n blob)

/-- Settles O54: the word taken out of the inbox is no part of the configuration, and no operation writes it. -/
theorem configurationNeverChanges : Obligations.ConfigurationNeverChanges := by
  intro s t h
  obtain rfl | ⟨_, rest, i, -, -, he⟩ := step_cases h
  · rfl
  · exact (exec_cfg_hpWs he).1

end Sys2Proof.Machine
end

section
/-! PROOFS. The diagnostic channel is written to, at its end, and never read: an operation run with other records in
`diag` gives the same outcome but for them, and appends the same records. -/

namespace Sys2Proof.Machine

/-- The board with other records in `diag`. -/
def State.withDiag (s : State) (d : List Diag) : State := { s with diag := d }

@[simp] theorem withDiag_cfg (s : State) (d : List Diag) : (s.withDiag d).cfg = s.cfg := rfl

/-- The outcome with other records in `diag`. -/
def Result.withDiag (o : Result) (d : List Diag) : Result := o.andThen fun t => .next (t.withDiag d)

/-- An operation that does not read `diag` and appends to it the same records whatever it holds. -/
def BlindToDiag (f : State → Result) : Prop :=
  ∀ s, ∃ new, ∀ d, f (s.withDiag d) = (f s).withDiag (d ++ new)

/-! ### How such operations are built -/

theorem BlindToDiag.of_silent {f : State → Result} (h : ∀ s d, f (s.withDiag d) = (f s).withDiag d) :
    BlindToDiag f :=
  fun s => ⟨[], fun d => by rw [List.append_nil, h]⟩

theorem BlindToDiag.next {g : State → State} (h : ∀ s d, g (s.withDiag d) = (g s).withDiag d) :
    BlindToDiag fun s => .next (g s) :=
  .of_silent fun s d => congrArg Host.Outcome.next (h s d)

theorem BlindToDiag.comp {f : State → Result} {g : State → State} (hf : BlindToDiag f)
    (hg : ∀ s d, g (s.withDiag d) = (g s).withDiag d) : BlindToDiag fun s => f (g s) := fun s => by
  obtain ⟨new, h⟩ := hf (g s)
  exact ⟨new, fun d => (congrArg f (hg s d)).trans (h d)⟩

theorem BlindToDiag.andThen {f k : State → Result} (hf : BlindToDiag f) (hk : BlindToDiag k) :
    BlindToDiag fun s => Result.andThen (f s) k := fun s => by
  obtain ⟨new, h⟩ := hf s
  cases ho : f s with
  | next u =>
    obtain ⟨new', h'⟩ := hk u
    refine ⟨new ++ new', fun d => ?_⟩
    dsimp only
    rw [h, ho, ← List.append_assoc]
    exact h' (d ++ new)
  | fault r => cases r
  | refused r => exact ⟨[], fun d => by dsimp only; rw [h, ho]; rfl⟩

theorem BlindToDiag.ite {c : State → Prop} [DecidablePred c] {f g : State → Result}
    (hc : ∀ s d, c (s.withDiag d) = c s) (hf : BlindToDiag f) (hg : BlindToDiag g) :
    BlindToDiag fun s => if c s then f s else g s := fun s => by
  by_cases h : c s
  · simpa only [hc, if_pos h] using hf s
  · simpa only [hc, if_neg h] using hg s

theorem BlindToDiag.gated {ctx : Context} {served : State → Result} (h : BlindToDiag served) :
    BlindToDiag fun s => gated ctx s (served s) := fun s => by
  have hr : ∀ d, (s.withDiag d).refusal ctx = s.refusal ctx := fun d => by cases ctx <;> rfl
  cases hs : s.refusal ctx with
  | none => simpa only [Machine.gated, hr, hs] using h s
  | some r => exact ⟨[], fun d => by simp only [Machine.gated, hr, hs]; rfl⟩

/-! ### The C4 RAM selection -/

theorem bankLookup_withDiag (s : State) (cm : BitVec 3) :
    ∃ new, ∀ d, (s.withDiag d).bankLookup cm = (s.bankLookup cm).withDiag (d ++ new) := by
  unfold State.bankLookup State.addDiagIf
  split
  · exact ⟨[.badCm cm], fun _ => rfl⟩
  · exact ⟨[], fun d => by rw [List.append_nil]⟩

theorem ramIndex_withDiag (s : State) (cm : BitVec 3) (di : BitVec 8) (dir : AccessDir) :
    ∃ new, ∀ d, (s.withDiag d).ramIndex cm di dir =
      ((s.ramIndex cm di dir).1, (s.ramIndex cm di dir).2.withDiag (d ++ new)) := by
  obtain ⟨new, h⟩ := bankLookup_withDiag s cm
  by_cases hn : s.cfg.c4NRam ≤ (physIndex (chipSelect di) (bank cm).1).toNat
  · refine ⟨new ++ [.unpopulated (physIndex (chipSelect di) (bank cm).1) dir], fun d => ?_⟩
    rw [ramIndex_drop hn, ramIndex_drop (s := s.withDiag d) hn, h, ← List.append_assoc]
    rfl
  · have hlt := Nat.not_le.mp hn
    refine ⟨new, fun d => ?_⟩
    rw [ramIndex_served hlt, ramIndex_served (s := s.withDiag d) hlt, h]

/-- A C4 RAM request answers 0 where no chip is, else does what it does with the chip it was given. -/
theorem BlindToDiag.ramIndex {cm : BitVec 3} {di : BitVec 8} {dir : AccessDir} {use : BitVec 4 → State → State}
    (huse : ∀ idx u d, use idx (u.withDiag d) = (use idx u).withDiag d) :
    BlindToDiag fun s =>
      match s.ramIndex cm di dir with
      | (none, s1) => .next (s1.answer 0)
      | (some idx, s1) => .next (use idx s1) := fun s => by
  obtain ⟨new, h⟩ := ramIndex_withDiag s cm di dir
  refine ⟨new, fun d => ?_⟩
  dsimp only
  rw [h]
  obtain ⟨_ | idx, u⟩ := s.ramIndex cm di dir
  · rfl
  · exact congrArg Host.Outcome.next (huse idx u (d ++ new))

/-! ### Operations -/

theorem arcRd_blind (a : BitVec 16) : BlindToDiag (execArcRd a) :=
  .gated <| .of_silent fun s d => by
    simp only [withDiag_cfg]
    cases flatDecode s.cfg a <;> rfl

theorem arcWr_blind (a : BitVec 16) (v : BitVec 8) : BlindToDiag (execArcWr a v) :=
  .gated fun s => by
    simp only [withDiag_cfg]
    cases flatDecode s.cfg a with
    | rom => exact ⟨[.romWrite a v], fun _ => rfl⟩
    | ram | fatal => exact ⟨[], fun d => by rw [List.append_nil]; rfl⟩

theorem c4Ramrd_blind (k : CellKind) (cm : BitVec 3) (di : BitVec 8) : BlindToDiag (execC4Ramrd k cm di) :=
  .gated <| .ramIndex fun _ _ _ => rfl

theorem c4Ramwr_blind (k : CellKind) (cm : BitVec 3) (di : BitVec 8) (v : BitVec 4) :
    BlindToDiag (execC4Ramwr k cm di v) :=
  .gated <| .ramIndex fun _ _ _ => rfl

theorem c4Rampw_blind (cm : BitVec 3) (di : BitVec 8) (v : BitVec 4) : BlindToDiag (execC4Rampw cm di v) :=
  .gated <| .ramIndex fun _ _ _ => rfl

theorem hpFetch_blind (a : BitVec 8) : BlindToDiag (execHpFetch a) :=
  .gated <| .next fun s d => by
    have hw : (s.withDiag d).hpMergedOpcode a = s.hpMergedOpcode a := rfl
    have hsel (w : BitVec 10) : (s.withDiag d).isRomSelect w = s.isRomSelect w := rfl
    simp only [hw, hsel]
    split <;> rfl

theorem serve_blind (i : Instr) : BlindToDiag (serve i) := by
  cases i with
  | arcRd a => exact arcRd_blind a
  | arcWr a v => exact arcWr_blind a v
  | c4Ramrd k cm di => exact c4Ramrd_blind k cm di
  | c4Ramwr k cm di v => exact c4Ramwr_blind k cm di v
  | c4Rampw cm di v => exact c4Rampw_blind cm di v
  | hpFetch a => exact hpFetch_blind a
  | c4Romrd | c4Rompr | c4Rompw | hpWsrd => exact .gated (.next fun _ _ => rfl)
  | _ => exact .of_silent fun _ _ => rfl

theorem serveRequest_blind (q : Req) : BlindToDiag (serveRequest q) := by
  unfold serveRequest
  cases decodeReq q with
  | error e => exact .of_silent fun _ _ => rfl
  | ok i => exact (serve_blind i).comp fun _ _ => rfl

/-- Phase 1: the agent's plan branches on the responses it heard and on a fatal end, never on a record. -/
theorem servePlan_blind (p : CpuPlan) : BlindToDiag (servePlan p) := by
  induction p with
  | idle => exact .next fun _ _ => rfl
  | done p => exact .next fun _ _ => rfl
  | ask q p ih => exact (serveRequest_blind q).andThen (.ite (fun _ _ => rfl) (.next fun _ _ => rfl) ih)
  | whenHeard r yes no ihYes ihNo => exact .ite (fun _ _ => rfl) ihYes ihNo

theorem cpuStep_blind : BlindToDiag execCpuStep :=
  .gated fun s => servePlan_blind s.cpu.plan s.beginStep

/-- What is done on a board with a chain only. -/
theorem BlindToDiag.onChain {g : State → State} (hg : ∀ s d, g (s.withDiag d) = (g s).withDiag d) :
    BlindToDiag fun s => .next (if s.cfg.nShift = 0 then s else g s) :=
  .next fun s d => by
    by_cases h : s.cfg.nShift = 0
    · have hd : (s.withDiag d).cfg.nShift = 0 := h
      simp only [if_pos h, if_pos hd]
    · have hd : ¬ (s.withDiag d).cfg.nShift = 0 := h
      simp only [if_neg h, if_neg hd, hg]

theorem pccExtract_blind : BlindToDiag execPccExtract :=
  .gated <| .onChain fun _ _ => rfl

theorem pccShift_blind : BlindToDiag execPccShift :=
  .gated <| .onChain fun _ _ => rfl

theorem sleUpdate_blind : BlindToDiag execSleUpdate := .gated <| .next fun _ _ => rfl

theorem phasesTwoToFour_blind : BlindToDiag phasesTwoToFour :=
  (pccExtract_blind.comp fun _ _ => rfl).andThen <|
    (pccShift_blind.comp fun _ _ => rfl).andThen <|
      (sleUpdate_blind.comp fun _ _ => rfl).andThen <| .next fun _ _ => rfl

theorem presentKey_withDiag (s : State) (d : List Diag) : (s.withDiag d).presentKey = s.presentKey.withDiag d := by
  unfold State.presentKey
  simp only [withDiag_cfg]
  split <;> rfl

theorem tick_blind : BlindToDiag execTick :=
  .gated <| (cpuStep_blind.comp fun s d => congrArg (State.enter · .one) (presentKey_withDiag s d)).andThen <|
    .ite (fun _ _ => rfl) (.next fun _ _ => rfl) phasesTwoToFour_blind

theorem installRom_withDiag (s : State) (i : Nat) (blob : List Byte) (d : List Diag) :
    (s.withDiag d).installRom i blob = (s.installRom i blob).withDiag d := by
  unfold State.installRom
  simp only [withDiag_cfg]
  split <;> rfl

theorem loadrom_blind (i : BitVec 8) (blob : List Byte) : BlindToDiag (execLoadrom i blob) :=
  .gated <| .ite (fun _ _ => rfl) (.of_silent fun _ _ => rfl) <|
    .ite (fun _ _ => rfl) (.next fun _ _ => rfl)
      (.next fun s d => congrArg (State.reply · (.ok 0)) (installRom_withDiag s i.toNat blob d))

theorem cmSubDecode_blind (cm : BitVec 3) : BlindToDiag fun s => cmSubDecode s cm :=
  .gated fun s => by
    obtain ⟨new, h⟩ := bankLookup_withDiag s cm
    exact ⟨new, fun d => by rw [h]; rfl⟩

/-- `RESET` apart, which empties the channel, every operation writes to `diag` at its end and does not read it. -/
theorem exec_blind {i : Instr} (hi : i ≠ .reset) : BlindToDiag (exec i) := by
  by_cases hr : i.isRequest = true
  · exact serve_eq_exec hr ▸ serve_blind i
  cases i with
  | arcRd | arcWr | c4Romrd | c4Ramrd | c4Ramwr | c4Rampw | c4Rompr | c4Rompw | hpFetch | hpWsrd => exact absurd rfl hr
  | tick => exact tick_blind
  | cpuStep => exact cpuStep_blind
  | pccExtract => exact pccExtract_blind
  | pccShift => exact pccShift_blind
  | sleUpdate => exact sleUpdate_blind
  | loadrom i blob => exact loadrom_blind i blob
  | reset => exact absurd rfl hi
  | inject | rdpar | snap | hpRomsel => exact .gated (.next fun _ _ => rfl)
  | arcAddrRom | arcAddrRam | arcAddrFatal01 | arcAddrFatal10 | arcAddrFatal11 =>
    exact .gated (.next fun _ _ => rfl)
  | cm000 | cm001 | cm010 | cm100 | cm011 | cm101 | cm110 | cm111 => exact cmSubDecode_blind _

/-- `RESET` gives the same board whatever is in the channel. -/
theorem reset_withDiag (s : State) (d : List Diag) : exec .reset (s.withDiag d) = exec .reset s := rfl

/-- What blindness says of an operation that answers a next state. -/
theorem exec_appends {i : Instr} {s t : State} (h : exec i s = .next t) (hi : i ≠ .reset) :
    ∃ new, t.diag = s.diag ++ new ∧ ∀ d, exec i (s.withDiag d) = .next (t.withDiag (d ++ new)) := by
  obtain ⟨new, hn⟩ := exec_blind hi s
  rw [h] at hn
  have hself : exec i s = .next (t.withDiag (s.diag ++ new)) := hn s.diag
  exact ⟨new, congrArg State.diag (Host.Outcome.next.inj (h.symm.trans hself)), hn⟩

/-- Settles O55: what an operation appends stands behind what was there. -/
theorem diagnosticsAreAppendOnly : Obligations.DiagnosticsAreAppendOnly := by
  intro i s t h hi
  obtain ⟨new, ht, -⟩ := exec_appends h hi
  exact ⟨new, ht.symm⟩

/-- Settles O56: `RESET` empties the channel whatever is in it, and every other operation appends blindly. -/
theorem nothingReadsTheDiagnostics : Obligations.NothingReadsTheDiagnostics := by
  intro i s t d h
  by_cases hi : i = .reset
  · subst hi
    exact ⟨t.diag, (reset_withDiag s d).trans h, fun hne => absurd rfl hne⟩
  · obtain ⟨new, ht, hd⟩ := exec_appends h hi
    exact ⟨d ++ new, hd d, fun _ => ⟨new, ht, rfl⟩⟩

end Sys2Proof.Machine
end

section
/-! PROOFS. What the accesses of ARC and C4 answer when served, and that stored words read back (R46). -/

namespace Sys2Proof.Machine

/-! ### Serving -/

theorem State.Serving.refusal_eq_none {s : State} {f : Family} (h : s.Serving f) : s.refusal (.request f) = none :=
  refusal_request.mpr ⟨h.config, h.usable, h.family, h.phase⟩

/-- Whether the requests of a family are served depends on three fields only. -/
theorem State.Serving.of_eq {s t : State} {f : Family} (h : s.Serving f) (hcfg : t.cfg = s.cfg)
    (hhalted : t.halted = s.halted) (hphase : t.phase = s.phase) : t.Serving f where
  config := hcfg ▸ h.config
  usable := hhalted.trans h.usable
  family := hcfg ▸ h.family
  phase := hphase.trans h.phase

theorem State.Serving.bankLookup {s : State} {f : Family} (h : s.Serving f) (cm : BitVec 3) :
    (s.bankLookup cm).Serving f :=
  h.of_eq (State.bankLookup_cfg s cm) (State.bankLookup_halted s cm) (State.bankLookup_phase s cm)

/-! ### ARC reads and writes (R72, R73) -/

section Arc

variable {a : BitVec 16} {v : BitVec 8} {s : State} (hs : s.Serving .arc)
include hs

theorem exec_arcRd_rom (h : a.toNat < 0x2000) :
    exec (.arcRd a) s = .next (s.answer ((s.arcRom.read a.toNat).setWidth 14)) := by
  rw [exec, execArcRd, gated_of_none hs.refusal_eq_none, flatDecode_rom h]
  simp only [State.arcRomRead, arcRomCell_divMod]

theorem exec_arcRd_ram (h : 0x2000 ≤ a.toNat) (h' : a.toNat < 0x4000) :
    exec (.arcRd a) s = .next (s.answer ((s.arcRam.read (a.toNat - 0x2000)).setWidth 14)) := by
  rw [exec, execArcRd, gated_of_none hs.refusal_eq_none, flatDecode_ram h h']
  simp only [State.arcRamRead, arcRamCell_divMod]

theorem exec_arcWr_rom (h : a.toNat < 0x2000) :
    exec (.arcWr a v) s = .next ((s.addDiag (.romWrite a v)).answer 0) := by
  rw [exec, execArcWr, gated_of_none hs.refusal_eq_none, flatDecode_rom h]

theorem exec_arcWr_ram (h : 0x2000 ≤ a.toNat) (h' : a.toNat < 0x4000) :
    exec (.arcWr a v) s = .next ({ s with arcRam := s.arcRam.write (a.toNat - 0x2000) v }.answer 0) := by
  rw [exec, execArcWr, gated_of_none hs.refusal_eq_none, flatDecode_ram h h']
  simp only [State.arcRamWrite, arcRamCell_divMod]

/-- The ROM image word is read back whatever was written. -/
theorem arc_rom_reads_back (h : a.toNat < 0x2000) :
    ∃ t u, exec (.arcWr a v) s = .next t ∧ exec (.arcRd a) t = .next u ∧
      u.resp = .ok ((s.arcRom.read a.toNat).setWidth 14) :=
  ⟨_, _, exec_arcWr_rom hs h, exec_arcRd_rom (hs.of_eq rfl rfl rfl) h, rfl⟩

theorem arc_ram_reads_back (hw : s.arcRam.wf = true) (h : 0x2000 ≤ a.toNat) (h' : a.toNat < 0x4000) :
    ∃ t u, exec (.arcWr a v) s = .next t ∧ exec (.arcRd a) t = .next u ∧ u.resp = .ok (v.setWidth 14) := by
  refine ⟨_, _, exec_arcWr_ram hs h h', exec_arcRd_ram (hs.of_eq rfl rfl rfl) h h', ?_⟩
  simp only [State.answer_resp, State.answer_arcRam, Memory.read_write_same _ v hw]

end Arc

/-! ### The chip and the cell of a C4 RAM access (R56, R62, R23) -/

theorem bank_toNat : ∀ cm : BitVec 3, (bank cm).1.toNat = bankOf cm := by decide

/-- The index the hardware forms is the one the statements compute. -/
theorem physIndex_toNat_eq_chipIndex (cm : BitVec 3) (di : BitVec 8) :
    (physIndex (chipSelect di) (bank cm).1).toNat = chipIndex cm di := by
  have := di.isLt
  rw [physIndex_toNat, bank_toNat, chipSelect, slice_toNat, chipIndex]
  omega

theorem c4RamCell_eq_ramCellOf (k : CellKind) (cm : BitVec 3) (di : BitVec 8) :
    c4RamCell (physIndex (chipSelect di) (bank cm).1).toNat k (localOffset di) = ramCellOf k cm di := by
  rw [c4RamCell, physIndex_toNat_eq_chipIndex, localOffset, slice_toNat, ramCellOf, Config.c4RamCells]
  cases k <;> simp [CellKind.toBit]

/-! ### C4 RAM reads and writes (R76, R77) -/

section C4

variable {k : CellKind} {cm : BitVec 3} {di : BitVec 8} {v : BitVec 4} {s : State} (hs : s.Serving .c4)
include hs

theorem exec_c4Ramrd_populated (h : chipIndex cm di < s.cfg.c4NRam) :
    exec (.c4Ramrd k cm di) s =
      .next ((s.bankLookup cm).answer ((s.c4Ram.read (ramCellOf k cm di)).setWidth 14)) := by
  rw [exec, execC4Ramrd, gated_of_none hs.refusal_eq_none, ramIndex_served (physIndex_toNat_eq_chipIndex cm di ▸ h)]
  simp only [State.c4RamRead, c4RamCell_eq_ramCellOf, State.bankLookup_c4Ram]

theorem exec_c4Ramrd_unpopulated (h : s.cfg.c4NRam ≤ chipIndex cm di) :
    exec (.c4Ramrd k cm di) s =
      .next (((s.bankLookup cm).addDiag (.unpopulated (physIndex (chipSelect di) (bank cm).1) .read)).answer 0) := by
  rw [exec, execC4Ramrd, gated_of_none hs.refusal_eq_none, ramIndex_drop (physIndex_toNat_eq_chipIndex cm di ▸ h)]

theorem exec_c4Ramwr_populated (h : chipIndex cm di < s.cfg.c4NRam) :
    exec (.c4Ramwr k cm di v) s =
      .next ({ s.bankLookup cm with c4Ram := s.c4Ram.write (ramCellOf k cm di) v }.answer 0) := by
  rw [exec, execC4Ramwr, gated_of_none hs.refusal_eq_none, ramIndex_served (physIndex_toNat_eq_chipIndex cm di ▸ h)]
  simp only [State.c4RamWrite, c4RamCell_eq_ramCellOf, State.bankLookup_c4Ram]

theorem exec_c4Ramwr_unpopulated (h : s.cfg.c4NRam ≤ chipIndex cm di) :
    exec (.c4Ramwr k cm di v) s =
      .next (((s.bankLookup cm).addDiag (.unpopulated (physIndex (chipSelect di) (bank cm).1) .write)).answer 0) := by
  rw [exec, execC4Ramwr, gated_of_none hs.refusal_eq_none, ramIndex_drop (physIndex_toNat_eq_chipIndex cm di ▸ h)]

theorem c4_populated_reads_back (hw : s.c4Ram.wf = true) (h : chipIndex cm di < s.cfg.c4NRam) :
    ∃ t u, exec (.c4Ramwr k cm di v) s = .next t ∧ exec (.c4Ramrd k cm di) t = .next u ∧
      u.resp = .ok (v.setWidth 14) := by
  refine ⟨_, _, exec_c4Ramwr_populated hs h,
    exec_c4Ramrd_populated ((hs.bankLookup cm).of_eq rfl rfl rfl) (by simpa using h), ?_⟩
  simp only [State.answer_resp, State.answer_c4Ram, Memory.read_write_same _ v hw]

theorem c4_unpopulated_reads_zero (h : s.cfg.c4NRam ≤ chipIndex cm di) :
    ∃ t u, exec (.c4Ramwr k cm di v) s = .next t ∧ exec (.c4Ramrd k cm di) t = .next u ∧ u.resp = .ok 0 :=
  ⟨_, _, exec_c4Ramwr_unpopulated hs h,
    exec_c4Ramrd_unpopulated ((hs.bankLookup cm).of_eq rfl rfl rfl) (by simpa using h), rfl⟩

end C4

/-- Settles O10: by the region of the address on ARC, and by whether a chip is at the position on C4. -/
theorem storedWordsReadBack : Obligations.StoredWordsReadBack := by
  refine ⟨fun a v s hs hw ha => ?_, fun k cm di v s hs hw => ?_⟩
  · rw [Nat.div_add_mod']
    by_cases h : a.toNat < 0x2000
    · rw [if_pos h]
      exact arc_rom_reads_back hs h
    · rw [if_neg h]
      exact arc_ram_reads_back hs hw (Nat.not_lt.mp h) ha
  · by_cases h : chipIndex cm di < s.cfg.c4NRam
    · rw [if_pos h]
      exact c4_populated_reads_back hs hw h
    · rw [if_neg h]
      exact c4_unpopulated_reads_zero hs (Nat.not_lt.mp h)

end Sys2Proof.Machine
end

section
/-! PROOFS. Encodings: reading and joining the fields of a word, decoding and encoding as inverses, and the malformed
request words (R50 to R57, R66). -/

namespace Sys2Proof

/-! ### Reading the fields of a word -/

@[simp] theorem slice_zero_width {w : Nat} (x : BitVec w) : slice x 0 w = x := BitVec.extractLsb'_eq_self

/-- `no_index`, here and below: the layouts write the width of a word as one numeral, not as the sum of its fields'. -/
@[simp] theorem slice_append_low {n m lo k : Nat} (x : BitVec n) (y : BitVec m) (h : lo + k ≤ m) :
    slice (no_index (x ++ y)) lo k = slice y lo k := BitVec.extractLsb'_append_eq_of_add_le h

@[simp] theorem slice_append_high {n m lo k : Nat} (x : BitVec n) (y : BitVec m) (h : m ≤ lo) :
    slice (no_index (x ++ y)) lo k = slice x (lo - m) k := BitVec.extractLsb'_append_eq_of_le h

theorem Req.op_toNat (q : Req) : q.op.toNat = q.w.toNat / 65536 := by
  have := q.w.isLt
  rw [Req.op, Machine.slice_toNat]
  omega

theorem Req.a_toNat (q : Req) : q.a.toNat = q.w.toNat % 65536 := by
  rw [Req.a, Machine.slice_toNat]
  omega

/-! ### Joining the fields that were read -/

theorem slice_append_slice {w n m : Nat} (x : BitVec w) : slice x m n ++ slice x 0 m = slice x 0 (n + m) :=
  BitVec.extractLsb'_append_extractLsb'_eq_extractLsb' (Nat.zero_add m).symm

/-- A word is its high field beside the rest. -/
theorem append_slice_of_high {n m : Nat} {x : BitVec (n + m)} {y : BitVec n} (h : slice x m n = y) :
    y ++ slice x 0 m = x := h ▸ BitVec.extractLsb'_append_extractLsb'

theorem Req.op_append_a (q : Req) : q.op ++ q.a = q.w := append_slice_of_high rfl

theorem byteOperand_slice {a : BitVec 16} (h : slice a 8 8 = 0) : byteOperand (slice a 0 8) = a :=
  append_slice_of_high h

theorem ramOperand_slice {a : BitVec 16} (h : slice a 12 4 = 0) :
    ramOperand (.ofBit (slice a 11 1)) (slice a 8 3) (slice a 0 8) = a := by
  rw [ramOperand, CellKind.toBit_ofBit, slice_append_slice, slice_append_slice]
  exact append_slice_of_high h

/-- The operand field of `C4.RAMPW`, which has no bit `k` (R51). -/
theorem portOperand_slice {a : BitVec 16} (h : slice a 11 5 = 0) :
    (0 : BitVec 5) ++ (slice a 8 3 ++ slice a 0 8) = a := by
  rw [slice_append_slice]
  exact append_slice_of_high h

/-! ### Decoding what was encoded -/

theorem decode_encode (pattern : BitVec 7) (i : Instr) : decode pattern (encode pattern i) = .ok i := by
  cases i with
  | arcRd | arcWr | c4Romrd | c4Ramrd | c4Ramwr | c4Rampw | c4Rompr | c4Rompw | hpFetch | hpWsrd | inject | loadrom =>
    simp [encode, encodeReq, ramOperand, byteOperand, decode, decodeReq, op_append, a_append, whenZero]
  | tick | reset | rdpar | snap => rfl
  | cpuStep | pccExtract | pccShift | sleUpdate => rfl
  | hpRomsel b => simp [encode, decode, decodeHpop]
  | arcAddrRom chip offset =>
    have hClass : slice (0#3) 1 2 = 0#2 := rfl
    have hRegion : slice (0#3) 0 1 = 0#1 := rfl
    simp [encode, decode, decodeArcAddr, hClass, hRegion]
  | arcAddrRam r =>
    have hClass : slice (1#3) 1 2 = 0#2 := rfl
    have hRegion : slice (1#3) 0 1 = 1#1 := rfl
    simp [encode, decode, decodeArcAddr, hClass, hRegion]
  | arcAddrFatal01 | arcAddrFatal10 | arcAddrFatal11 => simp [encode, decode, decodeArcAddr]
  | cm000 | cm001 | cm010 | cm100 | cm011 | cm101 | cm110 | cm111 => rfl

/-- Settles O48: instruction by instruction, each field is read back from the place the encoder puts it. -/
theorem decodeInvertsEncode : Obligations.DecodeInvertsEncode := decode_encode

/-! ### Encoding what was decoded -/

/-- The two fields of R50 determine the word of a request. -/
theorem encodeReq_of_fields {q : Req} {op : BitVec 4} {a : BitVec 16} (hop : q.op.toNat = op.toNat) (ha : a = q.a)
    (d : DataWord) (blob : List Byte) : ∃ d' blob', encodeReq op a d blob = .req ⟨q.w, d', blob'⟩ := by
  rw [encodeReq, ← BitVec.eq_of_toNat_eq hop, ha, q.op_append_a]
  exact ⟨d, blob, rfl⟩

theorem encode_of_decodeReq {q : Req} {i : Instr} (pattern : BitVec 7) (h : decodeReq q = .ok i) :
    ∃ d blob, encode pattern i = .req ⟨q.w, d, blob⟩ := by
  unfold decodeReq at h
  split at h
  case h_1 hop | h_2 hop | h_12 hop =>
    cases h
    exact encodeReq_of_fields hop rfl _ _
  case h_3 hop =>
    obtain ⟨hz, rfl⟩ := whenZero_ok.mp h
    exact encodeReq_of_fields hop (append_slice_of_high hz) _ _
  case h_4 hop | h_5 hop =>
    obtain ⟨hz, rfl⟩ := whenZero_ok.mp h
    exact encodeReq_of_fields hop (ramOperand_slice hz) _ _
  case h_6 hop =>
    obtain ⟨hz, rfl⟩ := whenZero_ok.mp h
    exact encodeReq_of_fields hop (portOperand_slice hz) _ _
  case h_7 hop | h_8 hop | h_9 hop | h_10 hop | h_14 hop =>
    obtain ⟨hz, rfl⟩ := whenZero_ok.mp h
    exact encodeReq_of_fields hop (byteOperand_slice hz) _ _
  case h_11 hop | h_13 hop | h_15 hop =>
    obtain ⟨hz, rfl⟩ := whenZero_ok.mp h
    exact encodeReq_of_fields hop hz.symm _ _
  case h_16 =>
    have hop : q.op.toNat = 15 := by have := q.op.isLt; grind
    obtain ⟨hz, rfl⟩ := whenZero_ok.mp h
    exact encodeReq_of_fields hop hz.symm _ _

theorem encode_of_decodePhase {p : BitVec 3} {i : Instr} (pattern : BitVec 7) (h : decodePhase p = .ok i) :
    encode pattern i = .phase p := by
  unfold decodePhase at h
  split at h
  case h_1 hp | h_2 hp | h_3 hp | h_4 hp =>
    cases h
    exact congrArg Encoded.phase (BitVec.eq_of_toNat_eq hp.symm)
  case h_5 => cases h

theorem encode_of_decodeHpop {pattern : BitVec 7} {o : BitVec 10} {i : Instr} (h : decodeHpop pattern o = .ok i) :
    encode pattern i = .hpop o := by
  unfold decodeHpop at h
  split at h
  case isTrue hp =>
    cases h
    rw [encode, ← hp]
    exact congrArg Encoded.hpop (append_slice_of_high rfl)
  case isFalse => cases h

/-- Below 0x4000 `addr[13]` alone tells the region (R52). -/
theorem slice_region_of_class_zero {a : BitVec 16} (h : (slice a 14 2).toNat = 0) :
    (slice a 13 3).toNat = (slice a 13 1).toNat := by
  simp only [Machine.slice_toNat] at h ⊢
  omega

theorem encode_of_decodeArcAddr {a : BitVec 16} {i : Instr} (pattern : BitVec 7) (h : decodeArcAddr a = .ok i) :
    encode pattern i = .arcAddr a := by
  unfold decodeArcAddr at h
  split at h
  case h_1 hClass =>
    have hTop := slice_region_of_class_zero hClass
    split at h
    case isTrue hRom =>
      have hz : slice a 13 3 = 0 := BitVec.eq_of_toNat_eq (by rw [hTop, hRom]; rfl)
      cases h
      rw [encode, slice_append_slice]
      exact congrArg Encoded.arcAddr (append_slice_of_high hz)
    case isFalse hRam =>
      have hOne := (BitVec.eq_zero_or_eq_one (slice a 13 1)).resolve_left hRam
      have hz : slice a 13 3 = 1 := BitVec.eq_of_toNat_eq (by rw [hTop, hOne]; rfl)
      cases h
      exact congrArg Encoded.arcAddr (append_slice_of_high hz)
  case h_2 hClass | h_3 hClass =>
    cases h
    exact congrArg Encoded.arcAddr (append_slice_of_high (BitVec.eq_of_toNat_eq hClass))
  case h_4 =>
    have hClass : (slice a 14 2).toNat = 3 := by have := (slice a 14 2).isLt; grind
    cases h
    exact congrArg Encoded.arcAddr (append_slice_of_high (BitVec.eq_of_toNat_eq hClass))

theorem encode_of_decodeCm {c : BitVec 3} {i : Instr} (pattern : BitVec 7) (h : decodeCm c = .ok i) :
    encode pattern i = .cm c := by
  unfold decodeCm at h
  split at h
  case h_1 hc | h_2 hc | h_3 hc | h_4 hc | h_5 hc | h_6 hc | h_7 hc =>
    cases h
    exact congrArg Encoded.cm (BitVec.eq_of_toNat_eq hc.symm)
  case h_8 =>
    have hc : c.toNat = 7 := by have := c.isLt; grind
    cases h
    exact congrArg Encoded.cm (BitVec.eq_of_toNat_eq hc.symm)

/-- Settles O49: form by form the decoded fields join to the word; that the word with the encoder's data decodes to the
same instruction is O48's `decode_encode`. -/
theorem encodeInvertsDecode : Obligations.EncodeInvertsDecode := by
  refine fun pattern i => ⟨fun q h => ?_, fun p => encode_of_decodePhase pattern, fun o => encode_of_decodeHpop,
    fun a => encode_of_decodeArcAddr pattern, fun c => encode_of_decodeCm pattern⟩
  obtain ⟨d, blob, he⟩ := encode_of_decodeReq pattern h
  exact ⟨d, blob, he, (congrArg (decode pattern) he).symm.trans (decode_encode pattern i)⟩

/-! ### Malformed request words -/

theorem whenZero_error {n : Nat} {x : BitVec n} {i : Instr} : (∃ e, whenZero x i = .error e) ↔ x.toNat ≠ 0 := by
  have hx : x = 0 ↔ x.toNat = 0 := BitVec.toNat_inj.symm
  unfold whenZero
  split <;> simp_all

/-- When the unnamed bits are those from `lo` up, one of them is set just when the word is at least `2 ^ lo`. -/
theorem whenZero_slice_error {w lo n : Nat} {x : BitVec w} {i : Instr} (h : w ≤ lo + n) :
    (∃ e, whenZero (slice x lo n) i = .error e) ↔ x.toNat / 2 ^ lo ≠ 0 := by
  have hlt : x.toNat / 2 ^ lo < 2 ^ n :=
    Nat.div_lt_of_lt_mul (x.isLt.trans_le (pow_add 2 lo n ▸ Nat.pow_le_pow_right two_pos h))
  rw [whenZero_error, Machine.slice_toNat, Nat.mod_eq_of_lt hlt]

/-- Settles O50: by the op, in the groups of R51 that leave none of `a`, all of it, or its top bits unnamed. -/
theorem malformedWordsAreThoseWithUnnamedBits : Obligations.MalformedWordsAreThoseWithUnnamedBits := by
  intro q
  rw [← q.op_toNat, ← q.a_toNat]
  unfold decodeReq
  split
  case h_1 hop | h_2 hop | h_12 hop => simp [hop]
  case h_11 hop | h_13 hop | h_15 hop => simp [hop, whenZero_error]
  case h_3 hop | h_4 hop | h_5 hop | h_6 hop | h_7 hop | h_8 hop | h_9 hop | h_10 hop | h_14 hop =>
    simp [hop, whenZero_slice_error]
  case h_16 =>
    have hop : q.op.toNat = 15 := by have := q.op.isLt; grind
    simp [hop, whenZero_error]

/-- Settles O51: the decoder evaluated on the fourteen words. -/
theorem specWordsDecode : Obligations.SpecWordsDecode := by
  unfold Obligations.SpecWordsDecode
  decide

end Sys2Proof
end

section
/-! PROOFS. Operations of another family, at the wrong time or outside their phase (R66, R122, R126). -/

namespace Sys2Proof.Machine

/-! ### What the gate of each context refuses -/

theorem refusal_otherFamily {s : State} {f : Family} (hc : s.cfg.ok = true) (hh : s.halted = false)
    (hf : f ≠ s.cfg.family) : s.refusal (.request f) = some .otherFamily := by
  simp [State.refusal, hc, hh, hf.symm]

theorem refusal_outsidePhaseOne {s : State} {f : Family} (hc : s.cfg.ok = true) (hh : s.halted = false)
    (hf : f = s.cfg.family) (hp : s.phase ≠ .one) : s.refusal (.request f) = some .outsidePhaseOne := by
  simp [State.refusal, hc, hh, hf, hp]

theorem refusal_duringTick {s : State} {ctx : Context} (hx : ctx = .command ∨ ctx = .commandWhileHalted)
    (hc : s.cfg.ok = true) (hh : s.halted = false) (hp : s.phase ≠ .between) : s.refusal ctx = some .duringTick := by
  obtain rfl | rfl := hx <;> simp [State.refusal, hc, hh, hp]

theorem refusal_outOfPhase {s : State} {p : Phase} (hc : s.cfg.ok = true) (hh : s.halted = false) (hp : s.phase ≠ p) :
    s.refusal (.micro p) = some .outOfPhase := by simp [State.refusal, hc, hh, hp]

/-! ### The context of an operation -/

theorem issueContext_of_family {i : Instr} {f : Family} (h : i.family = some f) : issueContext i = .request f := by
  cases i <;> cases h <;> rfl

theorem issueContext_of_isCommand {i : Instr} (h : i.isCommand = true) :
    issueContext i = .command ∨ issueContext i = .commandWhileHalted := by
  cases i with
  | tick | inject | loadrom | rdpar => exact .inl rfl
  | reset | snap => exact .inr rfl
  | _ => cases h

theorem issueContext_of_firedAt {i : Instr} {p : Phase} (h : firedAt i = some p) : issueContext i = .micro p := by
  cases i with
  | cpuStep | pccExtract | pccShift | sleUpdate => cases h; rfl
  | _ => cases h

theorem family_of_isRequest {i : Instr} (h : i.isRequest = true) : ∃ f, i.family = some f := by
  cases i with
  | arcRd | arcWr | c4Romrd | c4Ramrd | c4Ramwr | c4Rampw | c4Rompr | c4Rompw | hpFetch | hpWsrd => exact ⟨_, rfl⟩
  | _ => cases h

theorem family_of_cm : ∀ i ∈ [Instr.cm000, .cm001, .cm010, .cm100, .cm011, .cm101, .cm110, .cm111],
    i.family = some .c4 := by decide

theorem familyOk_iff {c : Config} {i : Instr} {f : Family} (h : i.family = some f) :
    i.familyOk c = true ↔ f = c.family := by simp [Instr.familyOk, h]

theorem family_of_familyOk_eq_false {c : Config} {i : Instr} (h : i.familyOk c = false) :
    ∃ f, i.family = some f ∧ f ≠ c.family := by
  cases hi : i.family with
  | none => simp [Instr.familyOk, hi] at h
  | some f => exact ⟨f, rfl, fun hf => Bool.false_ne_true (h.symm.trans ((familyOk_iff hi).mpr hf))⟩

/-- Requests and the parts of requests alike: what belongs to a family waits for phase 1 of a tick. -/
theorem exec_outsidePhaseOne {i : Instr} {s : State} (hi : ∃ f, i.family = some f) (hc : s.cfg.ok = true)
    (hh : s.halted = false) (hf : i.familyOk s.cfg = true) (hp : s.phase ≠ .one) :
    exec i s = .refused .outsidePhaseOne := by
  obtain ⟨f, hi⟩ := hi
  exact exec_of_refusal (issueContext_of_family hi ▸ refusal_outsidePhaseOne hc hh ((familyOk_iff hi).mp hf) hp)

/-- Settles O46: the context of each operation is known, and so is what the gate of that context refuses. -/
theorem misplacedOperationsAreRefused : Obligations.MisplacedOperationsAreRefused := by
  intro i s hc hh
  refine ⟨fun hf => ?_, fun hr => exec_outsidePhaseOne (family_of_isRequest hr) hc hh,
    fun hpart => exec_outsidePhaseOne ?_ hc hh, fun hcmd hp => ?_, fun p hm hp => ?_⟩
  · obtain ⟨f, hi, hne⟩ := family_of_familyOk_eq_false hf
    exact exec_of_refusal (issueContext_of_family hi ▸ refusal_otherFamily hc hh hne)
  · obtain ⟨_, rfl⟩ | ⟨_, _, rfl⟩ | ⟨_, rfl⟩ | ⟨_, rfl⟩ | ⟨_, rfl⟩ | ⟨_, rfl⟩ | hcm := hpart
    iterate 6 exact ⟨_, rfl⟩
    exact ⟨_, family_of_cm i hcm⟩
  · exact exec_of_refusal (refusal_duringTick (issueContext_of_isCommand hcmd) hc hh hp)
  · exact exec_of_refusal (issueContext_of_firedAt hm ▸ refusal_outOfPhase hc hh hp)

end Sys2Proof.Machine
end

section
/-! PROOFS. Address decode: where the accesses of ARC and C4 go, the records they leave, and what they change
(R71 to R84). -/

namespace Sys2Proof.Machine

/-! ### ARC (R71 to R73) -/

section Arc

variable {s : State} (hs : s.Serving .arc)
include hs

theorem exec_arcRd_fatal {a : BitVec 16} (h : 0x4000 ≤ a.toNat) :
    exec (.arcRd a) s = .next (s.takeFatal (.read a)) := by
  rw [exec, execArcRd, gated_of_none hs.refusal_eq_none, flatDecode_fatal h]

theorem exec_arcWr_fatal {a : BitVec 16} (v : BitVec 8) (h : 0x4000 ≤ a.toNat) :
    exec (.arcWr a v) s = .next (s.takeFatal (.write a v)) := by
  rw [exec, execArcWr, gated_of_none hs.refusal_eq_none, flatDecode_fatal h]

theorem arcSubDecode_served (t : Target) : arcSubDecode s t = .next { s with resp := .target t } :=
  gated_of_none hs.refusal_eq_none

end Arc

/-- Settles O6: by the region of the address. -/
theorem arcReadAnswersTheAddressedWord : Obligations.ArcReadAnswersTheAddressedWord := fun _ _ hs =>
  ⟨exec_arcRd_rom hs, exec_arcRd_ram hs, fun h => ⟨_, exec_arcRd_fatal hs h, rfl, rfl⟩⟩

/-- Settles O7: by the region of the address; the word stored and the others are those of one `Memory.write`. -/
theorem arcWriteStoresOrIsDiscarded : Obligations.ArcWriteStoresOrIsDiscarded := fun _ v _ hs hw =>
  ⟨exec_arcWr_rom hs,
    fun h h' => ⟨_, exec_arcWr_ram hs h h', Memory.read_write_same _ v hw, fun _ => Memory.read_write_other _ v⟩,
    fun h => ⟨_, exec_arcWr_fatal hs v h, rfl, rfl⟩⟩

/-- Settles O8: each row is a sub-decode with its target. -/
theorem arcAddressClassesYieldTheirOutcome : Obligations.ArcAddressClassesYieldTheirOutcome := fun _ hs =>
  ⟨fun _ _ => arcSubDecode_served hs _, fun _ => arcSubDecode_served hs _, fun _ => arcSubDecode_served hs _,
    fun _ => arcSubDecode_served hs _, fun _ => arcSubDecode_served hs _⟩

/-! ### The address classes from the bits (R52) and by division (R71) -/

theorem decodeArcAddr_rom {a : BitVec 16} (h : a.toNat < 0x2000) :
    decodeArcAddr a = .ok (.arcAddrRom (slice a 11 2) (slice a 0 11)) := by
  have hClass : (slice a 14 2).toNat = 0 := by rw [slice_toNat]; omega
  have hRegion : slice a 13 1 = 0 := BitVec.eq_of_toNat_eq (by rw [slice_toNat]; change _ = 0; omega)
  simp [decodeArcAddr, hClass, hRegion]

theorem decodeArcAddr_ram {a : BitVec 16} (h : 0x2000 ≤ a.toNat) (h' : a.toNat < 0x4000) :
    decodeArcAddr a = .ok (.arcAddrRam (slice a 0 13)) := by
  have hClass : (slice a 14 2).toNat = 0 := by rw [slice_toNat]; omega
  have hRegion : slice a 13 1 = 1 := BitVec.eq_of_toNat_eq (by rw [slice_toNat]; change _ = 1; omega)
  simp [decodeArcAddr, hClass, hRegion]

theorem decodeArcAddr_fatal {a : BitVec 16} (h : 0x4000 ≤ a.toNat) :
    ∃ i, decodeArcAddr a = .ok i ∧ ∀ s, exec i s = arcSubDecode s .fatal := by
  have hClass : (slice a 14 2).toNat ≠ 0 := by have := a.isLt; rw [slice_toNat]; omega
  unfold decodeArcAddr
  split
  case h_1 h0 => exact absurd h0 hClass
  case h_2 | h_3 | h_4 => exact ⟨_, rfl, fun _ => rfl⟩

/-- Read from its bits, an address of any class has the target FlatDecode gives it. -/
theorem decodeArcAddr_yields_flatDecode (a : BitVec 16) :
    ∃ i, decodeArcAddr a = .ok i ∧ ∀ s, exec i s = arcSubDecode s (flatDecode s.cfg a) := by
  by_cases hFatal : 0x4000 ≤ a.toNat
  · simpa only [flatDecode_fatal hFatal] using decodeArcAddr_fatal hFatal
  by_cases hRom : a.toNat < 0x2000
  · refine ⟨_, decodeArcAddr_rom hRom, fun s => ?_⟩
    have hChip : (slice a 11 2).toNat = a.toNat / 2048 := by rw [slice_toNat]; omega
    have hOffset : (slice a 0 11).toNat = a.toNat % 2048 := by rw [slice_toNat]; omega
    rw [flatDecode_rom hRom, exec, execArcAddrRom, hChip, hOffset]
  · refine ⟨_, decodeArcAddr_ram (by omega) (by omega), fun s => ?_⟩
    have hRegion : (slice a 0 13).toNat = a.toNat - 0x2000 := by rw [slice_toNat]; omega
    rw [flatDecode_ram (by omega) (by omega), exec, execArcAddrRam, hRegion]

/-- Settles O9: the row decoded from the bits yields FlatDecode's target. -/
theorem arcAddressBitsAgreeWithFlatDecode : Obligations.ArcAddressBitsAgreeWithFlatDecode := by
  intro a s hs
  obtain ⟨i, hi, he⟩ := decodeArcAddr_yields_flatDecode a
  exact ⟨i, hi, (he s).trans (arcSubDecode_served hs _)⟩

/-! ### The records of a C4 RAM access (R75, R143, R145) -/

/-- The encodings Bank flags are those the statements call invalid. -/
theorem badCmRecord_eq : ∀ cm : BitVec 3, badCmRecord cm = if (bank cm).2 then [.badCm cm] else [] := by decide

theorem bankLookup_eq (s : State) (cm : BitVec 3) : s.bankLookup cm = s.withDiag (s.diag ++ badCmRecord cm) := by
  rw [badCmRecord_eq, State.bankLookup, State.addDiagIf]
  cases (bank cm).2
  · simp [State.withDiag]
  · rfl

theorem physIndex_eq_ofNat_chipIndex (cm : BitVec 3) (di : BitVec 8) :
    physIndex (chipSelect di) (bank cm).1 = BitVec.ofNat 4 (chipIndex cm di) := by
  rw [← physIndex_toNat_eq_chipIndex, BitVec.ofNat_toNat, BitVec.setWidth_eq]

/-- The records an access leaves, BAD_CM first. -/
theorem bankLookup_populated {cm : BitVec 3} {di : BitVec 8} {s : State} (h : chipIndex cm di < s.cfg.c4NRam)
    (dir : AccessDir) :
    s.bankLookup cm = s.withDiag (s.diag ++ (badCmRecord cm ++ unpopulatedRecord s.cfg cm di dir)) := by
  rw [bankLookup_eq, unpopulatedRecord, if_neg (Nat.not_le.mpr h), List.append_nil]

theorem bankLookup_addDiag_unpopulated {cm : BitVec 3} {di : BitVec 8} {s : State}
    (h : s.cfg.c4NRam ≤ chipIndex cm di) (dir : AccessDir) :
    (s.bankLookup cm).addDiag (.unpopulated (physIndex (chipSelect di) (bank cm).1) dir) =
      s.withDiag (s.diag ++ (badCmRecord cm ++ unpopulatedRecord s.cfg cm di dir)) := by
  rw [bankLookup_eq, physIndex_eq_ofNat_chipIndex, unpopulatedRecord, if_pos h, ← List.append_assoc]
  rfl

/-! ### C4 RAM (R76 to R78) -/

section C4

variable {cm : BitVec 3} {di : BitVec 8} {s : State} (hs : s.Serving .c4)
include hs

theorem exec_c4Rampw_populated (v : BitVec 4) (h : chipIndex cm di < s.cfg.c4NRam) :
    exec (.c4Rampw cm di v) s = .next (((s.bankLookup cm).portWrite .ram (chipIndex cm di) v).answer 0) := by
  rw [exec, execC4Rampw, gated_of_none hs.refusal_eq_none, ramIndex_served (physIndex_toNat_eq_chipIndex cm di ▸ h)]
  simp only [physIndex_toNat_eq_chipIndex]

theorem exec_c4Rampw_unpopulated (v : BitVec 4) (h : s.cfg.c4NRam ≤ chipIndex cm di) :
    exec (.c4Rampw cm di v) s = .next
      (((s.bankLookup cm).addDiag (.unpopulated (physIndex (chipSelect di) (bank cm).1) .portWrite)).answer 0) := by
  rw [exec, execC4Rampw, gated_of_none hs.refusal_eq_none, ramIndex_drop (physIndex_toNat_eq_chipIndex cm di ▸ h)]

end C4

/-- Settles O13: by whether a chip is at the index. -/
theorem c4RamReadAnswersTheCell : Obligations.C4RamReadAnswersTheCell := by
  intro k cm di s hs
  by_cases h : chipIndex cm di < s.cfg.c4NRam
  · rw [exec_c4Ramrd_populated hs h, bankLookup_populated h .read, if_pos h]
    rfl
  · rw [exec_c4Ramrd_unpopulated hs (Nat.not_lt.mp h), bankLookup_addDiag_unpopulated (Nat.not_lt.mp h), if_neg h]
    rfl

/-- Settles O14: by whether a chip is at the index; the cell stored and the others are those of one `Memory.write`. -/
theorem c4RamWriteStoresOneCell : Obligations.C4RamWriteStoresOneCell := by
  intro k cm di v s hs hw
  by_cases h : chipIndex cm di < s.cfg.c4NRam
  · refine ⟨s.c4Ram.write (ramCellOf k cm di) v, ?_,
      fun _ => ⟨Memory.read_write_same _ v hw, fun _ => Memory.read_write_other _ v⟩,
      fun hn => absurd h (Nat.not_lt.mpr hn)⟩
    rw [exec_c4Ramwr_populated hs h, bankLookup_populated h .write]
    rfl
  · refine ⟨s.c4Ram, ?_, fun hp => absurd hp h, fun _ => rfl⟩
    rw [exec_c4Ramwr_unpopulated hs (Nat.not_lt.mp h), bankLookup_addDiag_unpopulated (Nat.not_lt.mp h)]
    rfl

/-- Settles O15: by whether a chip is at the index. -/
theorem c4RamPortWriteSetsOneLatch : Obligations.C4RamPortWriteSetsOneLatch := by
  intro cm di v s hs
  rw [← portValue_eq]
  by_cases h : chipIndex cm di < s.cfg.c4NRam
  · rw [exec_c4Rampw_populated hs v h, bankLookup_populated h .portWrite, if_pos h]
    rfl
  · rw [exec_c4Rampw_unpopulated hs v (Nat.not_lt.mp h), bankLookup_addDiag_unpopulated (Nat.not_lt.mp h), if_neg h]
    rfl

/-! ### Invalid command control (R54, R74, R84) -/

/-- Settles O19: the chip, the cell and the UNPOPULATED record depend on the bank only, and the bank of each invalid
encoding is that of 000. -/
theorem invalidCommandControlAliasesBankZero : Obligations.InvalidCommandControlAliasesBankZero := by
  intro k cm di s hs hInvalid
  have hBank : bankOf cm = bankOf 0b000 := by obtain rfl | rfl | rfl | rfl := hInvalid <;> rfl
  have hRecord : badCmRecord cm = [.badCm cm] := by obtain rfl | rfl | rfl | rfl := hInvalid <;> rfl
  have hChip : chipIndex cm di = chipIndex 0b000 di := by rw [chipIndex, chipIndex, hBank]
  have hCell : ramCellOf k cm di = ramCellOf k 0b000 di := by rw [ramCellOf, ramCellOf, hChip]
  refine ⟨_, _, c4RamReadAnswersTheCell k cm di s hs, c4RamReadAnswersTheCell k 0b000 di s hs, ?_, ?_⟩
  · simp only [spoken, hChip, hCell]
  · simp only [spoken, unpopulatedRecord, hChip, hRecord]

theorem cmSubDecode_valid {cm : BitVec 3} {b : BitVec 2} {s : State} (hs : s.Serving .c4) (h : bank cm = (b, false)) :
    cmSubDecode s cm = .next { s with resp := .bank b false } := by
  rw [cmSubDecode, gated_of_none hs.refusal_eq_none, State.bankLookup, h]
  rfl

theorem cmSubDecode_invalid {cm : BitVec 3} {b : BitVec 2} {s : State} (hs : s.Serving .c4) (h : bank cm = (b, true)) :
    cmSubDecode s cm = .next { s with diag := s.diag ++ [.badCm cm], resp := .bank b true } := by
  rw [cmSubDecode, gated_of_none hs.refusal_eq_none, State.bankLookup, h]
  rfl

/-- Settles O12: each row is a sub-decode of its encoding, four of them valid. -/
theorem commandControlRowsYieldTheirBank : Obligations.CommandControlRowsYieldTheirBank := fun _ hs =>
  ⟨cmSubDecode_valid hs rfl, cmSubDecode_valid hs rfl, cmSubDecode_valid hs rfl, cmSubDecode_valid hs rfl,
    cmSubDecode_invalid hs rfl, cmSubDecode_invalid hs rfl, cmSubDecode_invalid hs rfl, cmSubDecode_invalid hs rfl⟩

/-! ### C4 ROM and its ports (R79 to R82) -/

theorem romPortChip_eq (c : Config) (di : BitVec 8) : romPortChip c di = di.toNat / 16 % c.c4NRom := by
  have hHigh : (slice di 4 4).toNat = di.toNat / 16 := by have := di.isLt; rw [slice_toNat]; omega
  rw [romPortChip, hHigh]

/-- Settles O16: the cell is the one of the wrapped chip and offset. -/
theorem c4RomReadWrapsTheChip : Obligations.C4RomReadWrapsTheChip := by
  intro addr s hs
  rw [exec, execC4Romrd, gated_of_none hs.refusal_eq_none, wrapDecode]
  rfl

/-- Settles O17: `di[7:4]` as a number is `di / 16`. -/
theorem c4RomPortReadAnswersTheInputPort : Obligations.C4RomPortReadAnswersTheInputPort := by
  intro di s hs
  rw [exec, execC4Rompr, gated_of_none hs.refusal_eq_none, romPortChip_eq]
  rfl

/-- Settles O18: `di[7:4]` as a number is `di / 16`, and what is stored is the port's value. -/
theorem c4RomPortWriteSetsOneLatch : Obligations.C4RomPortWriteSetsOneLatch := by
  intro di v s hs
  rw [exec, execC4Rompw, gated_of_none hs.refusal_eq_none, romPortChip_eq, ← portValue_eq]
  rfl

end Sys2Proof.Machine
end

section
/-! PROOFS. The merge and the bank select of HP: what its requests answer and which bank they leave selected, and the one
fetch of a tick (R90 to R97). -/

namespace Sys2Proof.Machine

/-! ### The merge over the selected chips (R90, R96) -/

/-- Bit by bit, the merge takes in the words of the selected chips. -/
theorem merge_selected_getLsbD {w : Nat} (s : State) (m : Memory w) (addr : BitVec 8) (j : Nat) :
    (merge s.cfg.hpNRom fun i => if s.selected i then m.read (hpCell i addr) else 0).getLsbD j = true ↔
      ∃ i, i < s.cfg.hpNRom ∧ s.romSel[i]? = some i ∧ (m.read (i * 256 + addr.toNat)).getLsbD j = true := by
  rw [merge_getLsbD]
  refine exists_congr fun i => and_congr_right fun _ => ?_
  rw [← selected_iff]
  cases s.selected i <;> simp [hpCell]

/-- With the banks in lockstep the merge is the word of the bank they hold. -/
theorem merge_selected_of_lockstep {w b : Nat} {s : State} (hb : b < s.cfg.hpNRom)
    (hl : s.romSel = List.replicate s.cfg.hpNRom b) (m : Memory w) (addr : BitVec 8) :
    (merge s.cfg.hpNRom fun i => if s.selected i then m.read (hpCell i addr) else 0) =
      m.read (b * 256 + addr.toNat) := by
  simp only [selected_of_lockstep hb hl, decide_eq_true_eq]
  rw [merge_single hb _ fun i hi => if_neg hi, if_pos rfl, hpCell]

theorem hpMergedOpcode_of_lockstep {b : Nat} {s : State} (hb : b < s.cfg.hpNRom)
    (hl : s.romSel = List.replicate s.cfg.hpNRom b) (addr : BitVec 8) :
    s.hpMergedOpcode addr = s.hpRom.read (b * 256 + addr.toNat) := merge_selected_of_lockstep hb hl s.hpRom addr

theorem hpMergedWs_of_lockstep {b : Nat} {s : State} (hb : b < s.cfg.hpNRom)
    (hl : s.romSel = List.replicate s.cfg.hpNRom b) (addr : BitVec 8) :
    s.hpMergedWs addr = s.hpWs.read (b * 256 + addr.toNat) := merge_selected_of_lockstep hb hl s.hpWs addr

/-! ### The requests of HP (R93 to R95) -/

/-- The bank selects after a fetch that merged to `w` (R57, R93, R94). -/
def State.romSelAfter (s : State) (w : BitVec 10) : List Nat :=
  if w.extractLsb' 0 7 = s.cfg.romselPattern then
    List.replicate s.cfg.hpNRom ((w.extractLsb' 7 3).toNat % s.cfg.hpNRom)
  else s.romSel

theorem isRomSelect_iff {s : State} (hf : s.cfg.family = .hp) (w : BitVec 10) :
    s.isRomSelect w = true ↔ w.extractLsb' 0 7 = s.cfg.romselPattern := by
  simp only [State.isRomSelect, Config.romselEn, hf, beq_self_eq_true, Bool.true_and]
  exact decide_eq_true_iff

/-- On HP the detection is enabled, and all it changes is the bank selects. -/
theorem romSelect_if_isRomSelect {s : State} (hf : s.cfg.family = .hp) (w : BitVec 10) :
    (if s.isRomSelect w then s.romSelect (slice w 7 3) else s) = { s with romSel := s.romSelAfter w } := by
  rw [State.romSelAfter]
  by_cases h : w.extractLsb' 0 7 = s.cfg.romselPattern
  · rw [if_pos ((isRomSelect_iff hf w).mpr h), if_pos h]
    rfl
  · rw [if_neg fun hSel => h ((isRomSelect_iff hf w).mp hSel), if_neg h]

section Hp

variable {s : State} (hs : s.Serving .hp)
include hs

theorem exec_hpFetch (addr : BitVec 8) :
    exec (.hpFetch addr) s =
      .next (spoken { s with romSel := s.romSelAfter (s.hpMergedOpcode addr) }
        ((s.hpMergedOpcode addr).setWidth 14)) := by
  rw [exec, execHpFetch, gated_of_none hs.refusal_eq_none]
  simp only [romSelect_if_isRomSelect hs.family]
  rfl

theorem exec_hpWsrd (addr : BitVec 8) : exec (.hpWsrd addr) s = .next (spoken s (s.hpMergedWs addr)) :=
  gated_of_none hs.refusal_eq_none

theorem exec_hpRomsel (b : BitVec 3) : exec (.hpRomsel b) s = .next (s.romSelect b) :=
  gated_of_none hs.refusal_eq_none

/-- A served HP board has a bank. -/
theorem hpNRom_pos : 0 < s.cfg.hpNRom := by
  obtain ⟨⟨_, _, _, _, _, _, _, _, _, hHp, _⟩, _⟩ := config_ok_iff.mp hs.config
  exact hHp

end Hp

/-- Settles O20: the word is the merged opcode, whatever the selection. -/
theorem hpFetchMergesEveryChip : Obligations.HpFetchMergesEveryChip := fun addr s hs =>
  ⟨s.hpMergedOpcode addr, exec_hpFetch hs addr, merge_selected_getLsbD s s.hpRom addr⟩

/-- Settles O21: in lockstep the merged opcode is the word of the selected bank. -/
theorem hpFetchAnswersAndSelects : Obligations.HpFetchAnswersAndSelects := by
  intro addr b s hs hb hl
  rw [exec_hpFetch hs, hpMergedOpcode_of_lockstep hb hl]
  rfl

/-- Settles O24: the word is the merged word-select data, in lockstep that of the selected bank. -/
theorem wordSelectReadAnswersTheSelectedBank : Obligations.WordSelectReadAnswersTheSelectedBank := by
  refine fun addr s hs => ⟨⟨s.hpMergedWs addr, exec_hpWsrd hs addr, merge_selected_getLsbD s s.hpWs addr⟩,
    fun b hb hl => ?_⟩
  rw [exec_hpWsrd hs, hpMergedWs_of_lockstep hb hl]

/-- Settles O23: the broadcast leaves the banks in lockstep, where one is selected. -/
theorem romSelectBroadcastsOneBank : Obligations.RomSelectBroadcastsOneBank := by
  refine fun b s hs => ⟨exec_hpRomsel hs b, fun i => ?_⟩
  have hb : b.toNat % s.cfg.hpNRom < s.cfg.hpNRom := Nat.mod_lt _ (hpNRom_pos hs)
  rw [← State.romSelect_romSel, ← selected_iff, selected_of_lockstep (s := s.romSelect b) hb rfl, decide_eq_true_iff]

/-! ### Phase 1 of an agent that meets its contract (R97, R121) -/

/-- A request that completes and is not fatal gives way to the rest of the step. -/
theorem servePlan_ask_eq {q : Req} {p : CpuPlan} {s u : State} (hu : serveRequest q s = .next u)
    (hh : u.halted = false) : servePlan (.ask q p) s = servePlan p u := by
  rw [servePlan, hu, andThen_of_next, hh, if_neg Bool.false_ne_true]

theorem serveRequest_eq_exec {q : Req} {i : Instr} (hq : decodeReq q = .ok i) (hi : i.isRequest = true) (s : State) :
    serveRequest q s = exec i (s.supply i) := by
  rw [← serve_eq_exec hi, serveRequest, hq]

theorem State.Serving.spoken {s : State} {f : Family} (h : s.Serving f) (v : DataWord) : (spoken s v).Serving f :=
  h.of_eq rfl rfl rfl

/-- Word-select reads complete and leave the selection alone; what they answer stands behind what was heard. -/
theorem servePlan_of_hpWsrds {p : CpuPlan} (hp : p.stepAsks fun i => ∃ a, i = .hpWsrd a) {s : State}
    (hs : s.Serving .hp) :
    ∃ t, servePlan p s = .next t ∧ t.halted = false ∧ t.romSel = s.romSel ∧ s.cpu.heard <+: t.cpu.heard := by
  induction p generalizing s with
  | idle | done => exact ⟨_, rfl, hs.usable, rfl, List.prefix_rfl⟩
  | ask q p ih =>
    obtain ⟨⟨_, hq, a, rfl⟩, hp⟩ := hp
    have hServe : serveRequest q s = .next (spoken s (s.hpMergedWs a)) :=
      (serveRequest_eq_exec hq rfl s).trans (exec_hpWsrd hs a)
    obtain ⟨t, ht, hHalted, hSel, hHeard⟩ := ih hp (hs.spoken (s.hpMergedWs a))
    exact ⟨t, (servePlan_ask_eq hServe hs.usable).trans ht, hHalted, hSel, (List.prefix_append _ _).trans hHeard⟩
  | whenHeard r yes no ihYes ihNo =>
    obtain ⟨hYes, hNo⟩ := hp
    rw [servePlan]
    split
    · exact ihYes hYes hs
    · exact ihNo hNo hs

/-- A step with one fetch, its first request: that fetch decides the selection, and its word is heard first. -/
theorem servePlan_of_oneFetchFirst {p : CpuPlan} (hp : p.oneFetchFirst) {s : State} (hs : s.Serving .hp) :
    ∃ addr t, servePlan p s = .next t ∧ t.halted = false ∧ t.romSel = s.romSelAfter (s.hpMergedOpcode addr) ∧
      s.cpu.heard ++ [(s.hpMergedOpcode addr).setWidth 14] <+: t.cpu.heard := by
  induction p with
  | idle | done => exact hp.elim
  | ask q p =>
    obtain ⟨⟨a, hq⟩, hp⟩ := hp
    have hServe := (serveRequest_eq_exec hq rfl s).trans (exec_hpFetch hs a)
    have hFetched : State.Serving { s with romSel := s.romSelAfter (s.hpMergedOpcode a) } .hp := hs.of_eq rfl rfl rfl
    obtain ⟨t, ht, hRest⟩ := servePlan_of_hpWsrds hp (hFetched.spoken ((s.hpMergedOpcode a).setWidth 14))
    exact ⟨a, t, (servePlan_ask_eq hServe hs.usable).trans ht, hRest⟩
  | whenHeard r yes no ihYes ihNo =>
    obtain ⟨hYes, hNo⟩ := hp
    rw [servePlan]
    split
    · exact ihYes hYes
    · exact ihNo hNo

/-! ### A completed tick (R122) -/

/-- What phases 2 and 3 do together: sample the lines and shift, on a board with a chain (R103, R104, R111). -/
def State.runChain (s : State) : State :=
  if s.cfg.nShift = 0 then s else State.shiftChain { s with lines := s.sampleLines }

@[simp] theorem State.runChain_halted (s : State) : s.runChain.halted = s.halted := by
  unfold State.runChain; split <;> rfl
@[simp] theorem State.runChain_romSel (s : State) : s.runChain.romSel = s.romSel := by
  unfold State.runChain; split <;> rfl
@[simp] theorem State.runChain_cpu (s : State) : s.runChain.cpu = s.cpu := by
  unfold State.runChain; split <;> rfl

theorem pccExtract_of_chain {s : State} (h : s.AtPhase .two) (hn : s.cfg.nShift ≠ 0) :
    execPccExtract s = .next { s with lines := s.sampleLines } := by
  rw [execPccExtract, gated_micro _ h.config h.usable h.phase, if_neg hn]

theorem pccExtract_of_noChain {s : State} (h : s.AtPhase .two) (hn : s.cfg.nShift = 0) :
    execPccExtract s = .next s := by
  rw [execPccExtract, gated_micro _ h.config h.usable h.phase, if_pos hn]

theorem pccShift_of_chain {s : State} (h : s.AtPhase .three) (hn : s.cfg.nShift ≠ 0) :
    execPccShift s = .next s.shiftChain := by
  rw [execPccShift, gated_micro _ h.config h.usable h.phase, if_neg hn]

theorem pccShift_of_noChain {s : State} (h : s.AtPhase .three) (hn : s.cfg.nShift = 0) :
    execPccShift s = .next s := by
  rw [execPccShift, gated_micro _ h.config h.usable h.phase, if_pos hn]

theorem sleUpdate_served {s : State} (h : s.AtPhase .four) : execSleUpdate s = .next s.updateLatches :=
  gated_micro _ h.config h.usable h.phase

/-- Once phase 1 has ended without a fatal abort the tick completes. -/
theorem phasesTwoToFour_eq {s : State} (hc : s.cfg.ok = true) (hh : s.halted = false) :
    phasesTwoToFour s = .next s.runChain.updateLatches.endTick := by
  by_cases hn : s.cfg.nShift = 0
  · rw [State.runChain, if_pos hn]
    exact andThen_next.mpr ⟨_, pccExtract_of_noChain ⟨hc, hh, rfl⟩ hn, andThen_next.mpr
      ⟨_, pccShift_of_noChain ⟨hc, hh, rfl⟩ hn, andThen_next.mpr ⟨_, sleUpdate_served ⟨hc, hh, rfl⟩, rfl⟩⟩⟩
  · rw [State.runChain, if_neg hn]
    exact andThen_next.mpr ⟨_, pccExtract_of_chain ⟨hc, hh, rfl⟩ hn, andThen_next.mpr
      ⟨_, pccShift_of_chain ⟨hc, hh, rfl⟩ hn, andThen_next.mpr ⟨_, sleUpdate_served ⟨hc, hh, rfl⟩, rfl⟩⟩⟩

theorem cpuStep_served {s : State} (h : s.AtPhase .one) : execCpuStep s = servePlan s.cpu.plan s.beginStep :=
  gated_micro _ h.config h.usable h.phase

/-- A tick whose phase 1 ends without a fatal abort goes on from there. -/
theorem tick_eq_of_cpuStep {s t : State} (h : s.Ready) (ht : execCpuStep (s.presentKey.enter .one) = .next t)
    (hh : t.halted = false) : exec .tick s = .next t.runChain.updateLatches.endTick := by
  have hcfg : t.cfg = s.cfg := (cpuStep_kept ht).cfg.trans (State.presentKey_cfg s)
  rw [exec, execTick, gated_command _ h.config h.usable h.phase, ht, andThen_of_next, hh, if_neg Bool.false_ne_true,
    phasesTwoToFour_eq (hcfg ▸ h.config) hh]

/-- Settles O37: the one fetch reads the bank the tick began with and decides the selection, the agent's other requests
are word-select reads, and phases 2 to 4 touch neither the selection nor what the agent heard. -/
theorem oneFetchATickDecidesTheBank : Obligations.OneFetchATickDecidesTheBank := by
  intro b s hs hf hConforms hb hl
  have hStart : (s.presentKey.enter .one).AtPhase .one :=
    ⟨by simpa using hs.config, by simpa using hs.usable, rfl⟩
  have hServing : State.Serving (s.presentKey.enter .one).beginStep .hp :=
    ⟨hStart.config, hStart.usable, by simpa using hf, rfl⟩
  obtain ⟨addr, t, ht, hHalted, hSel, hHeard⟩ := servePlan_of_oneFetchFirst (hConforms.fetch hf) hServing
  have hStep : execCpuStep (s.presentKey.enter .one) = .next t := by
    rw [cpuStep_served hStart, State.enter_cpu, State.presentKey_cpu, ht]
  have hWord : (s.presentKey.enter .one).beginStep.hpMergedOpcode addr = s.hpRom.read (b * 256 + addr.toNat) := by
    rw [hpMergedOpcode_of_lockstep (b := b) (by simpa using hb) (by simpa using hl)]
    simp
  rw [hWord] at hSel hHeard
  refine ⟨addr, _, tick_eq_of_cpuStep hs hStep hHalted, by simpa using hHalted, ?_, ?_⟩
  · obtain ⟨later, hLater⟩ := hHeard
    simp [← hLater]
  · simpa [State.romSelAfter] using hSel

end Sys2Proof.Machine
end

section
/-! PROOFS. The peripheral chain: sampling the control lines, shifting, and the printer pair as one register
(R103 to R111). -/

namespace Sys2Proof.Machine

/-! ### The control lines (R59, R103) -/

theorem level_eq_lineLevel (p : Ports) (l : LineDesc) : level p l = lineLevel p l := by
  obtain ⟨_ | _, _, _, _⟩ := l <;> rfl

theorem enableLevel_eq_enableLineLevel (p : Ports) (l : Option LineDesc) : enableLevel p l = enableLineLevel p l := by
  cases l with
  | none => rfl
  | some l => exact level_eq_lineLevel p l

/-- Settles O25: by whether the board has a chain. -/
theorem extractSamplesTheControlLines : Obligations.ExtractSamplesTheControlLines := by
  refine fun s hs => ⟨pccExtract_of_noChain hs, fun hn => ?_⟩
  rw [exec, pccExtract_of_chain hs hn, State.sampleLines]
  simp only [level_eq_lineLevel, enableLevel_eq_enableLineLevel]

/-! ### One shift (R101, R104) -/

/-- Shifting up and setting bit 0 doubles and adds: no carry is lost in the OR. -/
theorem shiftLeft_one_or_bit (v : Nat) (b : Bool) : (v <<< 1) ||| b.toNat = 2 * v + b.toNat := by
  rw [← Nat.shiftLeft_add_eq_or_of_lt b.toNat_lt, Nat.shiftLeft_eq]
  omega

theorem shifted_eq (n : Nat) (edge din : Bool) (v : Nat) :
    shifted n edge din v = if edge = true then (2 * v + din.toNat) % 2 ^ n else v := by
  rw [shifted, trunc, shiftLeft_one_or_bit]

/-- Settles O26: by whether the board has a chain; each register is one `shifted`. -/
theorem shiftMovesBothStreams : Obligations.ShiftMovesBothStreams := by
  refine fun s hs => ⟨pccShift_of_noChain hs, fun hn => ?_⟩
  rw [exec, pccShift_of_chain hs hn, State.shiftChain]
  simp only [shifted_eq]
  rfl

/-! ### `RDPAR` (R106) -/

/-- Settles O29: the answer is `State.par`. -/
theorem rdparReadsThePrinterValue : Obligations.RdparReadsThePrinterValue := fun _ hs =>
  gated_command _ hs.config hs.usable hs.phase

/-! ### The printer pair as one register (R105) -/

/-- The chained pair holds the low 2N bits of `v`: A the low half, B the high half. -/
structure State.PrinterHolds (s : State) (v : Nat) : Prop where
  low : s.srA = v % 2 ^ s.cfg.shiftW
  high : s.srB = v / 2 ^ s.cfg.shiftW % 2 ^ s.cfg.shiftW

theorem pair_eq_add {n a : Nat} (ha : a < 2 ^ n) (b : Nat) : a ||| (b <<< n) = a + 2 ^ n * b := by
  rw [Nat.or_comm, ← Nat.shiftLeft_add_eq_or_of_lt ha, Nat.shiftLeft_eq, Nat.mul_comm, Nat.add_comm]

theorem State.PrinterHolds.pair_eq {s : State} {v : Nat} (h : s.PrinterHolds v) :
    s.srA ||| (s.srB <<< s.cfg.shiftW) = v % 2 ^ (2 * s.cfg.shiftW) := by
  rw [h.low, h.high, pair_eq_add (Nat.mod_lt _ (Nat.two_pow_pos _)), Nat.two_mul, Nat.pow_add, Nat.mod_mul]

/-- Registers of the chain's width hold their pair. -/
theorem printerHolds_pair {s : State} (ha : s.srA < 2 ^ s.cfg.shiftW) (hb : s.srB < 2 ^ s.cfg.shiftW) :
    s.PrinterHolds (s.srA ||| (s.srB <<< s.cfg.shiftW)) := by
  rw [pair_eq_add ha]
  constructor
  · rw [Nat.add_mul_mod_self_left, Nat.mod_eq_of_lt ha]
  · rw [Nat.add_mul_div_left _ _ (Nat.two_pow_pos _), Nat.div_eq_of_lt ha, Nat.zero_add, Nat.mod_eq_of_lt hb]

theorem printerHolds_zero {s : State} (ha : s.srA = 0) (hb : s.srB = 0) : s.PrinterHolds 0 :=
  ⟨by rw [ha, Nat.zero_mod], by rw [hb, Nat.zero_div, Nat.zero_mod]⟩

/-- The low half of the doubled value takes the new bit. -/
theorem low_half_shifted (n v : Nat) (d : Bool) :
    (2 * (v % 2 ^ n) + d.toNat) % 2 ^ n = (2 * v + d.toNat) % 2 ^ n :=
  (((Nat.mod_modEq v _).mul_left 2).add_right _)

/-- The high half of the doubled value takes the top bit of the low half (R108). -/
theorem high_half_shifted {n : Nat} (hn : 0 < n) (v : Nat) (d : Bool) :
    (2 * (v / 2 ^ n % 2 ^ n) + (shiftOut n (v % 2 ^ n)).toNat) % 2 ^ n = (2 * v + d.toNat) / 2 ^ n % 2 ^ n := by
  obtain ⟨m, rfl⟩ := Nat.exists_eq_add_one.mpr hn
  have hTop : (shiftOut (m + 1) (v % 2 ^ (m + 1))).toNat = v / 2 ^ m % 2 := by
    rw [shiftOut, Nat.add_sub_cancel, Nat.testBit_mod_two_pow, decide_eq_true m.lt_succ_self, Bool.true_and,
      Nat.toNat_testBit]
  have hHigh : v / 2 ^ (m + 1) = v / 2 ^ m / 2 := by rw [Nat.pow_succ, Nat.div_div_eq_div_mul]
  have hDoubled : (2 * v + d.toNat) / 2 ^ (m + 1) = v / 2 ^ m := by
    have := d.toNat_lt
    rw [Nat.pow_succ', ← Nat.div_div_eq_div_mul]
    congr 1
    omega
  calc (2 * (v / 2 ^ (m + 1) % 2 ^ (m + 1)) + (shiftOut (m + 1) (v % 2 ^ (m + 1))).toNat) % 2 ^ (m + 1)
      = (2 * (v / 2 ^ (m + 1)) + v / 2 ^ m % 2) % 2 ^ (m + 1) := by
        rw [hTop]
        exact ((Nat.mod_modEq _ _).mul_left 2).add_right _
    _ = (2 * v + d.toNat) / 2 ^ (m + 1) % 2 ^ (m + 1) := by rw [hHigh, Nat.div_add_mod, hDoubled]

/-- A rising enabled clock doubles what the pair holds and adds the data level. -/
theorem State.PrinterHolds.shiftChain {s : State} {v : Nat} (h : s.PrinterHolds v) (hn : 0 < s.cfg.shiftW)
    (hEdge : clockEdge s.lines.pclk s.clkPrevP s.lines.pen = true) :
    s.shiftChain.PrinterHolds (2 * v + s.lines.pdat.toNat) := by
  constructor
  · rw [State.shiftChain_srA, State.shiftChain_cfg, hEdge, shifted_eq, if_pos rfl, h.low, low_half_shifted]
  · rw [State.shiftChain_srB, State.shiftChain_cfg, hEdge, shifted_eq, if_pos rfl, h.low, h.high,
      high_half_shifted hn v s.lines.pdat]

/-- Without a rising enabled clock the pair keeps what it holds. -/
theorem shiftChain_pair_of_noEdge {s : State} (hEdge : clockEdge s.lines.pclk s.clkPrevP s.lines.pen = false) :
    s.shiftChain.srA = s.srA ∧ s.shiftChain.srB = s.srB := by
  rw [State.shiftChain_srA, State.shiftChain_srB, hEdge]
  exact ⟨rfl, rfl⟩

/-- A served configuration has registers of at least one bit. -/
theorem shiftW_pos {c : Config} (h : c.ok = true) : 0 < c.shiftW := by
  obtain ⟨⟨_, _, _, _, _, _, _, _, _, _, _, hWidth, _⟩, _⟩ := config_ok_iff.mp h
  exact hWidth

/-! ### A run of bits (R105, R110) -/

theorem bitsValue_concat (bs : List Bool) (b : Bool) : bitsValue (bs ++ [b]) = 2 * bitsValue bs + b.toNat := by
  rw [bitsValue, List.foldl_append]
  rfl

theorem bitsValue_append (xs ys : List Bool) :
    bitsValue (xs ++ ys) = bitsValue ys + 2 ^ ys.length * bitsValue xs := by
  induction ys using List.reverseRecOn with
  | nil => simp [bitsValue]
  | append_singleton ys b ih =>
    rw [← List.append_assoc, bitsValue_concat, bitsValue_concat, ih, List.length_append, List.length_singleton,
      Nat.pow_succ]
    ring

theorem bitsValue_lt (bs : List Bool) : bitsValue bs < 2 ^ bs.length := by
  induction bs using List.reverseRecOn with
  | nil => exact Nat.one_pos
  | append_singleton bs b ih =>
    have := b.toNat_lt
    rw [bitsValue_concat, List.length_append, List.length_singleton, Nat.pow_succ]
    omega

/-- The state in which phase 3 clocks the bit `b` into the printer stream. -/
def State.presentBit (s : State) (b : Bool) : State :=
  { s with phase := .three, clkPrevP := false, lines := ⟨false, false, true, true, b, true⟩ }

theorem clockPrinterBit_eq {s : State} (b : Bool) (hc : s.cfg.ok = true) (hh : s.halted = false)
    (hn : s.cfg.nShift ≠ 0) : clockPrinterBit b s = .next (s.presentBit b).shiftChain :=
  pccShift_of_chain (s := s.presentBit b) ⟨hc, hh, rfl⟩ hn

theorem State.PrinterHolds.clockBit {s : State} {v : Nat} (h : s.PrinterHolds v) (hn : 0 < s.cfg.shiftW) (b : Bool) :
    (s.presentBit b).shiftChain.PrinterHolds (2 * v + b.toNat) :=
  State.PrinterHolds.shiftChain (s := s.presentBit b) ⟨h.low, h.high⟩ hn rfl

/-- Every clocked bit doubles what the pair holds and adds itself; the configuration stays and the board runs on. -/
theorem clockPrinterBits_holds (bits : List Bool) {s : State} {v : Nat} (hc : s.cfg.ok = true) (hh : s.halted = false)
    (hn : s.cfg.nShift ≠ 0) (hv : s.PrinterHolds v) :
    ∃ t, clockPrinterBits bits s = .next t ∧ t.cfg = s.cfg ∧ t.halted = false ∧
      t.PrinterHolds (bits.foldl (fun acc b => 2 * acc + b.toNat) v) := by
  induction bits generalizing s v with
  | nil => exact ⟨s, rfl, rfl, hh, hv⟩
  | cons b bits ih =>
    obtain ⟨t, ht, hRest⟩ := ih (s := (s.presentBit b).shiftChain) hc hh hn (hv.clockBit (shiftW_pos hc) b)
    exact ⟨t, andThen_next.mpr ⟨_, clockPrinterBit_eq b hc hh hn, ht⟩, hRest⟩

/-- From the all-zero pair, what it holds is the number the bits write. -/
theorem clockPrinterBits_from_zero (bits : List Bool) {s : State} (hc : s.cfg.ok = true) (hh : s.halted = false)
    (hn : s.cfg.nShift = 3) (ha : s.srA = 0) (hb : s.srB = 0) :
    ∃ t, clockPrinterBits bits s = .next t ∧ t.cfg = s.cfg ∧ t.halted = false ∧ t.PrinterHolds (bitsValue bits) :=
  clockPrinterBits_holds bits hc hh (by omega) (printerHolds_zero ha hb)

/-- Settles O27: the edge doubles what the pair holds, and no more than 2N bits overflow it. -/
theorem printerPairIsOneRegister : Obligations.PrinterPairIsOneRegister := by
  refine ⟨fun s hs hn ha hb => ⟨s.shiftChain, pccShift_of_chain hs (by omega), ?_⟩, fun bits s hc hh hn ha hb hLen => ?_⟩
  · split
    case isTrue hEdge =>
      have hShifted := (printerHolds_pair ha hb).shiftChain (shiftW_pos hs.config) hEdge
      rw [shiftLeft_one_or_bit]
      exact hShifted.pair_eq
    case isFalse hEdge =>
      obtain ⟨hA, hB⟩ := shiftChain_pair_of_noEdge (Bool.eq_false_iff.mpr hEdge)
      rw [hA, hB]
  · obtain ⟨t, ht, hcfg, -, hHolds⟩ := clockPrinterBits_from_zero bits hc hh hn ha hb
    have hFits : bitsValue bits < 2 ^ (2 * s.cfg.shiftW) :=
      (bitsValue_lt bits).trans_le (Nat.pow_le_pow_right Nat.two_pos hLen)
    exact ⟨t, ht, by rw [← hcfg, hHolds.pair_eq, hcfg, Nat.mod_eq_of_lt hFits]⟩

/-- Settles O28: the number the two runs write has the first in its high half and the second in its low half. -/
theorem cascadeReadsBackThePattern : Obligations.CascadeReadsBackThePattern := by
  intro bBits aBits s hc hh hn ha hb hLenA hLenB
  obtain ⟨t, ht, hcfg, hHalted, hHolds⟩ := clockPrinterBits_from_zero (bBits ++ aBits) hc hh hn ha hb
  have hFitsA : bitsValue aBits < 2 ^ s.cfg.shiftW := hLenA ▸ bitsValue_lt aBits
  have hFitsB : bitsValue bBits < 2 ^ s.cfg.shiftW :=
    (bitsValue_lt bBits).trans_le (Nat.pow_le_pow_right Nat.two_pos hLenB)
  rw [bitsValue_append, hLenA] at hHolds
  have hA : t.srA = bitsValue aBits := by
    rw [hHolds.low, hcfg, Nat.add_mul_mod_self_left, Nat.mod_eq_of_lt hFitsA]
  have hB : t.srB = bitsValue bBits := by
    rw [hHolds.high, hcfg, Nat.add_mul_div_left _ _ (Nat.two_pow_pos _), Nat.div_eq_of_lt hFitsA, Nat.zero_add,
      Nat.mod_eq_of_lt hFitsB]
  have hReady : State.Ready { t with phase := .between } := ⟨hcfg ▸ hc, hHalted, rfl⟩
  refine ⟨t, _, ht, hA, hB, rdparReadsThePrinterValue _ hReady, ?_⟩
  simp [hcfg, hn, hA, hB]

end Sys2Proof.Machine
end

section
/-! PROOFS. The signal latch extractor: one update of every latch, and a run of updates over successive ticks
(R115 to R117). -/

namespace Sys2Proof.Machine

/-! ### One update (R116) -/

theorem sigLevel_eq_signalLevel (s : State) (g : SigDesc) : sigLevel s g = signalLevel s.portOut s.c4Ram g := by
  obtain ⟨_ | _, _, _ | ⟨_ | _, _⟩, _⟩ := g <;> rfl

theorem sigLevels_eq_map_signalLevel (s : State) :
    sigLevels s = s.cfg.sigs.map (signalLevel s.portOut s.c4Ram) :=
  List.map_congr_left fun g _ => sigLevel_eq_signalLevel s g

theorem sigLevels_getElem? {s : State} {n : Nat} {g : SigDesc} (hg : s.cfg.sigs[n]? = some g) :
    (sigLevels s)[n]? = some (signalLevel s.portOut s.c4Ram g) := by
  rw [sigLevels_eq_map_signalLevel, List.getElem?_map, hg, Option.map_some]

/-- A signal's pulse depends on its own level and its own old latch only. -/
theorem pulsesOf_getElem? {levels : List Bool} {n : Nat} {lvl : Bool} (h : levels[n]? = some lvl)
    (latch : List Bool) : (pulsesOf levels latch)[n]? = some (lvl && !latch.getD n false) := by
  rw [pulsesOf, List.getElem?_mapIdx, h, Option.map_some, rising]

theorem sigLevels_length (s : State) : (sigLevels s).length = s.cfg.sigs.length := List.length_map _

theorem pulsesOf_length (levels latch : List Bool) : (pulsesOf levels latch).length = levels.length :=
  List.length_mapIdx

/-- Settles O30: the update is served, and each entry of its two lists is read off at the signal's own index. -/
theorem latchUpdateFollowsTheFourTransitions : Obligations.LatchUpdateFollowsTheFourTransitions := by
  refine fun s hs _ => ⟨sigLevels s, pulsesOf (sigLevels s) s.latch, sleUpdate_served hs, sigLevels_length s,
    (pulsesOf_length _ _).trans (sigLevels_length s), fun n g prev hg hPrev => ⟨sigLevels_getElem? hg, ?_⟩⟩
  have hOld : s.latch.getD n false = prev := by rw [List.getD_eq_getElem?_getD, hPrev, Option.getD_some]
  exact hOld ▸ pulsesOf_getElem? (sigLevels_getElem? hg) s.latch

/-! ### A run of updates (R117) -/

theorem updateLatches_latch_getD {s : State} {n : Nat} {g : SigDesc} (hg : s.cfg.sigs[n]? = some g) :
    s.updateLatches.latch.getD n false = signalLevel s.portOut s.c4Ram g := by
  rw [State.updateLatches_latch, List.getD_eq_getElem?_getD, sigLevels_getElem? hg, Option.getD_some]

theorem updateLatches_pulse_getD {s : State} {n : Nat} {g : SigDesc} (hg : s.cfg.sigs[n]? = some g) :
    s.updateLatches.pulse.getD n false = (signalLevel s.portOut s.c4Ram g && !s.latch.getD n false) := by
  rw [State.updateLatches_pulse, List.getD_eq_getElem?_getD, pulsesOf_getElem? (sigLevels_getElem? hg),
    Option.getD_some]

/-- The state in which phase 4 begins when the CPU step has left the ports `p` and the RAM cells `m`. -/
def State.leaving (s : State) (p : Ports) (m : Memory 4) : State := { s with phase := .four, portOut := p, c4Ram := m }

/-- On a running board no update of a run is refused. -/
theorem latchRun_cons {s : State} (hc : s.cfg.ok = true) (hh : s.halted = false) (p : Ports) (m : Memory 4)
    (rest : List (Ports × Memory 4)) :
    latchRun ((p, m) :: rest) s = (s.leaving p m).updateLatches :: latchRun rest (s.leaving p m).updateLatches := by
  have hServed : exec .sleUpdate (s.leaving p m) = .next (s.leaving p m).updateLatches :=
    sleUpdate_served ⟨hc, hh, rfl⟩
  rw [State.leaving] at hServed
  rw [latchRun, hServed, State.leaving]

/-- Settles O31, by induction on the ticks: the latch each tick leaves is the level the next one compares with. -/
theorem onePulsePerRisingLevel : Obligations.OnePulsePerRisingLevel := by
  intro left s n g hc hh hg _
  induction left generalizing s with
  | nil => rfl
  | cons q rest ih =>
    obtain ⟨p, m⟩ := q
    have hLatch : (s.leaving p m).updateLatches.latch.getD n false = signalLevel p m g :=
      updateLatches_latch_getD (s := s.leaving p m) hg
    have hPulse : (s.leaving p m).updateLatches.pulse.getD n false = (signalLevel p m g && !s.latch.getD n false) :=
      updateLatches_pulse_getD (s := s.leaving p m) hg
    rw [latchRun_cons hc hh, List.map_cons, hPulse, ih (s.leaving p m).updateLatches hc hh hg (sigLevels_length _),
      hLatch, List.map_cons, List.zipWith_cons_cons]

end Sys2Proof.Machine
end

section
/-! PROOFS. The step and the host commands, phase 1 as requests served in order, and the tick as its phases
(R121 to R133). -/

namespace Sys2Proof.Machine

/-! ### One step, and the commands between ticks (R129, R131, R132) -/

theorem fetch_rejected {s : State} {e : Encoded} {rest : List Encoded} {r : DecodeError} (h : s.inbox = e :: rest)
    (hd : decode s.cfg.romselPattern e = .error r) : s.fetch = .rejected r := by simp [State.fetch, h, hd]

/-- Settles O52: the next word is fetched, and CM and DI are what its instruction supplies. -/
theorem stepRunsTheDecodedInstruction : Obligations.StepRunsTheDecodedInstruction := by
  refine ⟨fun s e rest i hIn hDecode => ?_, fun s e rest r hIn hDecode => ?_, fun s hIn => ?_⟩
  · rw [step, fetch_cons hIn hDecode]
    cases i <;> rfl
  · rw [step, fetch_rejected hIn hDecode]
  · rw [step, fetch_nil hIn]

/-- Settles O39: between ticks the command is served. -/
theorem injectSetsTheKey : Obligations.InjectSetsTheKey := fun _ _ hs =>
  gated_command _ hs.config hs.usable hs.phase

/-- Settles O41: the gate of `SNAP` does not look at `halted`. -/
theorem snapCopiesTheBoard : Obligations.SnapCopiesTheBoard := fun _ hc hp =>
  gated_commandWhileHalted _ hc hp

/-! ### Phase 1 serves the requests in order (R123) -/

/-- A request of the board's family is served by `exec` and completes; unless it was fatal, phase 1 goes on. -/
theorem serveRequest_completes {q : Req} {i : Instr} {s : State} (hs : s.AtPhase .one) (hq : decodeReq q = .ok i)
    (hi : i.isRequest = true) (hf : i.familyOk s.cfg = true) :
    ∃ u, serveRequest q s = .next u ∧ exec i (s.supply i) = .next u ∧ u.cfg = s.cfg ∧
      (u.halted = false → u.AtPhase .one) := by
  obtain ⟨u, hu⟩ := serve_completes (s := s.supply i) hs.config hs.usable hs.phase hi hf
  have hExec : exec i (s.supply i) = .next u := serve_eq_exec hi ▸ hu
  have hServe : serveRequest q s = .next u := (serveRequest_eq_exec hq hi s).trans hExec
  have hKept := serveRequest_kept hServe
  refine ⟨u, hServe, hExec, hKept.cfg, fun hh => ⟨hKept.cfg ▸ hs.config, hh, ?_⟩⟩
  obtain ⟨-, hPhase, -⟩ := hKept.unlessFatal hh
  exact hPhase.trans hs.phase

theorem servePlan_of_wellFormed {p : CpuPlan} {s : State} (hs : s.AtPhase .one) (hp : p.wellFormed s.cfg) :
    servePlan p s = servedInOrder p s ∧ ∃ t, servePlan p s = .next t := by
  induction p generalizing s with
  | idle | done => exact ⟨rfl, _, rfl⟩
  | ask q p ih =>
    obtain ⟨⟨i, hq, hi, hf⟩, hp⟩ := hp
    obtain ⟨u, hServe, hExec, hcfg, hNext⟩ := serveRequest_completes hs hq hi hf
    simp only [servePlan, servedInOrder, hq, hServe, hExec, andThen_of_next]
    by_cases hh : u.halted = true
    · simp only [if_pos hh]
      exact ⟨rfl, _, rfl⟩
    · simp only [if_neg hh]
      exact ih (hNext (Bool.eq_false_iff.mpr hh)) (hcfg ▸ hp)
  | whenHeard r yes no ihYes ihNo =>
    obtain ⟨hYes, hNo⟩ := hp
    simp only [servePlan, servedInOrder, State.lastHeard, beq_iff_eq]
    split
    · exact ihYes hs hYes
    · exact ihNo hs hNo

/-- Settles O32: phase 1 is the plan served in order, from the agent that has heard nothing yet. -/
theorem cpuStepServesTheRequestsInOrder : Obligations.CpuStepServesTheRequestsInOrder := by
  intro s hs hp
  have hBegin : s.beginStep.AtPhase .one := ⟨hs.config, hs.usable, hs.phase⟩
  rw [exec, cpuStep_served hs]
  exact servePlan_of_wellFormed hBegin hp

/-! ### What the agent hears decides its plan (R121) -/

theorem answer_heard {s u : State} (h : u.cpu = s.cpu) (r : DataWord) :
    (u.answer r).cpu.heard = s.cpu.heard ++ [r] := by rw [State.answer_cpu, h]

/-- A served request was fatal, or its one answer stands behind what the agent had heard. -/
theorem serve_heard {i : Instr} {s t : State} (h : serve i s = .next t) :
    t.halted = true ∨ ∃ r, t.cpu.heard = s.cpu.heard ++ [r] := by
  cases i with
  | arcRd | arcWr =>
    obtain ⟨-, h⟩ := gated_next h
    split at h <;> cases h
    · exact .inl rfl
    · exact .inr ⟨_, answer_heard rfl _⟩
    · exact .inr ⟨_, answer_heard rfl _⟩
  | c4Ramrd _ cm di | c4Ramwr _ cm di | c4Rampw cm di =>
    have hLookup : (s.bankLookup cm).cpu = s.cpu := State.bankLookup_cpu s cm
    obtain ⟨-, h⟩ := gated_next h
    obtain ⟨_, e⟩ | ⟨_, -, e⟩ := ramIndex_cases s cm di _ <;> rw [e] at h <;> cases h
    · exact .inr ⟨_, answer_heard hLookup _⟩
    · exact .inr ⟨_, answer_heard hLookup _⟩
  | hpFetch =>
    obtain ⟨-, h⟩ := gated_next h
    cases h
    exact .inr ⟨_, answer_heard (by split <;> rfl) _⟩
  | c4Romrd | c4Rompr | c4Rompw | hpWsrd =>
    obtain ⟨-, h⟩ := gated_next h
    cases h
    exact .inr ⟨_, answer_heard rfl _⟩
  | _ => cases h

theorem supply_heard (a : CpuAgent) (i : Instr) : (a.supply i).heard = a.heard := by cases i <;> rfl

/-- The plan after phase 1 is the one the responses heard in it lead to. -/
theorem servePlan_planAfter {p : CpuPlan} {s t : State} (h : servePlan p s = .next t) (hh : t.halted = false) :
    ∃ rs, t.cpu.heard = s.cpu.heard ++ rs ∧ planAfter p s.cpu.heard.getLast? rs = some t.cpu.plan := by
  induction p generalizing s with
  | idle | done => cases h; exact ⟨[], (List.append_nil _).symm, rfl⟩
  | ask q p ih =>
    obtain ⟨u, hu, ⟨hFatal, rfl⟩ | ⟨hGoes, hRest⟩⟩ := servePlan_ask h
    · exact absurd hFatal (Bool.eq_false_iff.mp hh)
    · obtain ⟨i, -, hServe⟩ := serveRequest_next hu
      obtain hFatal | ⟨r, hr⟩ := serve_heard hServe
      · exact absurd hFatal (Bool.eq_false_iff.mp hGoes)
      · obtain ⟨rs, hHeard, hPlan⟩ := ih hRest
        rw [State.supply_cpu, supply_heard] at hr
        refine ⟨r :: rs, by rw [hHeard, hr, List.append_assoc, List.singleton_append], ?_⟩
        rwa [hr, List.getLast?_concat] at hPlan
  | whenHeard r yes no ihYes ihNo =>
    simp only [servePlan, State.lastHeard, beq_iff_eq] at h
    simp only [planAfter]
    split at h <;> rename_i hLast
    · simpa only [if_pos hLast] using ihYes h
    · simpa only [if_neg hLast] using ihNo h

/-- Settles O33: a step begins with no response heard. -/
theorem agentDependsOnItsResponsesOnly : Obligations.AgentDependsOnItsResponsesOnly := by
  intro s t h hh
  obtain ⟨-, h⟩ := gated_next h
  obtain ⟨rs, hHeard, hPlan⟩ := servePlan_planAfter h hh
  rw [hHeard]
  exact hPlan

/-! ### The tick and its phases (R122, R125) -/

/-- The port value of the key is the one the statements compute (R129). -/
theorem keyPortValue_eq_presentedValue (s : State) : s.keyPortValue = presentedValue s := by
  rw [State.keyPortValue, presentedValue]
  cases s.cfg.keyFn with
  | wired n => rfl
  | rawPortMask =>
    cases s.keyIn with
    | none => exact (Nat.zero_mod _).symm
    | some v => rfl

/-- Phase 1 begins with the key presented. -/
theorem phaseOneStart_eq (s : State) : phaseOneStart s = s.presentKey.enter .one := by
  rw [phaseOneStart, State.presentKey, keyPortValue_eq_presentedValue]
  cases hk : s.cfg.keyPort with
  | none => rfl
  | some p => obtain ⟨_ | _, _⟩ := p <;> rfl

theorem State.Ready.phaseOne {s : State} (h : s.Ready) : (s.presentKey.enter .one).AtPhase .one :=
  ⟨by simpa using h.config, by simpa using h.usable, rfl⟩

/-- The state in which the agent's requests in a tick begin to be served. -/
def State.tickStart (s : State) : State := (s.presentKey.enter .one).beginStep

theorem cpuStep_of_tick {s : State} (h : s.Ready) :
    execCpuStep (s.presentKey.enter .one) = servePlan s.cpu.plan s.tickStart := by
  rw [cpuStep_served h.phaseOne, State.enter_cpu, State.presentKey_cpu, State.tickStart]

theorem State.Ready.serving {s : State} {f : Family} (h : s.Ready) (hf : s.cfg.family = f) : s.tickStart.Serving f :=
  ⟨h.phaseOne.config, h.phaseOne.usable, by simpa [State.tickStart] using hf, rfl⟩

/-- A tick whose requests complete without a fatal one goes on from there. -/
theorem tick_eq_of_servePlan {s u : State} (h : s.Ready) (hu : servePlan s.cpu.plan s.tickStart = .next u)
    (hh : u.halted = false) : exec .tick s = .next u.runChain.updateLatches.endTick :=
  tick_eq_of_cpuStep h ((cpuStep_of_tick h).trans hu) hh

/-- A tick whose phase 1 ends in the fatal abort ends there. -/
theorem tick_eq_of_fatal_cpuStep {s t : State} (h : s.Ready) (ht : execCpuStep (s.presentKey.enter .one) = .next t)
    (hh : t.halted = true) : exec .tick s = .next t := by
  rw [exec, execTick, gated_command _ h.config h.usable h.phase, ht, andThen_of_next, if_pos hh]

/-- Settles O34: phase 1 completes, the requests being well formed, and what it leaves decides how the tick ends. -/
theorem tickRunsThePhasesInOrder : Obligations.TickRunsThePhasesInOrder := by
  intro s hc hp hPlan
  refine ⟨fun hh => exec_of_refusal (refusal_halted hc hh Context.noConfusion), fun hh => ?_⟩
  have hs : s.Ready := ⟨hc, hh, hp⟩
  obtain ⟨-, t1, h1⟩ := cpuStepServesTheRequestsInOrder _ hs.phaseOne (by simpa using hPlan)
  rw [phaseOneStart_eq]
  refine ⟨t1, h1, tick_eq_of_fatal_cpuStep hs h1, fun hh1 => ?_⟩
  have hTick := tick_eq_of_cpuStep hs h1 hh1
  obtain ⟨u, hu, ⟨hFatal, -⟩ | ⟨-, t2, t3, t4, h2, h3, h4, hEnd⟩⟩ := tick_cases hTick <;> cases h1.symm.trans hu
  · exact absurd hFatal (Bool.eq_false_iff.mp hh1)
  · exact ⟨t2, t3, t4, h2, h3, h4, hTick.trans (congrArg Host.Outcome.next hEnd)⟩

/-! ### A fatal request ends the tick (R125, R148) -/

/-- An ARC access that FlatDecode gives a target (R71). -/
def ArcBelowFatal (j : Instr) : Prop :=
  (∃ a, j = .arcRd a ∧ a.toNat < 0x4000) ∨ ∃ a v, j = .arcWr a v ∧ a.toNat < 0x4000

/-- An ARC access that FlatDecode gives no target, and what F1 records of it (R71, R140). -/
def ArcFatal (i : Instr) (info : FatalInfo) : Prop :=
  (∃ a, i = .arcRd a ∧ 0x4000 ≤ a.toNat ∧ info = .read a) ∨
    ∃ a v, i = .arcWr a v ∧ 0x4000 ≤ a.toNat ∧ info = .write a v

/-- An ARC access below 0x4000 is served alike whatever the agent means to do next. -/
theorem serve_arc_below {j : Instr} {s : State} (hs : s.Serving .arc) (hj : ArcBelowFatal j) :
    ∃ u : State, u.Serving .arc ∧ ∀ p, serve j ((s.withPlan p).supply j) = .next (u.withPlan p) := by
  have hPlan (p : CpuPlan) : (s.withPlan p).Serving .arc := hs.of_eq rfl rfl rfl
  obtain ⟨a, rfl, ha⟩ | ⟨a, v, rfl, ha⟩ := hj <;> by_cases h : a.toNat < 0x2000
  · exact ⟨s.answer ((s.arcRom.read a.toNat).setWidth 14), hs.of_eq rfl rfl rfl,
      fun p => exec_arcRd_rom (hPlan p) h⟩
  · exact ⟨s.answer ((s.arcRam.read (a.toNat - 0x2000)).setWidth 14), hs.of_eq rfl rfl rfl,
      fun p => exec_arcRd_ram (hPlan p) (Nat.not_lt.mp h) ha⟩
  · exact ⟨(s.addDiag (.romWrite a v)).answer 0, hs.of_eq rfl rfl rfl, fun p => exec_arcWr_rom (hPlan p) h⟩
  · exact ⟨({ s with arcRam := s.arcRam.write (a.toNat - 0x2000) v } : State).answer 0, hs.of_eq rfl rfl rfl,
      fun p => exec_arcWr_ram (hPlan p) (Nat.not_lt.mp h) ha⟩

/-- An ARC access at 0x4000 or above aborts the step. -/
theorem serve_arc_fatal {i : Instr} {info : FatalInfo} {s : State} (hs : s.Serving .arc) (hi : ArcFatal i info) :
    serve i (s.supply i) = .next (s.takeFatal info) := by
  obtain ⟨a, rfl, ha, rfl⟩ | ⟨a, v, rfl, ha, rfl⟩ := hi
  · exact exec_arcRd_fatal hs ha
  · exact exec_arcWr_fatal hs v ha

theorem serveRequest_eq_serve {q : Req} {i : Instr} (hq : decodeReq q = .ok i) (s : State) :
    serveRequest q s = serve i (s.supply i) := by rw [serveRequest, hq]

/-- Phase 1 up to a fatal request, by induction on the requests before it: the state at which it aborts is the same
whatever plan the agent has, but for the rest of that plan. -/
theorem servePlan_askAll_fatal {before : List Instr} {q : Req} {i : Instr} {info : FatalInfo} {qs : List Req}
    (hBefore : ∀ j ∈ before, ArcBelowFatal j) (hi : ArcFatal i info)
    (hqs : qs.map decodeReq = before.map Except.ok) (hq : decodeReq q = .ok i) {s : State} (hs : s.Serving .arc) :
    ∃ u : State, ∀ now later, servePlan (askAll qs (.ask q later)) (s.withPlan now) =
      .next ((u.takeFatal info).withPlan later) := by
  induction qs generalizing before s with
  | nil =>
    refine ⟨s, fun now later => ?_⟩
    have hServing : (s.withPlan now).Serving .arc := hs.of_eq rfl rfl rfl
    rw [askAll, List.foldr_nil, servePlan, serveRequest_eq_serve hq, serve_arc_fatal hServing hi]
    rfl
  | cons q' qs ih =>
    cases before with
    | nil => cases hqs
    | cons j before =>
      obtain ⟨hq', hqs⟩ := List.cons.inj hqs
      obtain ⟨hj, hBefore⟩ := List.forall_mem_cons.mp hBefore
      obtain ⟨v, hv, hServe⟩ := serve_arc_below hs hj
      obtain ⟨u, hu⟩ := ih hBefore hqs hv
      exact ⟨u, fun now later => (servePlan_ask_eq ((serveRequest_eq_serve hq' _).trans (hServe now)) hv.usable).trans
        (hu now later)⟩

theorem presentKey_withPlan (s : State) (p : CpuPlan) : (s.withPlan p).presentKey = s.presentKey.withPlan p := by
  unfold State.presentKey
  simp only [State.withPlan_cfg]
  split <;> rfl

theorem tickStart_withPlan (s : State) (p : CpuPlan) : (s.withPlan p).tickStart = s.tickStart.withPlan p := by
  rw [State.tickStart, presentKey_withPlan]
  rfl

/-- Settles O36: both ticks reach the abort in the same state, and neither goes on from there. -/
theorem fatalRequestAbortsTheTick : Obligations.FatalRequestAbortsTheTick := by
  intro before p0 p1 qs q i info s hs hf hBefore hi hqs hq hPlan
  obtain ⟨u, hu⟩ := servePlan_askAll_fatal hBefore hi hqs hq (hs.serving hf)
  have hTick (p : CpuPlan) : exec .tick (s.withPlan (askAll qs (.ask q p))) =
      .next ((u.takeFatal info).withPlan p) := by
    have hReady : (s.withPlan (askAll qs (.ask q p))).Ready := ⟨hs.config, hs.usable, hs.phase⟩
    refine tick_eq_of_fatal_cpuStep hReady ?_ rfl
    rw [cpuStep_of_tick hReady, tickStart_withPlan]
    exact hu _ p
  refine ⟨(u.takeFatal info).withPlan p0, ?_, rfl, rfl, rfl, hTick p1⟩
  have hSelf := hTick p0
  rw [← hPlan] at hSelf
  exact hSelf

/-! ### A tick of valid reads (R133) -/

/-- The board with another CPU agent and another last response. -/
def State.withAgent (s : State) (a : CpuAgent) (r : Response) : State := { s with cpu := a, resp := r }

/-- With the banks in lockstep a quiet fetch keeps the selection. -/
theorem romSelAfter_of_quiet {addr : BitVec 8} {s : State} (hs : s.Serving .hp) (hl : s.lockstep)
    (hq : quietRead s (.hpFetch addr)) : s.romSelAfter (s.hpMergedOpcode addr) = s.romSel := by
  simp only [State.lockstep, hs.family] at hl
  obtain ⟨b, hb, hl⟩ := hl
  have hHeld : s.romSel[b]? = some b := by simp [hl, hb]
  rw [hpMergedOpcode_of_lockstep hb hl, State.romSelAfter, if_neg (hq b hb hHeld)]

/-- A quiet read answers, and changes nothing else. -/
theorem exec_quietRead {i : Instr} {s : State} (hs : s.AtPhase .one) (hl : s.lockstep) (hf : i.familyOk s.cfg = true)
    (hq : quietRead s i) : ∃ r, exec i s = .next (spoken s r) := by
  have hServing {f : Family} (h : i.family = some f) : s.Serving f :=
    ⟨hs.config, hs.usable, ((familyOk_iff h).mp hf).symm, hs.phase⟩
  cases i with
  | arcRd a =>
    by_cases h : a.toNat < 0x2000
    · exact ⟨_, exec_arcRd_rom (hServing rfl) h⟩
    · exact ⟨_, exec_arcRd_ram (hServing rfl) (Nat.not_lt.mp h) hq⟩
  | c4Romrd a => exact ⟨_, c4RomReadWrapsTheChip a s (hServing rfl)⟩
  | c4Ramrd k cm di =>
    obtain ⟨hCm, hChip⟩ := hq
    have hLookup : s.bankLookup cm = s := by rw [bankLookup_eq, hCm, List.append_nil]; rfl
    have hRead := exec_c4Ramrd_populated (k := k) (hServing rfl) hChip
    rw [hLookup] at hRead
    exact ⟨_, hRead⟩
  | c4Rompr di => exact ⟨_, c4RomPortReadAnswersTheInputPort di s (hServing rfl)⟩
  | hpFetch addr =>
    have hFetch := exec_hpFetch (hServing rfl) addr
    rw [romSelAfter_of_quiet (hServing rfl) hl hq] at hFetch
    exact ⟨_, hFetch⟩
  | hpWsrd addr => exact ⟨_, exec_hpWsrd (hServing rfl) addr⟩
  | _ => exact hq.elim

/-- A step of quiet reads concerns the agent and the response only. -/
theorem servePlan_quiet {p : CpuPlan} {s : State} (hs : s.AtPhase .one) (hl : s.lockstep) (hp : p.wellFormed s.cfg)
    (hq : p.stepAsks (quietRead s)) (a : CpuAgent) (r : Response) :
    ∃ a' r', servePlan p (s.withAgent a r) = .next (s.withAgent a' r') := by
  induction p generalizing a r with
  | idle | done => exact ⟨_, _, rfl⟩
  | ask q p ih =>
    obtain ⟨⟨i, hDecode, hi, hf⟩, hp⟩ := hp
    obtain ⟨⟨j, hDecode', hQuiet⟩, hq⟩ := hq
    cases hDecode.symm.trans hDecode'
    obtain ⟨v, hv⟩ := exec_quietRead (s := (s.withAgent a r).supply i) ⟨hs.config, hs.usable, hs.phase⟩ hl hf hQuiet
    obtain ⟨a', r', hRest⟩ := ih hp hq _ _
    exact ⟨a', r', (servePlan_ask_eq ((serveRequest_eq_exec hDecode hi _).trans hv) hs.usable).trans hRest⟩
  | whenHeard v yes no ihYes ihNo =>
    obtain ⟨hpYes, hpNo⟩ := hp
    obtain ⟨hqYes, hqNo⟩ := hq
    rw [servePlan]
    split
    · exact ihYes hpYes hqYes a r
    · exact ihNo hpNo hqNo a r

/-- What the quiet reads of a step ask of the board is unchanged when the step begins. -/
theorem quietRead_tickStart (s : State) : quietRead s.tickStart = quietRead s := by
  funext i
  cases i <;> simp [quietRead, State.tickStart]

theorem lockstep_tickStart {s : State} (h : s.lockstep) : s.tickStart.lockstep := by
  simpa [State.lockstep, State.tickStart] using h

/-! ### What phases 2 and 3 change -/

@[simp] theorem State.runChain_cfg (s : State) : s.runChain.cfg = s.cfg := by
  unfold State.runChain; split <;> rfl
@[simp] theorem State.runChain_diag (s : State) : s.runChain.diag = s.diag := by
  unfold State.runChain; split <;> rfl
@[simp] theorem State.runChain_latch (s : State) : s.runChain.latch = s.latch := by
  unfold State.runChain; split <;> rfl
@[simp] theorem State.runChain_portOut (s : State) : s.runChain.portOut = s.portOut := by
  unfold State.runChain; split <;> rfl
@[simp] theorem State.runChain_arcRom (s : State) : s.runChain.arcRom = s.arcRom := by
  unfold State.runChain; split <;> rfl
@[simp] theorem State.runChain_c4Rom (s : State) : s.runChain.c4Rom = s.c4Rom := by
  unfold State.runChain; split <;> rfl
@[simp] theorem State.runChain_hpRom (s : State) : s.runChain.hpRom = s.hpRom := by
  unfold State.runChain; split <;> rfl
@[simp] theorem State.runChain_hpWs (s : State) : s.runChain.hpWs = s.hpWs := by
  unfold State.runChain; split <;> rfl
@[simp] theorem State.runChain_arcRam (s : State) : s.runChain.arcRam = s.arcRam := by
  unfold State.runChain; split <;> rfl
@[simp] theorem State.runChain_c4Ram (s : State) : s.runChain.c4Ram = s.c4Ram := by
  unfold State.runChain; split <;> rfl

/-- On a board with a chain the remembered clock levels become those of the ports (R104). -/
theorem runChain_clkPrev {s : State} (hn : s.cfg.nShift ≠ 0) :
    s.runChain.clkPrevK = lineLevel s.portOut s.cfg.lKclk ∧ s.runChain.clkPrevP = lineLevel s.portOut s.cfg.lPclk := by
  rw [State.runChain, if_neg hn, ← level_eq_lineLevel, ← level_eq_lineLevel]
  exact ⟨rfl, rfl⟩

/-- A clock that stays where it was has no edge, and no edge shifts nothing. -/
theorem shifted_of_steadyClock (n : Nat) (clk en din : Bool) (v : Nat) :
    shifted n (clockEdge clk clk en) din v = v := by
  rw [clockEdge, rising, Bool.and_not_self, Bool.false_and]
  rfl

theorem runChain_srK_of_steadyClock {s : State} (h : s.clkPrevK = lineLevel s.portOut s.cfg.lKclk) :
    s.runChain.srK = s.srK := by
  rw [← level_eq_lineLevel] at h
  unfold State.runChain
  split
  · rfl
  · rw [State.shiftChain_srK]
    simp only [State.sampleLines, ← h, shifted_of_steadyClock]

theorem runChain_pair_of_steadyClock {s : State} (h : s.clkPrevP = lineLevel s.portOut s.cfg.lPclk) :
    s.runChain.srA = s.srA ∧ s.runChain.srB = s.srB := by
  rw [← level_eq_lineLevel] at h
  unfold State.runChain
  split
  · exact ⟨rfl, rfl⟩
  · rw [State.shiftChain_srA, State.shiftChain_srB]
    simp only [State.sampleLines, ← h, shifted_of_steadyClock, and_self]

/-- Latches that already hold the levels give no pulse. -/
theorem pulsesOf_self (levels : List Bool) : ∀ b ∈ pulsesOf levels levels, b = false := by
  intro b hb
  obtain ⟨n, hn, rfl⟩ := List.mem_mapIdx.mp hb
  rw [List.getD_eq_getElem _ _ hn, rising, Bool.and_not_self]

/-- After phase 4 the latches are the levels of the ports and cells. -/
theorem runChain_updateLatches_latch (s : State) :
    s.runChain.updateLatches.latch = s.cfg.sigs.map (signalLevel s.portOut s.c4Ram) := by
  rw [State.updateLatches_latch, sigLevels_eq_map_signalLevel, State.runChain_cfg, State.runChain_portOut,
    State.runChain_c4Ram]

theorem runChain_updateLatches_pulse_of_steady {s : State}
    (h : s.latch = s.cfg.sigs.map (signalLevel s.portOut s.c4Ram)) :
    ∀ b ∈ s.runChain.updateLatches.pulse, b = false := by
  rw [State.updateLatches_pulse, State.runChain_latch, h, ← runChain_updateLatches_latch]
  exact pulsesOf_self _

/-- A tick of quiet reads: phase 1 concerns the agent and the response only. -/
theorem tick_quiet {s : State} (hs : s.Ready) (hl : s.lockstep) (hp : s.cpu.plan.wellFormed s.cfg)
    (hq : s.cpu.plan.stepAsks (quietRead s)) :
    ∃ a r, exec .tick s = .next (s.tickStart.withAgent a r).runChain.updateLatches.endTick := by
  have hStart : s.tickStart.AtPhase .one := ⟨hs.phaseOne.config, hs.phaseOne.usable, rfl⟩
  rw [← quietRead_tickStart] at hq
  obtain ⟨a, r, hServe⟩ := servePlan_quiet hStart (lockstep_tickStart hl) (by simpa [State.tickStart] using hp) hq
    s.tickStart.cpu s.tickStart.resp
  exact ⟨a, r, tick_eq_of_servePlan hs hServe hStart.usable⟩

/-- A fetch answering a bank select, then word-select reads, leave every bank select at the bank the word names. -/
theorem tick_bankSelect {addr : BitVec 8} {q : Req} {p : CpuPlan} {b : Nat} {s : State} (hs : s.Ready)
    (hf : s.cfg.family = .hp) (hPlan : s.cpu.plan = .ask q p) (hq : decodeReq q = .ok (.hpFetch addr))
    (hp : p.stepAsks fun i => ∃ a, i = .hpWsrd a) (hb : b < s.cfg.hpNRom)
    (hl : s.romSel = List.replicate s.cfg.hpNRom b) :
    ∃ t, exec .tick s = .next t ∧ t.romSel = s.romSelAfter (s.hpRom.read (b * 256 + addr.toNat)) := by
  have hServing := hs.serving hf
  have hServe := (serveRequest_eq_exec hq rfl s.tickStart).trans (exec_hpFetch hServing addr)
  have hFetched : State.Serving { s.tickStart with
      romSel := s.tickStart.romSelAfter (s.tickStart.hpMergedOpcode addr) } .hp := hServing.of_eq rfl rfl rfl
  obtain ⟨u, hu, hHalted, hSel, -⟩ :=
    servePlan_of_hpWsrds hp (hFetched.spoken ((s.tickStart.hpMergedOpcode addr).setWidth 14))
  have hWord : s.tickStart.hpMergedOpcode addr = s.hpRom.read (b * 256 + addr.toNat) := by
    rw [hpMergedOpcode_of_lockstep (b := b) (by simpa [State.tickStart] using hb) (by simpa [State.tickStart] using hl)]
    simp [State.tickStart]
  have hStep : servePlan s.cpu.plan s.tickStart = .next u :=
    hPlan ▸ (servePlan_ask_eq hServe hServing.usable).trans hu
  refine ⟨_, tick_eq_of_servePlan hs hStep hHalted, ?_⟩
  rw [hWord] at hSel
  simpa [State.romSelAfter, State.tickStart, spoken] using hSel

/-- Settles O38: the state after a tick of quiet reads, field by field; the selection after a bank select is
`romSelAfter`. -/
theorem quietTickChangesNoMemory : Obligations.QuietTickChangesNoMemory := by
  refine ⟨fun s hs hInv hp hq => ?_, fun addr q p b s hs hf hPlan hq hp hb hl hWord => ?_⟩
  · obtain ⟨a, r, hTick⟩ := tick_quiet hs hInv.selects hp hq
    have hOut : (s.tickStart.withAgent a r).portOut = s.portOut := State.presentKey_portOut s
    have hRam : (s.tickStart.withAgent a r).c4Ram = s.c4Ram := State.presentKey_c4Ram s
    have hCfg : (s.tickStart.withAgent a r).cfg = s.cfg := State.presentKey_cfg s
    have hLatch : (s.tickStart.withAgent a r).latch = s.latch := State.presentKey_latch s
    have hPrevK : (s.tickStart.withAgent a r).clkPrevK = s.clkPrevK := State.presentKey_clkPrevK s
    have hPrevP : (s.tickStart.withAgent a r).clkPrevP = s.clkPrevP := State.presentKey_clkPrevP s
    refine ⟨_, hTick, ?_, ?_, ?_, ?_, ?_, ?_, ?_, ?_, ?_, ?_, ?_, fun h => ?_, fun hn => ?_, fun h => ?_, fun h => ?_⟩
    iterate 10 simp [State.withAgent, State.tickStart, hs.usable]
    · rw [← hOut, ← hRam, ← hCfg]
      exact runChain_updateLatches_latch _
    · exact runChain_updateLatches_pulse_of_steady (by rw [hLatch, hCfg, hOut, hRam, h])
    · rw [← hOut, ← hCfg]
      exact runChain_clkPrev (hCfg ▸ hn)
    · exact (runChain_srK_of_steadyClock (by rw [hPrevK, hOut, hCfg, h])).trans (State.presentKey_srK s)
    · obtain ⟨hA, hB⟩ := runChain_pair_of_steadyClock (s := s.tickStart.withAgent a r) (by rw [hPrevP, hOut, hCfg, h])
      exact ⟨hA.trans (State.presentKey_srA s), hB.trans (State.presentKey_srB s)⟩
  · obtain ⟨t, ht, hSel⟩ := tick_bankSelect hs hf hPlan hq hp hb hl
    exact ⟨t, ht, hSel.trans (if_pos hWord)⟩

/-! ### The injected key (R129) -/

/-- A served C4 configuration has the ROM chip a port request names. -/
theorem romPortChip_lt {c : Config} (h : c.ok = true) (di : BitVec 8) : di.toNat / 16 % c.c4NRom < c.c4NRom := by
  obtain ⟨⟨_, _, hRom, _⟩, _⟩ := config_ok_iff.mp h
  exact Nat.mod_lt _ hRom

/-- The input port of a ROM chip that is the KEY_PORT, once the key is presented. -/
theorem presentKey_portIn_rom_getD {s : State} {i : Nat} (hk : s.cfg.keyPort = some (.rom, i))
    (hi : i < s.portIn.rom.length) : s.presentKey.portIn.rom.getD i 0 = s.keyPortValue := by
  rw [State.presentKey, hk]
  simp [hi]

/-- Settles O40: the one request answers the input port on which the key was presented. -/
theorem injectedKeyLastsOneTick : Obligations.InjectedKeyLastsOneTick := by
  intro di q p s hs hInv hf hFn hPort hPlan hq
  have hServing := hs.serving hf
  have hServe := (serveRequest_eq_exec hq rfl s.tickStart).trans
    (c4RomPortReadAnswersTheInputPort di (s.tickStart.supply (.c4Rompr di)) (hServing.of_eq rfl rfl rfl))
  have hStep : servePlan s.cpu.plan s.tickStart = _ := hPlan ▸ servePlan_ask_eq hServe hServing.usable
  have hLength : s.portIn.rom.length = s.cfg.c4NRom := by simp only [hInv.ins.romLength, Config.nPorts, hf]
  have hWord : s.presentKey.portIn.rom.getD (di.toNat / 16 % s.presentKey.cfg.c4NRom) 0 = s.keyPortValue := by
    rw [State.presentKey_cfg, presentKey_portIn_rom_getD hPort (hLength ▸ romPortChip_lt hs.config di)]
  refine ⟨_, tick_eq_of_servePlan hs hStep hServing.usable, rfl, ?_, ?_⟩ <;>
    rw [State.endTick_cpu, State.updateLatches_cpu, State.runChain_cpu]
  · rfl
  · refine congrArg (fun n => [BitVec.ofNat 14 n]) (hWord.trans ?_)
    cases hKey : s.keyIn <;> simp only [State.keyPortValue, hFn, hKey, trunc]

end Sys2Proof.Machine
end

section
/-! PROOFS. Exceptions and writers: only an ARC access that FlatDecode gives no target halts the board (R141, R148), and
what each operation leaves unchanged (10_state.md R12 to R25). -/

namespace Sys2Proof.Machine

/-! ### The one way a board comes to be halted (R125, R141) -/

theorem flatDecode_eq_fatal {c : Config} {a : BitVec 16} (h : flatDecode c a = .fatal) : 0x4000 ≤ a.toNat := by
  by_contra hlt
  obtain hRom | hRam := Nat.lt_or_ge a.toNat 0x2000
  · cases (flatDecode_rom hRom).symm.trans h
  · cases (flatDecode_ram hRam (Nat.not_le.mp hlt)).symm.trans h

theorem exec_usable {i : Instr} {s t : State} (h : exec i s = .next t) (hReset : i ≠ .reset) (hSnap : i ≠ .snap) :
    s.halted = false := by
  cases hc : s.cfg.ok with
  | false => cases h.symm.trans (exec_badConfig hc i)
  | true =>
    cases hh : s.halted with
    | false => rfl
    | true =>
      obtain ⟨hRefused, -, -⟩ := haltedBoardServesResetAndSnapOnly i s hc hh
      cases h.symm.trans (hRefused hReset hSnap)

theorem serve_isRequest {i : Instr} {s t : State} (h : serve i s = .next t) : i.isRequest = true := by
  cases i with
  | arcRd | arcWr | c4Romrd | c4Ramrd | c4Ramwr | c4Rampw | c4Rompr | c4Rompw | hpFetch | hpWsrd => rfl
  | _ => cases h

theorem serve_usable {i : Instr} {s t : State} (h : serve i s = .next t) : s.halted = false := by
  have hi := serve_isRequest h
  rw [serve_eq_exec hi] at h
  exact exec_usable h (by rintro rfl; cases hi) (by rintro rfl; cases hi)

/-- A served request does not halt the board, or it is an ARC access without a target and takes the fatal entry. -/
theorem serve_ends {i : Instr} {s t : State} (h : serve i s = .next t) :
    t.halted = s.halted ∨ s.cfg.family = .arc ∧ ∃ info, ArcFatal i info ∧ t = s.takeFatal info := by
  cases i with
  | arcRd a =>
    obtain ⟨hr, h⟩ := gated_next h
    split at h <;> cases h
    next hFatal => exact .inr ⟨refusal_request_family hr, _, .inl ⟨a, rfl, flatDecode_eq_fatal hFatal, rfl⟩, rfl⟩
    all_goals exact .inl rfl
  | arcWr a v =>
    obtain ⟨hr, h⟩ := gated_next h
    split at h <;> cases h
    next hFatal => exact .inr ⟨refusal_request_family hr, _, .inr ⟨a, v, rfl, flatDecode_eq_fatal hFatal, rfl⟩, rfl⟩
    all_goals exact .inl rfl
  | c4Ramrd _ cm di | c4Ramwr _ cm di | c4Rampw cm di =>
    obtain ⟨-, h⟩ := gated_next h
    obtain ⟨_, e⟩ | ⟨_, -, e⟩ := ramIndex_cases s cm di _ <;> rw [e] at h <;> cases h <;>
      exact .inl (State.bankLookup_halted s cm)
  | hpFetch =>
    obtain ⟨-, h⟩ := gated_next h
    cases h
    exact .inl (by split <;> rfl)
  | c4Romrd | c4Rompr | c4Rompw | hpWsrd =>
    obtain ⟨-, h⟩ := gated_next h
    cases h
    exact .inl rfl
  | _ => cases h

/-- A board that an ARC access without a target has halted: of the ARC family, its key gone, its tick abandoned, and the
status naming the access (R125, R148). -/
structure State.FatalEnd (t : State) : Prop where
  family : t.cfg.family = .arc
  keyIn : t.keyIn = none
  phase : t.phase = .between
  access : ∃ i info, ArcFatal i info ∧ t.resp = .fatal info

theorem State.FatalEnd.takeFatal {s : State} (hf : s.cfg.family = .arc) {i : Instr} {info : FatalInfo}
    (hi : ArcFatal i info) : (s.takeFatal info).FatalEnd :=
  ⟨hf, rfl, rfl, i, info, hi, rfl⟩

theorem State.FatalEnd.withPlan {t : State} (h : t.FatalEnd) (p : CpuPlan) : (t.withPlan p).FatalEnd :=
  ⟨h.family, h.keyIn, h.phase, h.access⟩

theorem serve_fatalEnd {i : Instr} {s t : State} (h : serve i s = .next t) (hh : t.halted = true) : t.FatalEnd := by
  obtain hKept | ⟨hf, info, hi, rfl⟩ := serve_ends h
  · cases (serve_usable h).symm.trans (hKept.symm.trans hh)
  · exact .takeFatal hf hi

theorem cpuStep_fatalEnd {s t : State} (h : execCpuStep s = .next t) (hh : t.halted = true) : t.FatalEnd := by
  have hs : s.beginStep.halted = false := micro_usable h
  obtain ⟨-, h⟩ := gated_next h
  exact servePlan_keeps (P := fun u => u.halted = true → u.FatalEnd) (fun _ _ _ _ => serve_fatalEnd)
    (fun _ p hu hh => (hu hh).withPlan p) (fun hh => by cases hs.symm.trans hh) h hh

/-- The phases after phase 1 are not run on a halted board and do not halt it. -/
theorem tick_fatalEnd {s t : State} (h : execTick s = .next t) (hh : t.halted = true) : t.FatalEnd := by
  obtain ⟨t1, h1, ⟨-, rfl⟩ | ⟨-, t2, t3, t4, -, -, h4, rfl⟩⟩ := tick_cases h
  · exact cpuStep_fatalEnd h1 hh
  · have hRunning : (t3.enter .four).halted = false := micro_usable h4
    rw [sleUpdate_next h4] at hh
    cases hRunning.symm.trans hh

/-- An operation that halts the board is the ARC access without a target, or the tick or CPU step that served it. -/
theorem exec_fatalEnd {i : Instr} {s t : State} (h : exec i s = .next t) (hs : s.halted = false)
    (hh : t.halted = true) :
    t.FatalEnd ∧ ((∃ info, ArcFatal i info ∧ t.resp = .fatal info) ∨ i = .tick ∨ i = .cpuStep) := by
  have unhalted (hKept : t.halted = s.halted) : False := by cases hs.symm.trans (hKept.symm.trans hh)
  cases exec_effect h with
  | request served =>
    obtain hKept | ⟨-, info, hi, rfl⟩ := serve_ends served
    · exact (unhalted hKept).elim
    · exact ⟨serve_fatalEnd served hh, .inl ⟨info, hi, rfl⟩⟩
  | tick ran => exact ⟨tick_fatalEnd ran hh, .inr (.inl rfl)⟩
  | cpuStep ran => exact ⟨cpuStep_fatalEnd ran hh, .inr (.inr rfl)⟩
  | pccExtract ran => obtain ⟨-, ⟨-, rfl⟩ | ⟨-, rfl⟩⟩ := pccExtract_next ran <;> exact (unhalted rfl).elim
  | pccShift ran => obtain ⟨-, rfl⟩ | ⟨-, rfl⟩ := pccShift_next ran <;> exact (unhalted rfl).elim
  | sleUpdate ran => obtain rfl := sleUpdate_next ran; exact (unhalted rfl).elim
  | inject | reply | select => exact (unhalted rfl).elim
  | install => exact (unhalted (State.installRom_halted ..)).elim
  | lookup => exact (unhalted (State.bankLookup_halted ..)).elim
  | reset => cases hh

/-- Settles O11: the board ends as the fatal access left it, and the configuration is the one it had before. -/
theorem onlyArcAddressesHaltTheBoard : Obligations.OnlyArcAddressesHaltTheBoard := by
  intro i s t h hs hh
  obtain ⟨hEnd, hCause⟩ := exec_fatalEnd h hs hh
  obtain ⟨hCfg, -⟩ := exec_cfg_hpWs h
  refine ⟨hCfg ▸ hEnd.family, hEnd.keyIn, hEnd.phase, ?_⟩
  obtain ⟨info, ⟨a, rfl, ha, rfl⟩ | ⟨a, v, rfl, ha, rfl⟩, hr⟩ | hTick := hCause
  · exact .inl ⟨a, rfl, ha, hr⟩
  · exact .inr (.inl ⟨a, v, rfl, ha, hr⟩)
  · obtain ⟨_, _, ⟨a, -, ha, rfl⟩ | ⟨a, v, -, ha, rfl⟩, hr⟩ := hEnd.access
    · exact .inr (.inr ⟨hTick, a, ha, .inl hr⟩)
    · exact .inr (.inr ⟨hTick, a, ha, .inr ⟨v, hr⟩⟩)

/-! ### What each operation leaves unchanged -/

/-- The gate serves no halted board but `RESET` and `SNAP`, and of the two `SNAP` does not write `halted`. -/
theorem exec_halted {i : Instr} {s t : State} (h : exec i s = .next t) (hi : i ≠ .reset) :
    t.halted = s.halted ∨ (s.halted = false ∧ t.halted = true) := by
  by_cases hSnap : i = .snap
  · subst hSnap
    exact .inl (snap_halted h)
  · have hs := exec_usable h hi hSnap
    cases ht : t.halted with
    | false => exact .inl hs.symm
    | true => exact .inr ⟨hs, rfl⟩

theorem exec_halted_writers {i : Instr} {s t : State} (h : exec i s = .next t) (hi : i ≠ .reset) :
    t.halted = s.halted ∨ (s.halted = false ∧ t.halted = true ∧
      ((∃ a, i = .arcRd a) ∨ (∃ a v, i = .arcWr a v) ∨ i = .cpuStep ∨ i = .tick)) := by
  obtain hKept | ⟨hs, ht⟩ := exec_halted h hi
  · exact .inl hKept
  · obtain ⟨-, -, -, ⟨a, rfl, -⟩ | ⟨a, v, rfl, -⟩ | ⟨rfl | rfl, -⟩⟩ := onlyArcAddressesHaltTheBoard i s t h hs ht
    · exact .inr ⟨hs, ht, .inl ⟨a, rfl⟩⟩
    · exact .inr ⟨hs, ht, .inr (.inl ⟨a, v, rfl⟩)⟩
    · exact .inr ⟨hs, ht, .inr (.inr (.inr rfl))⟩
    · exact .inr ⟨hs, ht, .inr (.inr (.inl rfl))⟩

/-- The requests that leave no record: all but the ARC write and the C4 RAM accesses (R142 to R145). -/
theorem serve_diag {i : Instr} {s t : State} (h : serve i s = .next t) (hArcWr : ∀ a v, i ≠ .arcWr a v)
    (hRamrd : ∀ k cm di, i ≠ .c4Ramrd k cm di) (hRamwr : ∀ k cm di v, i ≠ .c4Ramwr k cm di v)
    (hRampw : ∀ cm di v, i ≠ .c4Rampw cm di v) : t.diag = s.diag := by
  cases i with
  | arcWr a v => exact absurd rfl (hArcWr a v)
  | c4Ramrd k cm di => exact absurd rfl (hRamrd k cm di)
  | c4Ramwr k cm di v => exact absurd rfl (hRamwr k cm di v)
  | c4Rampw cm di v => exact absurd rfl (hRampw cm di v)
  | arcRd =>
    obtain ⟨-, h⟩ := gated_next h
    split at h <;> cases h <;> rfl
  | hpFetch =>
    obtain ⟨-, h⟩ := gated_next h
    cases h
    split <;> rfl
  | c4Romrd | c4Rompr | c4Rompw | hpWsrd =>
    obtain ⟨-, h⟩ := gated_next h
    cases h
    rfl
  | _ => cases h

/-- The words presented are no matter of a tick: phase 1 keeps them, and so does every phase after it. -/
theorem tick_inbox {s t : State} (h : execTick s = .next t) : t.inbox = s.inbox := by
  obtain ⟨t1, h1, hend⟩ := tick_cases h
  have hOne : t1.inbox = s.inbox := (cpuStep_kept h1).inbox.trans (State.presentKey_inbox s)
  obtain ⟨-, rfl⟩ | ⟨hh, t2, t3, t4, h2, h3, h4, rfl⟩ := hend
  · exact hOne
  · have hTwo : t2.inbox = t1.inbox := by obtain ⟨-, ⟨-, rfl⟩ | ⟨-, rfl⟩⟩ := pccExtract_next h2 <;> rfl
    have hThree : t3.inbox = t2.inbox := by obtain ⟨-, rfl⟩ | ⟨-, rfl⟩ := pccShift_next h3 <;> rfl
    rw [sleUpdate_next h4]
    exact hThree.trans (hTwo.trans hOne)

/-- Phase 1 and its requests keep the key, or end in the fatal entry, which clears it (R148). -/
theorem KeptInPhaseOne.keyIn_or_fatal {s t : State} (k : KeptInPhaseOne s t) (hs : s.halted = false)
    (hEnd : t.halted = true → t.FatalEnd) :
    t.keyIn = s.keyIn ∨ (s.halted = false ∧ t.halted = true ∧ t.keyIn = none) := by
  cases hh : t.halted with
  | false =>
    obtain ⟨-, -, hKey⟩ := k.unlessFatal hh
    exact .inl hKey
  | true => exact .inr ⟨hs, rfl, (hEnd hh).keyIn⟩

theorem KeptInPhaseOne.lines_phase {s t : State} (k : KeptInPhaseOne s t) (hs : s.halted = false)
    (hh : t.halted = s.halted) : t.lines = s.lines ∧ t.phase = s.phase := by
  obtain ⟨hLines, hPhase, -⟩ := k.unlessFatal (hh.trans hs)
  exact ⟨hLines, hPhase⟩

/-- Settles O57: by the effect of the operation. A request and a CPU step are bounded by the frame of phase 1, a tick by
what no operation writes, and every other operation is an update of the fields it is the writer of. -/
theorem eachStateHasItsWriters : Obligations.EachStateHasItsWriters := by
  intro i s t h hi
  obtain ⟨hCfg, hWs⟩ := exec_cfg_hpWs h
  obtain ⟨-, hRom⟩ := onlyLoadromWritesRom i s t h
  have hHalted := exec_halted_writers h hi
  cases exec_effect h with
  | request served =>
    have hs := serve_usable served
    obtain ⟨k, stores⟩ := serve_frame served
    exact ⟨fun _ _ => ⟨k.latch, k.pulse⟩, fun _ _ => ⟨k.clkPrevK, k.clkPrevP, k.srK, k.srA, k.srB⟩,
      fun hFetch _ _ _ => stores.romSel hFetch, fun hRampw hRompw _ _ => stores.portOut hRampw hRompw,
      fun _ => k.portIn, fun hWr _ _ => stores.arcRam hWr, fun hWr _ _ => stores.c4Ram hWr, hRom, hWs, hCfg, k.inbox,
      fun _ _ => k.keyIn_or_fatal hs (serve_fatalEnd served), hHalted,
      fun hArcWr hRamrd hRamwr hRampw _ _ _ => serve_diag served hArcWr hRamrd hRamwr hRampw,
      fun hNot _ _ => absurd (serve_isRequest served) (Bool.eq_false_iff.mp hNot),
      fun _ hh => (k.lines_phase hs hh).2, fun _ _ _ hh => (k.lines_phase hs hh).1⟩
  | cpuStep ran =>
    have hs : s.halted = false := micro_usable ran
    have k := cpuStep_kept ran
    exact ⟨fun _ _ => ⟨k.latch, k.pulse⟩, fun _ _ => ⟨k.clkPrevK, k.clkPrevP, k.srK, k.srA, k.srB⟩,
      fun _ _ _ hStep => absurd rfl hStep, fun _ _ _ hStep => absurd rfl hStep, fun _ => k.portIn,
      fun _ _ hStep => absurd rfl hStep, fun _ _ hStep => absurd rfl hStep, hRom, hWs, hCfg, k.inbox,
      fun _ _ => k.keyIn_or_fatal hs (cpuStep_fatalEnd ran), hHalted,
      fun _ _ _ _ _ _ hStep => absurd rfl hStep, fun _ _ hStep => absurd rfl hStep,
      fun _ hh => (k.lines_phase hs hh).2, fun _ _ _ hh => (k.lines_phase hs hh).1⟩
  | tick ran => simp [hCfg, hWs, hRom, tick_inbox ran, exec_halted h hi]
  | pccExtract ran => obtain ⟨-, ⟨-, rfl⟩ | ⟨-, rfl⟩⟩ := pccExtract_next ran <;> simp
  | pccShift ran => obtain ⟨-, rfl⟩ | ⟨-, rfl⟩ := pccShift_next ran <;> simp
  | sleUpdate ran => obtain rfl := sleUpdate_next ran; simp
  | inject | reply | install | select => simp
  | @lookup _ cm _ invalid _ =>
    cases hBad : (bank cm).2 with
    | false => simp [hBad]
    | true =>
      obtain rfl | rfl | rfl | rfl : i = .cm011 ∨ i = .cm101 ∨ i = .cm110 ∨ i = .cm111 := by simpa using invalid hBad
      all_goals simp
  | reset => exact absurd rfl hi

end Sys2Proof.Machine
end

section
/-! PROOFS. Reset, the loading of ROM images, and the hazards: what a tick samples and the fetch after a bank select
(R27, R45, R160 to R172). -/

namespace Sys2Proof.Memory

/-- Zero words at the end of a row are not listed. -/
theorem ofWords_append_zeros {w : Nat} (vs : List (BitVec w)) (a n : Nat) :
    Memory.ofWords a (vs ++ List.replicate n 0) = Memory.ofWords a vs := by
  induction vs generalizing a with
  | nil =>
    induction n generalizing a with
    | zero => rfl
    | succ n ih => simpa [List.replicate_succ, Memory.ofWords, Memory.consWord] using ih (a + 1)
  | cons v vs ih => exact congrArg (Memory.consWord a v) (ih (a + 1))

theorem install_append_zeros {w : Nat} (m : Memory w) (base len n : Nat) (vs : List (BitVec w)) :
    m.install base len (vs ++ List.replicate n 0) = m.install base len vs := by
  simp only [Memory.install, List.take_append, List.take_replicate, ofWords_append_zeros]

end Sys2Proof.Memory

namespace Sys2Proof.Machine

/-! ### `RESET` (R27, R160, R162) -/

theorem exec_reset {s : State} (hc : s.cfg.ok = true) (hp : s.phase = .between) :
    exec .reset s = .next s.resetBoard := gated_commandWhileHalted _ hc hp

/-- A newly created board is in the reset state. -/
theorem resetBoard_create (c : Config) : (State.create c).resetBoard = State.create c := rfl

theorem create_ports_of_c4 {c : Config} (hf : c.family = .c4) :
    (State.create c).portOut = ⟨List.replicate c.c4NRom 0, List.replicate c.c4NRam 0⟩ ∧
      (State.create c).portIn = ⟨List.replicate c.c4NRom 0, List.replicate c.c4NRam 0⟩ := by
  simp only [State.create, Config.nPorts, hf, and_self]

theorem create_romSel_of_hp {c : Config} (hf : c.family = .hp) :
    (State.create c).romSel = List.replicate c.hpNRom 0 := by
  simp only [State.create, hf]

theorem create_arcRam_of_arc {c : Config} (hf : c.family = .arc) : (State.create c).arcRam = c.arcRamInit := by
  simp only [State.create, hf]

theorem create_c4Ram_of_c4 {c : Config} (hf : c.family = .c4) : (State.create c).c4Ram = c.c4RamInit := by
  simp only [State.create, hf]

/-- Settles O1: but for what it keeps, the board after `RESET` is the newly created one. -/
theorem resetCommandRestoresTheResetTable : Obligations.ResetCommandRestoresTheResetTable := by
  refine ⟨fun s hc hp => ⟨s.resetBoard, exec_reset hc hp, ?_⟩, fun c hc => ?_⟩
  · exact ⟨rfl, rfl, rfl, rfl, rfl, rfl, rfl, rfl, rfl, rfl, rfl, create_arcRam_of_arc, create_c4Ram_of_c4,
      create_ports_of_c4, create_romSel_of_hp, rfl, rfl, rfl, rfl, rfl⟩
  · rw [exec_reset (s := State.create c) hc rfl, resetBoard_create]

/-- Settles O2: the agent and the words presented are among what `RESET` keeps. -/
theorem resetLeavesTheAgentAndTheInbox : Obligations.ResetLeavesTheAgentAndTheInbox := fun s hc hp =>
  ⟨s.resetBoard, exec_reset hc hp, rfl, rfl, rfl, rfl, rfl⟩

/-- Settles O4: the machine's own reset state is the newly created C4 board, whose configuration is served. -/
theorem newBoardMeetsTheBoardConditions : Obligations.NewBoardMeetsTheBoardConditions :=
  ⟨fun _ hc => create_inv hc, create_inv (c := Config.c4Board) (by decide)⟩

/-! ### The fetch after a bank select (R45, R172) -/

theorem romSelAfter_of_pattern {s : State} {w : BitVec 10} (h : w.extractLsb' 0 7 = s.cfg.romselPattern) :
    s.romSelAfter w = List.replicate s.cfg.hpNRom ((w.extractLsb' 7 3).toNat % s.cfg.hpNRom) := if_pos h

/-- Settles O22: the first fetch leaves the banks in lockstep at the bank its word names, and there the second reads. -/
theorem nextFetchReadsTheNewBank : Obligations.NextFetchReadsTheNewBank := by
  intro a1 a2 b s hs hb hl hWord
  have hFirst := exec_hpFetch hs a1
  rw [hpMergedOpcode_of_lockstep hb hl, romSelAfter_of_pattern hWord] at hFirst
  have hPos : 0 < s.cfg.hpNRom := hpNRom_pos hs
  exact ⟨_, _, hFirst, hpFetchAnswersAndSelects a2 _ _ (hs.of_eq rfl rfl rfl) (Nat.mod_lt _ hPos) rfl, rfl⟩

/-! ### What a tick samples (R43, R124, R170) -/

/-- What phases 2 to 4 and the end of a tick write (R103, R104, R116, R122): no port, no memory and no record. -/
theorem runChain_updateLatches_endTick_eq {s : State} (h : s.lines = .idle) :
    s.runChain.updateLatches.endTick = { s with
      phase := .between, keyIn := none, resp := .ok 0, lines := .idle,
      latch := s.runChain.updateLatches.latch, pulse := s.runChain.updateLatches.pulse,
      clkPrevK := s.runChain.clkPrevK, clkPrevP := s.runChain.clkPrevP,
      srK := s.runChain.srK, srA := s.runChain.srA, srB := s.runChain.srB } := by
  by_cases hn : s.cfg.nShift = 0
  · rw [State.runChain, if_pos hn, ← h]
    rfl
  · rw [State.runChain, if_neg hn]
    rfl

/-- A tick that leaves the board running completed phase 1 and went on from there. -/
theorem tick_completed {s t : State} (h : exec .tick s = .next t) (hh : t.halted = false) :
    ∃ t1, execCpuStep (s.presentKey.enter .one) = .next t1 ∧ t1.halted = false ∧
      t = t1.runChain.updateLatches.endTick := by
  obtain ⟨hr, -⟩ := gated_next h
  obtain ⟨hc, hs, hp⟩ := refusal_command.mp hr
  obtain ⟨t1, h1, ⟨hFatal, rfl⟩ | ⟨hh1, -⟩⟩ := tick_cases h
  · exact absurd hFatal (Bool.eq_false_iff.mp hh)
  · exact ⟨t1, h1, hh1, Host.Outcome.next.inj (h.symm.trans (tick_eq_of_cpuStep ⟨hc, hs, hp⟩ h1 hh1))⟩

/-- Settles O35: phases 2 to 4 start from the state phase 1 left and write neither ports nor cells. -/
theorem phasesSampleTheSameTick : Obligations.PhasesSampleTheSameTick := by
  intro s t h hh hl
  obtain ⟨t1, h1, hh1, rfl⟩ := tick_completed h hh
  have hKept := cpuStep_kept h1
  have hCfg : t1.cfg = s.cfg := hKept.cfg.trans (State.presentKey_cfg s)
  obtain ⟨hLines, -, -⟩ := hKept.unlessFatal hh1
  have hIdle : t1.lines = .idle := hLines.trans ((State.presentKey_lines s).trans hl)
  refine ⟨t1, (phaseOneStart_eq s).symm ▸ h1, ?_, fun hn => ?_, ?_⟩
  · simpa [hCfg] using runChain_updateLatches_latch t1
  · simpa [hCfg] using runChain_clkPrev (s := t1) (hCfg.symm ▸ hn)
  · exact runChain_updateLatches_endTick_eq hIdle

/-! ### `LOADROM` (R165 to R169) -/

/-- An image that fits, for a chip that exists, is installed. -/
theorem exec_loadrom_fits {i : BitVec 8} {blob : List Byte} {s : State} (hs : s.Ready) (hi : i.toNat < s.cfg.nRom)
    (hLen : blob.length ≤ s.cfg.romCapacity) :
    exec (.loadrom i blob) s = .next (acknowledged (s.installRom i.toNat blob)) := by
  rw [exec, execLoadrom, gated_command _ hs.config hs.usable hs.phase, if_neg (Nat.not_le.mpr hi),
    if_neg (Nat.not_lt.mpr hLen)]
  rfl

theorem exec_loadrom_oversized {i : BitVec 8} {blob : List Byte} {s : State} (hs : s.Ready)
    (hi : i.toNat < s.cfg.nRom) (hLen : s.cfg.romCapacity < blob.length) :
    exec (.loadrom i blob) s = .next (s.reply (.error i blob.length)) := by
  rw [exec, execLoadrom, gated_command _ hs.config hs.usable hs.phase, if_neg (Nat.not_le.mpr hi), if_pos hLen]

theorem exec_loadrom_noSuchChip {i : BitVec 8} {blob : List Byte} {s : State} (hs : s.Ready)
    (hi : s.cfg.nRom ≤ i.toNat) : exec (.loadrom i blob) s = .refused .noSuchChip := by
  rw [exec, execLoadrom, gated_command _ hs.config hs.usable hs.phase, if_pos hi]

theorem roms_of_arc {c : Config} (hf : c.family = .arc) : c.nRom = 4 ∧ c.romCapacity = 2048 := by
  simp only [Config.nRom, Config.romCapacity, hf, and_self]

theorem roms_of_c4 {c : Config} (hf : c.family = .c4) :
    c.nRom = c.c4NRom ∧ c.romCapacity = c.c4RomLen * c.c4RomW / 8 := by
  simp only [Config.nRom, Config.romCapacity, hf, and_self]

theorem roms_of_hp {c : Config} (hf : c.family = .hp) : c.nRom = c.hpNRom ∧ c.romCapacity = 320 := by
  simp only [Config.nRom, Config.romCapacity, hf, and_self]

/-- Settles O44: the index is checked before the size, and neither failure reaches the installing. -/
theorem loadromTurnsBadImagesAway : Obligations.LoadromTurnsBadImagesAway := fun _ _ _ hs =>
  ⟨exec_loadrom_oversized hs, exec_loadrom_noSuchChip hs, roms_of_arc, roms_of_c4, roms_of_hp⟩

/-! ### The words of an image, and images with zero bytes added (R166, R169) -/

theorem c4UnpackWords_of_bytes {c : Config} (h : c.c4RomW = 8) (blob : List Byte) :
    c4UnpackWords c blob = blob.map (fun b => b.setWidth 14) := if_pos h

theorem c4UnpackWords_of_wide {c : Config} (h : c.c4RomW ≠ 8) (blob : List Byte) :
    c4UnpackWords c blob = (List.range c.c4RomLen).map (c4WideWord c blob) := if_neg h

/-- With 8-bit words, word k is byte k. -/
theorem c4UnpackWords_getD_of_bytes {c : Config} (h : c.c4RomW = 8) (blob : List Byte) (k : Nat) :
    (c4UnpackWords c blob).getD k 0 = (blob.getD k 0).setWidth 14 := by
  rw [c4UnpackWords_of_bytes h]
  exact List.getD_map blob (0 : Byte) fun b => b.setWidth 14

theorem c4UnpackWords_getD_of_wide {c : Config} (h : c.c4RomW ≠ 8) (blob : List Byte) {k : Nat}
    (hk : k < c.c4RomLen) : (c4UnpackWords c blob).getD k 0 = c4WideWord c blob k := by
  rw [c4UnpackWords_of_wide h]
  simp [List.getD_eq_getElem?_getD, hk]

theorem c4UnpackWords_getD_lt (c : Config) (blob : List Byte) (k : Nat) :
    ((c4UnpackWords c blob).getD k 0).toNat < 2 ^ c.c4RomW := by
  obtain hk | hk := Nat.lt_or_ge k (c4UnpackWords c blob).length
  · rw [List.getD_eq_getElem _ _ hk]
    exact c4UnpackWords_lt c blob _ (List.getElem_mem hk)
  · rw [List.getD_eq_default _ _ hk]
    exact Nat.two_pow_pos _

/-- Words beyond the blob are 0, whatever their width. -/
theorem c4UnpackWords_getD_beyond {c : Config} {blob : List Byte} {k : Nat} (hk : k < c.c4RomLen)
    (h : 8 * blob.length ≤ k * c.c4RomW) : (c4UnpackWords c blob).getD k 0 = 0 := by
  by_cases hw : c.c4RomW = 8
  · rw [hw] at h
    rw [c4UnpackWords_getD_of_bytes hw, List.getD_eq_default _ _ (by omega)]
    rfl
  · rw [c4UnpackWords_getD_of_wide hw blob hk, c4WideWord_beyond h]

theorem c4WideWord_append_zeros (c : Config) (blob : List Byte) (n : Nat) :
    c4WideWord c (blob ++ List.replicate n 0) = c4WideWord c blob := by
  funext k
  simp only [c4WideWord, unpadded_append_zeros]

theorem installRom_of_c4 {s : State} (hf : s.cfg.family = .c4) (i : Nat) (blob : List Byte) :
    s.installRom i blob = { s with
      c4Rom := s.c4Rom.install (i * s.cfg.c4RomLen) s.cfg.c4RomLen (c4UnpackWords s.cfg blob) } := by
  simp only [State.installRom, hf]
  rfl

/-- Zero bytes added to a C4 image are not listed (8-bit words), or no part of the unpadded image (other widths). -/
theorem installRom_append_zeros {s : State} (hf : s.cfg.family = .c4) (i : Nat) (blob : List Byte) (n : Nat) :
    s.installRom i (blob ++ List.replicate n 0) = s.installRom i blob := by
  rw [installRom_of_c4 hf, installRom_of_c4 hf]
  by_cases hw : s.cfg.c4RomW = 8
  · have hZeros : (List.replicate n (0 : Byte)).map (fun b => b.setWidth 14) = List.replicate n 0 := by simp
    rw [c4UnpackWords_of_bytes hw, c4UnpackWords_of_bytes hw, List.map_append, hZeros, Memory.install_append_zeros]
  · rw [c4UnpackWords_of_wide hw, c4UnpackWords_of_wide hw, c4WideWord_append_zeros]

/-- A C4 image that fits is installed in the cells of its chip. -/
theorem exec_loadrom_c4 {i : BitVec 8} {blob : List Byte} {s : State} (hs : s.Ready) (hf : s.cfg.family = .c4)
    (hi : i.toNat < s.cfg.c4NRom) (hLen : blob.length ≤ s.cfg.romCapacity) :
    exec (.loadrom i blob) s = .next (acknowledged { s with
      c4Rom := s.c4Rom.install (i.toNat * s.cfg.c4RomLen) s.cfg.c4RomLen (c4UnpackWords s.cfg blob) }) := by
  obtain ⟨hRoms, -⟩ := roms_of_c4 hf
  rw [exec_loadrom_fits hs (hRoms ▸ hi) hLen, installRom_of_c4 hf]

theorem romCapacity_of_bytes {c : Config} (hf : c.family = .c4) (h : c.c4RomW = 8) : c.romCapacity = c.c4RomLen := by
  obtain ⟨-, hCap⟩ := roms_of_c4 hf
  rw [hCap, h, Nat.mul_div_cancel _ (by decide)]

theorem exec_loadrom_arc {i : BitVec 8} {blob : List Byte} {s : State} (hs : s.Ready) (hf : s.cfg.family = .arc)
    (hi : i.toNat < 4) (hLen : blob.length ≤ 2048) :
    exec (.loadrom i blob) s =
      .next (acknowledged { s with arcRom := s.arcRom.install (i.toNat * 2048) 2048 blob }) := by
  obtain ⟨hRoms, hCap⟩ := roms_of_arc hf
  rw [exec_loadrom_fits hs (hRoms ▸ hi) (hCap ▸ hLen)]
  simp only [State.installRom, hf, arcRomCell, Nat.add_zero]

/-- Settles O42: the image takes the cells of its chip and no others; what the words are is `Unpack`'s. -/
theorem loadromInstallsByteImages : Obligations.LoadromInstallsByteImages := by
  refine ⟨fun i blob s hs hf hi hLen => ⟨_, exec_loadrom_arc hs hf hi hLen, fun k hk => ?_, fun c hc => ?_⟩,
    fun i blob s hs hf hw hi hLen =>
      ⟨_, exec_loadrom_c4 hs hf hi ((romCapacity_of_bytes hf hw).symm ▸ hLen), fun k hk => ?_, fun c hc => ?_⟩,
    fun i blob s hs hf hi hLen =>
      ⟨_, exec_loadrom_c4 hs hf hi hLen, fun k hk => ?_, fun n hn => ?_, fun c hc => ?_⟩⟩
  · exact Memory.read_install_inside _ _ hk
  · exact Memory.read_install_outside _ _ hc
  · rw [Memory.read_install_inside _ _ hk, c4UnpackWords_getD_of_bytes hw]
  · exact Memory.read_install_outside _ _ hc
  · rw [Memory.read_install_inside _ _ hk]
    exact ⟨c4UnpackWords_getD_lt s.cfg blob k, c4UnpackWords_getD_beyond hk⟩
  · obtain ⟨hRoms, -⟩ := roms_of_c4 hf
    have hLen' : (blob ++ List.replicate n 0).length ≤ s.cfg.romCapacity := by
      rwa [List.length_append, List.length_replicate]
    rw [exec_loadrom_fits hs (hRoms ▸ hi) hLen', exec_loadrom_fits hs (hRoms ▸ hi) hLen, installRom_append_zeros hf]
  · exact Memory.read_install_outside _ _ hc

/-! ### HP images (R165, R166, R169) -/

/-- The first byte of an image stands below the others. -/
theorem packedBits_cons (b : Byte) (blob : List Byte) :
    packedBits (b :: blob) = packedBits blob <<< 8 ||| b.setWidth 2560 := by
  refine BitVec.eq_of_getLsbD_eq fun n hn => ?_
  rw [BitVec.getLsbD_or, BitVec.getLsbD_shiftLeft, BitVec.getLsbD_setWidth, packedBits, packedBits,
    BitVec.getLsbD_ofNat, BitVec.getLsbD_ofNat, List.foldr_cons, Nat.add_comm,
    Nat.testBit_two_pow_mul_add (i := 8) _ b.isLt, BitVec.testBit_toNat]
  by_cases h8 : n < 8
  · simp [h8]
  · rw [if_neg h8, BitVec.getLsbD_of_ge b n (Nat.not_lt.mp h8)]
    simp [hn, h8, show n - 8 < 2560 by omega]

/-- Byte k of the image stands at bits 8k; beyond the end of the blob stand zeros. -/
theorem packedBits_getLsbD (blob : List Byte) {k j : Nat} (hk : k < 320) (hj : j < 8) :
    (packedBits blob).getLsbD (8 * k + j) = (blob.getD k 0).getLsbD j := by
  induction blob generalizing k with
  | nil => simp [packedBits]
  | cons b blob ih =>
    rw [packedBits_cons, BitVec.getLsbD_or, BitVec.getLsbD_shiftLeft, BitVec.getLsbD_setWidth]
    cases k with
    | zero => simp [hj]; omega
    | succ k =>
      rw [BitVec.getLsbD_of_ge b _ (by omega), show 8 * (k + 1) + j - 8 = 8 * k + j by omega, ih (by omega)]
      simp
      omega

theorem packedBits_extractLsb' (blob : List Byte) {k : Nat} (hk : k < 320) :
    (packedBits blob).extractLsb' (8 * k) 8 = blob.getD k 0 := by
  refine BitVec.eq_of_getLsbD_eq fun j hj => ?_
  rw [BitVec.getLsbD_extractLsb', decide_eq_true hj, Bool.true_and, packedBits_getLsbD blob hk hj]

theorem hpUnpackWords_getD (blob : List Byte) {k : Nat} (hk : k < 256) :
    (hpUnpackWords blob).getD k 0 = (hpUnpack (packedBits blob)).extractLsb' (10 * k) 10 := by
  simp [hpUnpackWords, List.getD_eq_getElem?_getD, hk, slice]

theorem exec_loadrom_hp {i : BitVec 8} {blob : List Byte} {s : State} (hs : s.Ready) (hf : s.cfg.family = .hp)
    (hi : i.toNat < s.cfg.hpNRom) (hLen : blob.length ≤ 320) :
    exec (.loadrom i blob) s =
      .next (acknowledged { s with hpRom := s.hpRom.install (i.toNat * 256) 256 (hpUnpackWords blob) }) := by
  obtain ⟨hRoms, hCap⟩ := roms_of_hp hf
  rw [exec_loadrom_fits hs (hRoms ▸ hi) (hCap ▸ hLen)]
  simp only [State.installRom, hf, hpCell, BitVec.ofNat_eq_ofNat, BitVec.toNat_ofNat, Nat.zero_mod, Nat.add_zero]

/-- Settles O43: the joined words are `Unpack` of the packed image, which the inverse of `Unpack` gives back. -/
theorem loadromInstallsHpImages : Obligations.LoadromInstallsHpImages := by
  intro i blob s hs hf hi hLen
  refine ⟨_, hpUnpack (packedBits blob), exec_loadrom_hp hs hf hi hLen, fun k hk => ?_, fun hZero => ?_,
    fun k hk => ?_, fun c hc => Memory.read_install_outside _ _ hc⟩
  · rw [Equiv.symm_apply_apply, packedBits_extractLsb' blob hk]
  · rw [packedBits_zero hZero, hpUnpack_zero]
  · rw [Memory.read_install_inside _ _ hk, hpUnpackWords_getD blob hk]

end Sys2Proof.Machine
end
